-- ==== Sys2Proof/Word.lean ====
section
/-! DEFINITION. The word types of the block: everything is a byte but the 7-bit bus address
(00_scope.md R6, R7). -/

namespace Sys2Proof

/-- An unsigned 8-bit value (00_scope.md R6). -/
abbrev Byte := BitVec 8

/-- A bus address: "7-bit I2C bus address" (00_scope.md R7, 10_state.md R11). -/
abbrev BusAddr := BitVec 7

/-- A 4-bit code: `FAULT` (10_state.md R21) and `TV_SITE` (R23). -/
abbrev Code := BitVec 4

end Sys2Proof
end

