-- ==== Sys2Proof/Syntax.lean ====
section
/-! DEFINITION. The host commands: one constructor per row of the opcode map (30_encoding.md R64),
in the order of the opcodes. -/

namespace Sys2Proof

/-- A host command with its operands (30_encoding.md R60, R63, R64). -/
inductive Instr where
  /-- `INIT addr, cols, rows, font` (41_init.md R100). -/
  | init (addr : BusAddr) (cols rows font : Byte)
  /-- `CLEAR` (42_display_control.md R120). -/
  | clear
  /-- `HOME` (R121). -/
  | home
  /-- `SETCURSOR row, col` (R123). -/
  | setcursor (row col : Byte)
  /-- `DISPOFF` (R125). -/
  | dispoff
  /-- `DISPON` (R124). -/
  | dispon
  /-- `CUROFF` (R127). -/
  | curoff
  /-- `CURON` (R126). -/
  | curon
  /-- `BLNKOFF` (R129). -/
  | blnkoff
  /-- `BLNKON` (R128). -/
  | blnkon
  /-- `SCRL` (R130). -/
  | scrl
  /-- `SCRR` (R131). -/
  | scrr
  /-- `RTL` (R133). -/
  | rtl
  /-- `LTR` (R132). -/
  | ltr
  /-- `ASCROFF` (R135). -/
  | ascroff
  /-- `ASCRON` (R134). -/
  | ascron
  /-- `BLOFF` (R138). -/
  | bloff
  /-- `BLON` (R137). -/
  | blon
  /-- `MKCHAR slot, p0, ..., p7` (R139); the slot is kept at its full 8 bits (R63 b). -/
  | mkchar (slot p0 p1 p2 p3 p4 p5 p6 p7 : Byte)
  /-- `PRINT text` (40_transport.md R92). -/
  | print (text : List Byte)
  /-- `SENDCMD v` (R90). -/
  | sendcmd (v : Byte)
  /-- `SENDCHR v` (R91). -/
  | sendchr (v : Byte)
deriving DecidableEq, Repr

end Sys2Proof
end

