-- ==== Sys2Proof/WellFormed.lean ====
section
/-! DEFINITION. Which commands have an encoding (30_encoding.md R60, R63).
The widths of the operands are their types; the one check left is that "the `text` of `PRINT` cannot
contain the byte `0x00`, since that byte ends it" (R63). -/

namespace Sys2Proof

/-- Every byte of the text is non-zero (30_encoding.md R60, format `S`). -/
def textWf : List Byte → Bool
  | [] => true
  | b :: bs => b != 0#8 && textWf bs

/-- The command has an encoding (30_encoding.md R60, R63). -/
def Instr.wf : Instr → Bool
  | .init _ _ _ _ => true
  | .clear => true
  | .home => true
  | .setcursor _ _ => true
  | .dispoff => true
  | .dispon => true
  | .curoff => true
  | .curon => true
  | .blnkoff => true
  | .blnkon => true
  | .scrl => true
  | .scrr => true
  | .rtl => true
  | .ltr => true
  | .ascroff => true
  | .ascron => true
  | .bloff => true
  | .blon => true
  | .mkchar _ _ _ _ _ _ _ _ _ => true
  | .print text => textWf text
  | .sendcmd _ => true
  | .sendchr _ => true

end Sys2Proof
end

