-- ==== Sys2Proof/Decode.lean ====
section
/-! DEFINITION. Decoding the command stream (30_encoding.md R61), total on any bytes, and the encoder
written from the same formats and opcode map (R60, R64). -/

namespace Sys2Proof

/-- What decoding at the command pointer gives (30_encoding.md R61). -/
inductive Decoded where
  /-- A command. -/
  | command (i : Instr)
  /-- No byte is left: `cp = length(CMD)`, the run is finished (00_scope.md R9). -/
  | endOfStream
  /-- `IllegalEncoding(op)`: a reserved opcode, or bit 7 of `INIT`'s address byte (R65). -/
  | illegalEncoding (op : Byte)
  /-- `TruncatedCommand`: the stream ends inside the command (60_exceptions.md R172). -/
  | truncatedCommand (op : Byte)
deriving DecidableEq, Repr

/-- The bytes before the first zero byte, if there is one (R61, format `S`). -/
def textOf : List Byte → Option (List Byte)
  | [] => none
  | b :: bs => if b = 0#8 then some [] else (textOf bs).map (b :: ·)

/-- Operands of `INIT` (format `I`): truncation is checked before the reserved bit (R61, 60_exceptions.md R179). -/
def decodeInit (op : Byte) : List Byte → Decoded
  | addr :: cols :: rows :: font :: _ =>
    if addr.getLsbD 7 then .illegalEncoding op else .command (.init (addr.setWidth 7) cols rows font)
  | _ => .truncatedCommand op

/-- Operands of `SETCURSOR` (format `RC`). -/
def decodeSetcursor (op : Byte) : List Byte → Decoded
  | row :: col :: _ => .command (.setcursor row col)
  | _ => .truncatedCommand op

/-- Operands of `MKCHAR` (format `G`). -/
def decodeMkchar (op : Byte) : List Byte → Decoded
  | slot :: p0 :: p1 :: p2 :: p3 :: p4 :: p5 :: p6 :: p7 :: _ => .command (.mkchar slot p0 p1 p2 p3 p4 p5 p6 p7)
  | _ => .truncatedCommand op

/-- Operands of `PRINT` (format `S`): no terminator before the end of the stream is `TruncatedCommand`. -/
def decodePrint (op : Byte) (rest : List Byte) : Decoded :=
  match textOf rest with
  | some text => .command (.print text)
  | none => .truncatedCommand op

/-- Operand of `SENDCMD` (format `B`). -/
def decodeSendcmd (op : Byte) : List Byte → Decoded
  | v :: _ => .command (.sendcmd v)
  | _ => .truncatedCommand op

/-- Operand of `SENDCHR` (format `B`). -/
def decodeSendchr (op : Byte) : List Byte → Decoded
  | v :: _ => .command (.sendchr v)
  | _ => .truncatedCommand op

/-- Decode a command from its opcode byte and the bytes after it (opcode map R64, reserved opcodes R65). -/
def decodeAt (op : Byte) (rest : List Byte) : Decoded :=
  match op with
  | 0x01#8 => decodeInit op rest
  | 0x02#8 => .command .clear
  | 0x03#8 => .command .home
  | 0x04#8 => decodeSetcursor op rest
  | 0x10#8 => .command .dispoff
  | 0x11#8 => .command .dispon
  | 0x12#8 => .command .curoff
  | 0x13#8 => .command .curon
  | 0x14#8 => .command .blnkoff
  | 0x15#8 => .command .blnkon
  | 0x16#8 => .command .scrl
  | 0x17#8 => .command .scrr
  | 0x18#8 => .command .rtl
  | 0x19#8 => .command .ltr
  | 0x1A#8 => .command .ascroff
  | 0x1B#8 => .command .ascron
  | 0x1C#8 => .command .bloff
  | 0x1D#8 => .command .blon
  | 0x20#8 => decodeMkchar op rest
  | 0x21#8 => decodePrint op rest
  | 0x22#8 => decodeSendcmd op rest
  | 0x23#8 => decodeSendchr op rest
  | _ => .illegalEncoding op

/-- Decode the command at the head of the bytes that are left (30_encoding.md R61). -/
def decode : List Byte → Decoded
  | [] => .endOfStream
  | op :: rest => decodeAt op rest

/-- The opcode byte of a command (30_encoding.md R64). -/
def opcode : Instr → Byte
  | .init _ _ _ _ => 0x01
  | .clear => 0x02
  | .home => 0x03
  | .setcursor _ _ => 0x04
  | .dispoff => 0x10
  | .dispon => 0x11
  | .curoff => 0x12
  | .curon => 0x13
  | .blnkoff => 0x14
  | .blnkon => 0x15
  | .scrl => 0x16
  | .scrr => 0x17
  | .rtl => 0x18
  | .ltr => 0x19
  | .ascroff => 0x1A
  | .ascron => 0x1B
  | .bloff => 0x1C
  | .blon => 0x1D
  | .mkchar _ _ _ _ _ _ _ _ _ => 0x20
  | .print _ => 0x21
  | .sendcmd _ => 0x22
  | .sendchr _ => 0x23

/-- The operand bytes of a command in stream order (30_encoding.md R46, R60). -/
def operandBytes : Instr → List Byte
  | .init addr cols rows font => [addr.setWidth 8, cols, rows, font]
  | .clear => []
  | .home => []
  | .setcursor row col => [row, col]
  | .dispoff => []
  | .dispon => []
  | .curoff => []
  | .curon => []
  | .blnkoff => []
  | .blnkon => []
  | .scrl => []
  | .scrr => []
  | .rtl => []
  | .ltr => []
  | .ascroff => []
  | .ascron => []
  | .bloff => []
  | .blon => []
  | .mkchar slot p0 p1 p2 p3 p4 p5 p6 p7 => [slot, p0, p1, p2, p3, p4, p5, p6, p7]
  | .print text => text ++ [0x00]
  | .sendcmd v => [v]
  | .sendchr v => [v]

/-- The bytes of a well-formed command (30_encoding.md R60, R64). -/
def encode (i : Instr) : List Byte := opcode i :: operandBytes i

/-- The length in bytes of a command's format (30_encoding.md R60). -/
def lengthOf : Instr → Nat
  | .init _ _ _ _ => 5
  | .clear => 1
  | .home => 1
  | .setcursor _ _ => 3
  | .dispoff => 1
  | .dispon => 1
  | .curoff => 1
  | .curon => 1
  | .blnkoff => 1
  | .blnkon => 1
  | .scrl => 1
  | .scrr => 1
  | .rtl => 1
  | .ltr => 1
  | .ascroff => 1
  | .ascron => 1
  | .bloff => 1
  | .blon => 1
  | .mkchar _ _ _ _ _ _ _ _ _ => 10
  | .print text => text.length + 2
  | .sendcmd _ => 2
  | .sendchr _ => 2

/-- The stream of a program: "the concatenation of the commands' bytes in line order" (30_encoding.md R66). -/
def encodeProgram : List Instr → List Byte
  | [] => []
  | i :: is => encode i ++ encodeProgram is

/-- The lowest `n` bytes of `w`, the least significant first: how the opcode table numbers bits,
laid out in stream order. -/
def leBytes : Nat → Nat → List Byte
  | 0, _ => []
  | n + 1, w => BitVec.ofNat 8 w :: leBytes n (w / 256)

/-- The bytes of a table word of `nbits` bits, and zero bytes after it up to the longest fixed format
(ten bytes, which is also a terminator for `PRINT`). -/
def tableBytes (nbits w : Nat) : List Byte :=
  leBytes (nbits / 8) w ++ List.replicate 10 0x00

/-- The command the decoder reads from a word numbered as spec/opcode_table.json numbers it. -/
def decodeTableWord (nbits w : Nat) : Option Instr :=
  match decode (tableBytes nbits w) with
  | .command i => some i
  | .endOfStream => none
  | .illegalEncoding _ => none
  | .truncatedCommand _ => none

end Sys2Proof
end

