-- ==== Sys2Proof/Config.lean ====
section
/-! DEFINITION. The parameters of the block as types (00_scope.md R7, R8; 43_timing_validator.md R150).
Their default values, the floors and the well-formedness check stand in Machine/Params.lean. -/

namespace Sys2Proof

/-- The nine delay sites, in the order of their numbers 1 to 9 (43_timing_validator.md R150). -/
inductive Site where
  | sPwr | sRst | sI1 | sI2 | sI3 | sEn | sSettle | sClr | sHome
deriving DecidableEq, Repr

/-- What `MKCHAR` does with a slot above 7 (00_scope.md R7, 92_eei_decisions.md D16). -/
inductive SlotPolicy where
  | mask | reject
deriving DecidableEq, Repr

/-- The constants table `K` (00_scope.md R8), one field per row, in the table's order. -/
structure Constants where
  backlightOn : Byte
  backlightOff : Byte
  /-- `REGISTER_SELECT`, the mode bit of a data write. -/
  registerSelect : Byte
  /-- `EN`, the strobe bit. -/
  en : Byte
  /-- `RW`, the read/write select line; no rule sets it. -/
  rwLine : Byte
  initForce8 : Byte
  initSet4 : Byte
  resetByte : Byte
  rowOff0 : Byte
  rowOff1 : Byte
  rowOff2 : Byte
  rowOff3 : Byte
  clearDisplay : Byte
  returnHome : Byte
  entryModeSet : Byte
  displayControl : Byte
  cursorShift : Byte
  functionSet : Byte
  setCgramAddr : Byte
  setDdramAddr : Byte
  entryLeft : Byte
  autoscroll : Byte
  displayOn : Byte
  cursorOn : Byte
  blinkOn : Byte
  displayMove : Byte
  moveRight : Byte
  moveLeft : Byte
  mode8 : Byte
  mode4 : Byte
  line2 : Byte
  line1 : Byte
  dots10 : Byte
  dots8 : Byte
deriving DecidableEq, Repr

/-- The delay table `DLY`: microseconds requested at each site (00_scope.md R7, 43_timing_validator.md R152). -/
structure DelayTable where
  pwr : Nat
  rst : Nat
  i1 : Nat
  i2 : Nat
  i3 : Nat
  en : Nat
  settle : Nat
  clr : Nat
  home : Nat
deriving DecidableEq, Repr

/-- The configuration of a run: `K`, `DLY`, `SLOT_POLICY` (00_scope.md R7).
R10 calls them parameters of the step relation; the model holds them beside the state and no step
changes them (assumption log 3). -/
structure Config where
  k : Constants
  dly : DelayTable
  slotPolicy : SlotPolicy
deriving DecidableEq, Repr

end Sys2Proof
end

