-- ==== Sys2Proof/Machine/Params.lean ====
section
/-! DEFINITION. The values of the parameters: the default constants table and its well-formedness
(00_scope.md R8), the floors and the site numbers (43_timing_validator.md R150, R151), the default
delay table (00_scope.md R7). -/

namespace Sys2Proof.Machine

/-- The defaults of `K` (00_scope.md R8).
PRESUMED where R8 says `GK` (93_implementation_defined.md G1 to G3); assumption log 3. -/
def defaultConstants : Constants :=
  { backlightOn := 0x08, backlightOff := 0x00, registerSelect := 0x01, en := 0x04, rwLine := 0x02,
    initForce8 := 0x30, initSet4 := 0x20, resetByte := 0x00,
    rowOff0 := 0x00, rowOff1 := 0x40, rowOff2 := 0x14, rowOff3 := 0x54,
    clearDisplay := 0x01, returnHome := 0x02, entryModeSet := 0x04, displayControl := 0x08,
    cursorShift := 0x10, functionSet := 0x20, setCgramAddr := 0x40, setDdramAddr := 0x80,
    entryLeft := 0x02, autoscroll := 0x01, displayOn := 0x04, cursorOn := 0x02, blinkOn := 0x01,
    displayMove := 0x08, moveRight := 0x04, moveLeft := 0x00, mode8 := 0x10, mode4 := 0x00,
    line2 := 0x08, line1 := 0x00, dots10 := 0x04, dots8 := 0x00 }

/-- The byte is a single bit. -/
def singleBit (b : Byte) : Bool := b != 0 && b &&& (b - 1) == 0

/-- No byte stands twice in the list. -/
def allDifferent : List Byte → Bool
  | [] => true
  | b :: bs => !bs.contains b && allDifferent bs

/-- The four line constants: "four different single bits of the low nibble" (00_scope.md R8). -/
def lineBits (k : Constants) : List Byte := [k.en, k.rwLine, k.registerSelect, k.backlightOn]

/-- The eight command bases (00_scope.md R8). -/
def commandBases (k : Constants) : List Byte :=
  [k.clearDisplay, k.returnHome, k.entryModeSet, k.displayControl, k.cursorShift, k.functionSet,
    k.setCgramAddr, k.setDdramAddr]

/-- "A configuration `K` is well-formed when ..." (00_scope.md R8), clause by clause. -/
def constantsWf (k : Constants) : Bool :=
  (lineBits k).all (fun b => singleBit b && b &&& 0xF0 == 0) && allDifferent (lineBits k)
    && k.backlightOff == 0
    && (commandBases k).all singleBit && allDifferent (commandBases k)
    && (k.entryLeft ||| k.autoscroll).ult k.entryModeSet
    && (k.displayOn ||| k.cursorOn ||| k.blinkOn).ult k.displayControl
    && (k.displayMove ||| k.moveRight).ult k.cursorShift
    && (k.mode8 ||| k.line2 ||| k.dots10).ult k.functionSet
    && k.moveLeft == 0 && k.mode4 == 0 && k.line1 == 0 && k.dots8 == 0
    && k.initForce8 == k.functionSet ||| k.mode8 && k.initSet4 == k.functionSet ||| k.mode4
    && [k.rowOff0, k.rowOff1, k.rowOff2, k.rowOff3].all (fun r => r.ult 0x80)

/-- The number of a site, the value `TV_SITE` takes (43_timing_validator.md R150). -/
def siteNumber : Site → Code
  | .sPwr => 1
  | .sRst => 2
  | .sI1 => 3
  | .sI2 => 4
  | .sI3 => 5
  | .sEn => 6
  | .sSettle => 7
  | .sClr => 8
  | .sHome => 9

/-- `FLOOR[s]` in microseconds (43_timing_validator.md R151). -/
def floorOf : Site → Nat
  | .sPwr => 100000
  | .sRst => 1000000
  | .sI1 => 4500
  | .sI2 => 4500
  | .sI3 => 150
  | .sEn => 2
  | .sSettle => 50
  | .sClr => 2000
  | .sHome => 2000

/-- `DLY[s]` (43_timing_validator.md R152). -/
def delayOf (t : DelayTable) : Site → Nat
  | .sPwr => t.pwr
  | .sRst => t.rst
  | .sI1 => t.i1
  | .sI2 => t.i2
  | .sI3 => t.i3
  | .sEn => t.en
  | .sSettle => t.settle
  | .sClr => t.clr
  | .sHome => t.home

/-- The default delay table, `DLY[s] = FLOOR[s]` (00_scope.md R7). -/
def defaultDelays : DelayTable :=
  { pwr := floorOf .sPwr, rst := floorOf .sRst, i1 := floorOf .sI1, i2 := floorOf .sI2, i3 := floorOf .sI3,
    en := floorOf .sEn, settle := floorOf .sSettle, clr := floorOf .sClr, home := floorOf .sHome }

/-- The configuration with every parameter at its default (00_scope.md R7). -/
def defaultConfig : Config :=
  { k := defaultConstants, dly := defaultDelays, slotPolicy := .mask }

end Sys2Proof.Machine
end

