-- ==== Sys2Proof/Machine/Flags.lean ====
section
/-! DEFINITION. Flag composition: setting and clearing a flag (42_display_control.md R136), the function
flags (41_init.md R102) and the controller command bytes `base | flags` (30_encoding.md R68). -/

namespace Sys2Proof.Machine

/-- `REG | bit`, "OR ... in place" (42_display_control.md R136). -/
def setFlag (bit reg : Byte) : Byte := reg ||| bit

/-- `REG & ~bit`, "AND-NOT in place" (42_display_control.md R136). -/
def clearFlag (bit reg : Byte) : Byte := reg &&& ~~~bit

/-- `resolve(rows, font)` (41_init.md R102). -/
def resolve (k : Constants) (rows font : Byte) : Byte :=
  k.mode4 ||| (if (1 : Byte).ult rows then k.line2 else k.line1)
    ||| (if font ≠ 0 ∧ rows = 1 then k.dots10 else k.dots8)

/-- `FUNCTIONSET | FUNC` (30_encoding.md R68). -/
def functionSetByte (k : Constants) (func : Byte) : Byte := k.functionSet ||| func

/-- `DISPLAYCONTROL | CTRL'` (30_encoding.md R68). -/
def displayControlByte (k : Constants) (ctrl : Byte) : Byte := k.displayControl ||| ctrl

/-- `ENTRYMODESET | MODE'` (30_encoding.md R68). -/
def entryModeByte (k : Constants) (mode : Byte) : Byte := k.entryModeSet ||| mode

/-- `CURSORSHIFT | DISPLAYMOVE | direction` (30_encoding.md R68). -/
def scrollByte (k : Constants) (direction : Byte) : Byte := k.cursorShift ||| k.displayMove ||| direction

/-- `SETDDRAMADDR | a` (30_encoding.md R68). -/
def ddramByte (k : Constants) (a : Byte) : Byte := k.setDdramAddr ||| a

/-- `SETCGRAMADDR | ((slot & 0x7) << 3)` (30_encoding.md R68). -/
def cgramByte (k : Constants) (a : Byte) : Byte := k.setCgramAddr ||| a

end Sys2Proof.Machine
end

