-- ==== Sys2Proof/Machine/Operands.lean ====
section
/-! DEFINITION. How operands become the values a command works on: the nibbles of a byte
(40_transport.md R83, R94), the DDRAM and CGRAM addresses (20_memory.md R42), the row bound and the
glyph slot (42_display_control.md R122, R139, R141). -/

namespace Sys2Proof.Machine

/-- The high nibble in bits 7:4 (40_transport.md R83). -/
def hiNibble (v : Byte) : Byte := v &&& 0xF0

/-- The low nibble "shifted left 4 bits" into bits 7:4 (40_transport.md R83). -/
def loNibble (v : Byte) : Byte := (v <<< 4) &&& 0xF0

/-- `ROWOFF[row]` for the rows 0 to 3; there is no entry from 4 on (00_scope.md R8, 42_display_control.md R122). -/
def rowOffset (k : Constants) (row : Byte) : Option Byte :=
  if row = 0 then some k.rowOff0
  else if row = 1 then some k.rowOff1
  else if row = 2 then some k.rowOff2
  else if row = 3 then some k.rowOff3
  else none

/-- `row >= ROWS`, unsigned (42_display_control.md R122, R141). -/
def rowBeyond (row rows : Byte) : Bool := rows.ule row

/-- The DDRAM address byte `(col + ROWOFF[row]) mod 256` (42_display_control.md R122). -/
def ddramAddress (offset col : Byte) : Byte := col + offset

/-- `slot > 7`, unsigned (42_display_control.md R139, R141). -/
def slotBeyond (slot : Byte) : Bool := (7 : Byte).ult slot

/-- The CGRAM address `(slot & 0x7) << 3` of a glyph slot (20_memory.md R42, 42_display_control.md R139). -/
def cgramAddress (slot : Byte) : Byte := (slot &&& 0x07) <<< 3

end Sys2Proof.Machine
end

