-- ==== Sys2Proof/Machine/State.lean ====
section
/-! DEFINITION. The state of the block: every register of 10_state.md, the trace, the parameters of the
run and the environment's answers, as plain data; and the state after reset (10_state.md R28). -/

namespace Sys2Proof.Machine

/-- An event of `TRACE` (10_state.md R25). -/
inductive Event where
  /-- `W(a, b)`: a bus write of `b` to address `a`, answered `success`. -/
  | w (a : BusAddr) (b : Byte)
  /-- `WF(a, b)`: a bus write answered `failure`. -/
  | wf (a : BusAddr) (b : Byte)
  /-- `D(s, d)`: a delay of `d` microseconds requested at site `s`. -/
  | d (s : Site) (us : Nat)
deriving DecidableEq, Repr

/-- The sink's answer to one bus write (20_memory.md R44). -/
inductive SinkAnswer where
  | success | failure
deriving DecidableEq, Repr

/-- The answers the environment will give: the scripted ones in order, then `rest` for ever.
The answers are "a free draw of the environment under no law" (R44); every pattern of answers to
finitely many writes is such a script (assumption log 4). -/
structure Sink where
  script : List SinkAnswer
  rest : SinkAnswer
deriving DecidableEq, Repr

/-- The faults of the block with their info (60_exceptions.md R170). -/
inductive SeqFault where
  /-- Code 1, with the byte. -/
  | busTransportFailure (b : Byte)
  /-- Code 2, with the row. -/
  | invalidRowIndex (row : Byte)
  /-- Code 3, with the slot. -/
  | invalidSlotIndex (slot : Byte)
  /-- Code 4, with the opcode. -/
  | notInitialized (op : Byte)
  /-- Code 5, with the opcode. -/
  | illegalEncoding (op : Byte)
  /-- Code 6, with the opcode. -/
  | truncatedCommand (op : Byte)
  /-- Code 7, with the site. -/
  | timingViolation (s : Site)
deriving DecidableEq, Repr

/-- The registers a rule reads that can hold no value (10_state.md R11 to R16). -/
inductive Reg where
  | addr | rows | bl | func | ctrl | mode
deriving DecidableEq, Repr

/-- Why the model itself stops in a step. -/
inductive Fault where
  /-- `UnwrittenRegister` (10_state.md R12): a rule read a register that holds no value.
  Raised by `readReg`; reachable by no run (R12); safe. -/
  | unwrittenRegister (r : Reg)
deriving DecidableEq, Repr

/-- Why the model gives no step. -/
inductive Refusal where
  /-- A command whose meaning is not written; raised by an arm of `exec`; safe. -/
  | notModelled (mnemonic : String)
  /-- "A model refuses a configuration that is not well-formed" (00_scope.md R8).
  Raised by `step`, for no command in particular; safe. -/
  | illFormedConstants
deriving DecidableEq, Repr

/-- The state. The fields stand in the order of 10_state.md; the last five are the parameters of the
run (00_scope.md R7) and the model's own fields. -/
structure State where
  /-- `ADDR` (R11). -/
  addr : Option BusAddr
  /-- `COLS` (R11). -/
  cols : Option Byte
  /-- `ROWS` (R11). -/
  rows : Option Byte
  /-- `CROW` (R11). -/
  crow : Option Byte
  /-- `CCOL` (R11). -/
  ccol : Option Byte
  /-- `BL` (R13). -/
  bl : Option Byte
  /-- `FUNC` (R14). -/
  func : Option Byte
  /-- `CTRL` (R15). -/
  ctrl : Option Byte
  /-- `MODE` (R16). -/
  mode : Option Byte
  /-- `cp`, the command pointer (R18). -/
  cp : Nat
  /-- `INITED` (R19). -/
  inited : Bool
  /-- `HALT` (R20). -/
  halt : Bool
  /-- `FAULT` (R21). -/
  faultCode : Code
  /-- `FCP` (R22). -/
  fcp : Option Nat
  /-- `TV_VIOL` (R23). -/
  tvViol : Bool
  /-- `TV_SITE` (R23). -/
  tvSite : Option Code
  /-- `PORT` (R24). -/
  port : Option Byte
  /-- `TRACE` (R25). -/
  trace : List Event
  /-- `CMD`, the command stream (20_memory.md R40); no step writes it. -/
  cmd : List Byte
  /-- `K`, `DLY`, `SLOT_POLICY` (00_scope.md R7); no step writes them. -/
  cfg : Config
  /-- MODEL's own: the environment's answers still to come (20_memory.md R44). -/
  sink : Sink
  /-- MODEL's own: "the model's fault value", the fault taken with its info (60_exceptions.md R170). -/
  faultValue : Option SeqFault
deriving DecidableEq, Repr

/-- The reset state (10_state.md R28, 70_reset_and_hazards.md R200), with no command stream loaded.
DESIGN CHOICE for the parameters and the model's own fields: the empty stream (assumption log 2), the
default configuration (3), a sink that answers `success` (4), no fault value (5). -/
def State.reset : State :=
  { addr := none, cols := none, rows := none, crow := none, ccol := none,
    bl := none, func := none, ctrl := none, mode := none,
    cp := 0, inited := false, halt := false, faultCode := 0, fcp := none,
    tvViol := false, tvSite := none, port := none, trace := [],
    cmd := [], cfg := defaultConfig, sink := { script := [], rest := .success }, faultValue := none }

end Sys2Proof.Machine
end

