-- ==== Sys2Proof/Machine/Ops.lean ====
section
/-! DEFINITION. The named operations: the register writes, the bus and delay primitives, the timing
validator, the micro-operations of 40_transport.md and 42_display_control.md, and taking a fault
(60_exceptions.md R176). -/

namespace Sys2Proof.Machine

/-! ### Register writes -/

/-- `CTRL <- v` (10_state.md R15). -/
def State.putCtrl (v : Byte) (s : State) : State := { s with ctrl := some v }

/-- `MODE <- v` (10_state.md R16). -/
def State.putMode (v : Byte) (s : State) : State := { s with mode := some v }

/-- `BL <- v` (10_state.md R13). -/
def State.putBl (v : Byte) (s : State) : State := { s with bl := some v }

/-- `CROW <- row ; CCOL <- col` (42_display_control.md R122). -/
def State.putCursor (row col : Byte) (s : State) : State := { s with crow := some row, ccol := some col }

/-- `INITED <- 1` (41_init.md R112). -/
def State.putInited (s : State) : State := { s with inited := true }

/-- `cp <- cp + n` (10_state.md R18). -/
def State.advance (n : Nat) (s : State) : State := { s with cp := s.cp + n }

/-- `TRACE <- TRACE ++ [e]` (10_state.md R25). -/
def State.record (e : Event) (s : State) : State := { s with trace := s.trace ++ [e] }

/-- The start of `INIT`, before any event (41_init.md R101). -/
def State.initStart (addr : BusAddr) (cols rows font : Byte) (s : State) : State :=
  { s with inited := false, addr := some addr, cols := some cols, rows := some rows,
           bl := some s.cfg.k.backlightOff, func := some (resolve s.cfg.k rows font) }

/-! ### Taking a fault -/

/-- The code of a fault (60_exceptions.md R170). -/
def SeqFault.code : SeqFault → Code
  | .busTransportFailure _ => 1
  | .invalidRowIndex _ => 2
  | .invalidSlotIndex _ => 3
  | .notInitialized _ => 4
  | .illegalEncoding _ => 5
  | .truncatedCommand _ => 6
  | .timingViolation _ => 7

/-- Fault entry (60_exceptions.md R176): `HALT <- 1 ; FAULT <- code ; FCP <- cp`, `cp` not advanced.
The info goes to the model's own `faultValue` (R170, assumption log 5).
There is no return from a fault but the reset (R181): `State.hardwareReset`. -/
def State.takeFault (f : SeqFault) (s : State) : State :=
  { s with halt := true, faultCode := f.code, fcp := some s.cp, faultValue := some f }

/-- `TV_VIOL <- 1 ; TV_SITE <- number of s` (43_timing_validator.md R153). -/
def State.recordViolation (site : Site) (s : State) : State :=
  { s with tvViol := true, tvSite := some (siteNumber site) }

/-- The hardware reset (70_reset_and_hazards.md R200): every register at its reset value, no event.
The parameters and the environment are the host's and stay (R203). It is applied between runs. -/
def State.hardwareReset (s : State) : State :=
  { State.reset with cmd := s.cmd, cfg := s.cfg, sink := s.sink }

/-- A launch (70_reset_and_hazards.md R203): the reset state with the host's command stream and
configuration and the environment's answers. -/
def State.launch (cfg : Config) (cmd : List Byte) (sink : Sink) : State :=
  { State.reset with cmd := cmd, cfg := cfg, sink := sink }

/-! ### How a micro-operation ends -/

/-- The end of a micro-operation: it returns, it raises a fault of the block (60_exceptions.md R170),
or the model stops because a register held no value (10_state.md R12). -/
inductive Micro where
  | done (s : State)
  | raised (f : SeqFault) (s : State)
  | stuck (r : Fault)
deriving DecidableEq, Repr

/-- One statement after another: nothing after a raise runs (00_scope.md R6). -/
def Micro.andThen : Micro → (State → Micro) → Micro
  | .done s, next => next s
  | .raised f s, _ => .raised f s
  | .stuck r, _ => .stuck r

/-- The statements of a procedure in order (00_scope.md R6, 20_memory.md R50). -/
def runSeq : List (State → Micro) → State → Micro
  | [], s => .done s
  | op :: ops, s => (op s).andThen (runSeq ops)

/-- A statement that only writes registers. -/
def commit (f : State → State) (s : State) : Micro := .done (f s)

/-- A register read: a register that holds no value stops the model (10_state.md R12). -/
def readReg {α : Type} (r : Reg) (v : Option α) (k : α → Micro) : Micro :=
  match v with
  | some x => k x
  | none => .stuck (.unwrittenRegister r)

/-! ### The bus port -/

/-- The environment's answer to the next bus write (20_memory.md R44). -/
def Sink.answer (k : Sink) : SinkAnswer :=
  match k.script with
  | [] => k.rest
  | a :: _ => a

/-- The environment after `n` bus writes. -/
def Sink.after (k : Sink) (n : Nat) : Sink := { k with script := k.script.drop n }

/-- `BusWrite(a, b)` (20_memory.md R44): the answer and the state after it. -/
def busWrite (a : BusAddr) (b : Byte) (s : State) : SinkAnswer × State :=
  match s.sink.answer with
  | .success =>
    (.success, { s.record (.w a b) with port := some b, sink := s.sink.after 1 })
  | .failure =>
    (.failure, { s.record (.wf a b) with port := none, sink := s.sink.after 1 })

/-- `if BusWrite(a, b) = failure: raise BusTransportFailure(b)` (40_transport.md R80, 60_exceptions.md R177). -/
def busSend (a : BusAddr) (b : Byte) (s : State) : Micro :=
  match busWrite a b s with
  | (.success, t) => .done t
  | (.failure, t) => .raised (.busTransportFailure b) t

/-- `transmit(v)`: one bus write with the backlight bit ORed in (40_transport.md R80). -/
def transmit (v : Byte) (s : State) : Micro :=
  readReg .bl s.bl fun bl => readReg .addr s.addr fun a => busSend a (v ||| bl) s

/-! ### The delay port and the timing validator -/

/-- `Delay(s)`: record the request, then the validator's check (43_timing_validator.md R152, R153). -/
def delay (site : Site) (s : State) : Micro :=
  if delayOf s.cfg.dly site < floorOf site then
    .raised (.timingViolation site) ((s.record (.d site (delayOf s.cfg.dly site))).recordViolation site)
  else .done (s.record (.d site (delayOf s.cfg.dly site)))

/-! ### Nibble transport -/

/-- `writeNibble(v)` (40_transport.md R82). -/
def writeNibble (v : Byte) (s : State) : Micro :=
  runSeq [transmit (v ||| s.cfg.k.en), delay .sEn, transmit (v &&& ~~~s.cfg.k.en), delay .sSettle] s

/-- `writeByte(v, m)`: high nibble first (40_transport.md R83, 20_memory.md R45). -/
def writeByte (v m : Byte) (s : State) : Micro :=
  runSeq [writeNibble (hiNibble v ||| m), writeNibble (loNibble v ||| m)] s

/-- `sendCommand(c)` (40_transport.md R85). -/
def sendCommand (c : Byte) (s : State) : Micro := writeByte c 0 s

/-- `sendCharacter(c)` (40_transport.md R86). -/
def sendCharacter (c : Byte) (s : State) : Micro := writeByte c s.cfg.k.registerSelect s

/-! ### The procedures that `INIT` shares with other commands -/

/-- `setCursorOp(row, col)`: the row check first, the registers after the send (42_display_control.md R122).
The bound is `min(4, ROWS)` (90_conflicts.md C4). -/
def setCursorOp (row col : Byte) (s : State) : Micro :=
  readReg .rows s.rows fun rows =>
    match rowOffset s.cfg.k row with
    | none => .raised (.invalidRowIndex row) s
    | some offset =>
      if rowBeyond row rows then .raised (.invalidRowIndex row) s
      else runSeq [sendCommand (ddramByte s.cfg.k (ddramAddress offset col)), commit (State.putCursor row col)] s

/-- `clearOp()` (42_display_control.md R120). -/
def clearOp (s : State) : Micro :=
  runSeq [sendCommand s.cfg.k.clearDisplay, delay .sClr, setCursorOp 0 0] s

/-- `homeOp()` (42_display_control.md R121). -/
def homeOp (s : State) : Micro :=
  runSeq [sendCommand s.cfg.k.returnHome, delay .sHome] s

/-- A toggle of `CTRL` (42_display_control.md R136): compute, send the whole register, then commit. -/
def toggleCtrl (change : Byte → Byte) (s : State) : Micro :=
  readReg .ctrl s.ctrl fun old =>
    runSeq [sendCommand (displayControlByte s.cfg.k (change old)), commit (State.putCtrl (change old))] s

/-- A toggle of `MODE` (42_display_control.md R136). -/
def toggleMode (change : Byte → Byte) (s : State) : Micro :=
  readReg .mode s.mode fun old =>
    runSeq [sendCommand (entryModeByte s.cfg.k (change old)), commit (State.putMode (change old))] s

/-- A backlight command (42_display_control.md R137, R138): one raw write of `0 | new`, then `BL <- new`. -/
def setBacklight (new : Byte) (s : State) : Micro :=
  readReg .addr s.addr fun a => runSeq [busSend a (0x00 ||| new), commit (State.putBl new)] s

/-! ### How a command ends -/

/-- The end of a command (30_encoding.md R62): it completes and `cp` moves past it, or the fault entry
runs instead. -/
def finish (len : Nat) : Micro → Host.Outcome State Fault Refusal
  | .done s => .next (s.advance len)
  | .raised f s => .next (s.takeFault f)
  | .stuck r => .fault r

/-- A command that needs a session: the `INITED` check stands before everything else
(60_exceptions.md R173, R179). -/
def sessionCommand (i : Instr) (body : State → Micro) (s : State) : Host.Outcome State Fault Refusal :=
  if s.inited then finish (lengthOf i) (body s) else .next (s.takeFault (.notInitialized (opcode i)))

/-! ### Fetch and sequencing -/

/-- `CmdRead(i)`: byte `i` of the command stream; past its end there is none (20_memory.md R40). -/
def State.cmdRead (s : State) (i : Nat) : Option Byte := s.cmd[i]?

/-- Decode at `cp` (30_encoding.md R61): a pure function of `CMD` and `cp`. -/
def fetch (s : State) : Decoded := decode (s.cmd.drop s.cp)

/-- A table `K` that is not well-formed is refused (00_scope.md R8). -/
def configured (s : State) (next : Host.Outcome State Fault Refusal) : Host.Outcome State Fault Refusal :=
  if constantsWf s.cfg.k then next else .refused .illFormedConstants

/-- One step of the sequencer around the meaning of a command (30_encoding.md R61, R62).
A halted block fetches nothing (10_state.md R20) and a finished one has nothing to fetch (00_scope.md R9): both
stay as they are (assumption log 6). -/
def sequencer (run : Instr → State → Host.Outcome State Fault Refusal) (s : State) :
    Host.Outcome State Fault Refusal :=
  if s.halt then configured s (.next s)
  else
    configured s <|
      match fetch s with
      | .command i => run i s
      | .endOfStream => .next s
      | .illegalEncoding op => .next (s.takeFault (.illegalEncoding op))
      | .truncatedCommand op => .next (s.takeFault (.truncatedCommand op))

/-- The stream with the given bytes written over what stood at the command pointer (and zero bytes before
them where the stream was shorter), and the halt bit clear so that the block fetches (assumption log 7). -/
def State.placeBytes (s : State) (bytes : List Byte) : State :=
  { s with cmd := s.cmd.take s.cp ++ List.replicate (s.cp - s.cmd.length) 0x00 ++ bytes
                    ++ s.cmd.drop (s.cp + bytes.length),
           halt := false }

end Sys2Proof.Machine
end

