-- ==== Sys2Proof/Machine/Display.lean ====
section
/-! DEFINITION. Clear, home, cursor, scroll, backlight and glyph commands (42_display_control.md). -/

namespace Sys2Proof.Machine

/-- `CLEAR` (42_display_control.md R120). -/
def execClear (s : State) : Host.Outcome State Fault Refusal :=
  sessionCommand .clear clearOp s

/-- `HOME` (42_display_control.md R121). -/
def execHome (s : State) : Host.Outcome State Fault Refusal :=
  sessionCommand .home homeOp s

/-- `SETCURSOR row, col` (42_display_control.md R123). -/
def execSetcursor (row col : Byte) (s : State) : Host.Outcome State Fault Refusal :=
  sessionCommand (.setcursor row col) (setCursorOp row col) s

/-- `SCRL` (42_display_control.md R130). -/
def execScrl (s : State) : Host.Outcome State Fault Refusal :=
  sessionCommand .scrl (sendCommand (scrollByte s.cfg.k s.cfg.k.moveLeft)) s

/-- `SCRR` (42_display_control.md R131). -/
def execScrr (s : State) : Host.Outcome State Fault Refusal :=
  sessionCommand .scrr (sendCommand (scrollByte s.cfg.k s.cfg.k.moveRight)) s

/-- `BLON` (42_display_control.md R137). -/
def execBlon (s : State) : Host.Outcome State Fault Refusal :=
  sessionCommand .blon (setBacklight s.cfg.k.backlightOn) s

/-- `BLOFF` (42_display_control.md R138). -/
def execBloff (s : State) : Host.Outcome State Fault Refusal :=
  sessionCommand .bloff (setBacklight s.cfg.k.backlightOff) s

/-- `InvalidSlotIndex` under `SLOT_POLICY = reject` (42_display_control.md R139, 60_exceptions.md R175). -/
def checkSlot (slot : Byte) (s : State) : Micro :=
  if s.cfg.slotPolicy = .reject ∧ slotBeyond slot = true then .raised (.invalidSlotIndex slot) s else .done s

/-- `MKCHAR slot, p0, ..., p7` (42_display_control.md R139): the slot check, one command, eight characters. -/
def execMkchar (slot p0 p1 p2 p3 p4 p5 p6 p7 : Byte) (s : State) : Host.Outcome State Fault Refusal :=
  sessionCommand (.mkchar slot p0 p1 p2 p3 p4 p5 p6 p7)
    (runSeq (checkSlot slot :: sendCommand (cgramByte s.cfg.k (cgramAddress slot))
      :: [p0, p1, p2, p3, p4, p5, p6, p7].map sendCharacter)) s

end Sys2Proof.Machine
end

