-- ==== Sys2Proof/Machine/Init.lean ====
section
/-! DEFINITION. The initialization sequence (41_init.md R100 to R112). -/

namespace Sys2Proof.Machine

/-- Steps 1 to 4: the power-up wait, the reset byte and the interface-width recovery
(41_init.md R103 to R106; the waits of step 3 by 90_conflicts.md C1). -/
def initRecovery (s : State) : Micro :=
  runSeq [delay .sPwr,
    transmit s.cfg.k.resetByte, delay .sRst,
    transmit s.cfg.k.initForce8, delay .sI1,
    writeNibble s.cfg.k.initForce8, delay .sI2,
    writeNibble s.cfg.k.initForce8, delay .sI3,
    writeNibble s.cfg.k.initSet4] s

/-- Step 5: `sendCommand(FUNCTIONSET | FUNC)` (41_init.md R107). -/
def initFunctionSet (s : State) : Micro :=
  readReg .func s.func fun func => sendCommand (functionSetByte s.cfg.k func) s

/-- The steps of `INIT` after its start (41_init.md R100): steps 1 to 4 (R103 to R106), 5 (R107), 6 (R108),
7 (R109), 8 (R110), 9 (R111) and the finish (R112). `CTRL` and `MODE` are written after their sends. -/
def initSteps (s : State) : Micro :=
  runSeq [initRecovery,
    initFunctionSet,
    sendCommand (displayControlByte s.cfg.k s.cfg.k.displayOn), commit (State.putCtrl s.cfg.k.displayOn),
    clearOp,
    sendCommand (entryModeByte s.cfg.k s.cfg.k.entryLeft), commit (State.putMode s.cfg.k.entryLeft),
    homeOp,
    commit State.putInited] s

/-- `INIT addr, cols, rows, font` (41_init.md R100): allowed whatever `INITED` is (R114). -/
def execInit (addr : BusAddr) (cols rows font : Byte) (s : State) : Host.Outcome State Fault Refusal :=
  finish (lengthOf (.init addr cols rows font)) (initSteps (s.initStart addr cols rows font))

end Sys2Proof.Machine
end

