-- ==== Sys2Proof/Machine/Toggles.lean ====
section
/-! DEFINITION. The ten flag toggles (42_display_control.md R124 to R129, R132 to R135), each the common
form of R136 with its register, flag and direction. -/

namespace Sys2Proof.Machine

/-- `DISPON` (42_display_control.md R124). -/
def execDispon (s : State) : Host.Outcome State Fault Refusal :=
  sessionCommand .dispon (toggleCtrl (setFlag s.cfg.k.displayOn)) s

/-- `DISPOFF` (42_display_control.md R125). -/
def execDispoff (s : State) : Host.Outcome State Fault Refusal :=
  sessionCommand .dispoff (toggleCtrl (clearFlag s.cfg.k.displayOn)) s

/-- `CURON` (42_display_control.md R126). -/
def execCuron (s : State) : Host.Outcome State Fault Refusal :=
  sessionCommand .curon (toggleCtrl (setFlag s.cfg.k.cursorOn)) s

/-- `CUROFF` (42_display_control.md R127). -/
def execCuroff (s : State) : Host.Outcome State Fault Refusal :=
  sessionCommand .curoff (toggleCtrl (clearFlag s.cfg.k.cursorOn)) s

/-- `BLNKON` (42_display_control.md R128). -/
def execBlnkon (s : State) : Host.Outcome State Fault Refusal :=
  sessionCommand .blnkon (toggleCtrl (setFlag s.cfg.k.blinkOn)) s

/-- `BLNKOFF` (42_display_control.md R129). -/
def execBlnkoff (s : State) : Host.Outcome State Fault Refusal :=
  sessionCommand .blnkoff (toggleCtrl (clearFlag s.cfg.k.blinkOn)) s

/-- `LTR` (42_display_control.md R132). -/
def execLtr (s : State) : Host.Outcome State Fault Refusal :=
  sessionCommand .ltr (toggleMode (setFlag s.cfg.k.entryLeft)) s

/-- `RTL` (42_display_control.md R133). -/
def execRtl (s : State) : Host.Outcome State Fault Refusal :=
  sessionCommand .rtl (toggleMode (clearFlag s.cfg.k.entryLeft)) s

/-- `ASCRON` (42_display_control.md R134). -/
def execAscron (s : State) : Host.Outcome State Fault Refusal :=
  sessionCommand .ascron (toggleMode (setFlag s.cfg.k.autoscroll)) s

/-- `ASCROFF` (42_display_control.md R135). -/
def execAscroff (s : State) : Host.Outcome State Fault Refusal :=
  sessionCommand .ascroff (toggleMode (clearFlag s.cfg.k.autoscroll)) s

end Sys2Proof.Machine
end

