-- ==== Sys2Proof/Machine/Transport.lean ====
section
/-! DEFINITION. The commands of the transport family (40_transport.md R90 to R92). -/

namespace Sys2Proof.Machine

/-- `SENDCMD v` (40_transport.md R90): the byte as it is, no shadow register written. -/
def execSendcmd (v : Byte) (s : State) : Host.Outcome State Fault Refusal :=
  sessionCommand (.sendcmd v) (sendCommand v) s

/-- `SENDCHR v` (40_transport.md R91). -/
def execSendchr (v : Byte) (s : State) : Host.Outcome State Fault Refusal :=
  sessionCommand (.sendchr v) (sendCharacter v) s

/-- `PRINT text` (40_transport.md R92): one `sendCharacter` per byte, the terminator not sent. -/
def execPrint (text : List Byte) (s : State) : Host.Outcome State Fault Refusal :=
  sessionCommand (.print text) (runSeq (text.map sendCharacter)) s

end Sys2Proof.Machine
end

