-- ==== Sys2Proof/Machine/Dispatch.lean ====
section
/-! DEFINITION. The meaning of each command, one arm per row of the opcode map (30_encoding.md R64). -/

namespace Sys2Proof.Machine

def exec (i : Instr) (s : State) : Host.Outcome State Fault Refusal :=
  match i with
  | .init addr cols rows font => Sys2Proof.Machine.execInit addr cols rows font s
  | .clear => Sys2Proof.Machine.execClear s
  | .home => Sys2Proof.Machine.execHome s
  | .setcursor row col => Sys2Proof.Machine.execSetcursor row col s
  | .dispoff => Sys2Proof.Machine.execDispoff s
  | .dispon => Sys2Proof.Machine.execDispon s
  | .curoff => Sys2Proof.Machine.execCuroff s
  | .curon => Sys2Proof.Machine.execCuron s
  | .blnkoff => Sys2Proof.Machine.execBlnkoff s
  | .blnkon => Sys2Proof.Machine.execBlnkon s
  | .scrl => Sys2Proof.Machine.execScrl s
  | .scrr => Sys2Proof.Machine.execScrr s
  | .rtl => Sys2Proof.Machine.execRtl s
  | .ltr => Sys2Proof.Machine.execLtr s
  | .ascroff => Sys2Proof.Machine.execAscroff s
  | .ascron => Sys2Proof.Machine.execAscron s
  | .bloff => Sys2Proof.Machine.execBloff s
  | .blon => Sys2Proof.Machine.execBlon s
  | .mkchar slot p0 p1 p2 p3 p4 p5 p6 p7 => Sys2Proof.Machine.execMkchar slot p0 p1 p2 p3 p4 p5 p6 p7 s
  | .print text => Sys2Proof.Machine.execPrint text s
  | .sendcmd v => Sys2Proof.Machine.execSendcmd v s
  | .sendchr v => Sys2Proof.Machine.execSendchr v s

end Sys2Proof.Machine
end

