-- ==== Sys2Proof/Machine/Step.lean ====
section
/-! DEFINITION. One step of the block, and placing an instruction where the step fetches. -/

namespace Sys2Proof.Machine

/-- One step of the sequencer (30_encoding.md R62): the whole of one command. -/
def step (s : State) : Host.Outcome State Fault Refusal := sequencer exec s

/-- The state with a table word's bytes at the command pointer (assumption log 7). -/
def State.withFetchWord (s : State) (nbits w : Nat) : State := s.placeBytes (tableBytes nbits w)

end Sys2Proof.Machine
end

