-- ==== Sys2Proof/Safety.lean ====
section
/-! DEFINITION. The terms statements are written in: what a run shows (00_scope.md R9), the launch
premises (70_reset_and_hazards.md R202), the events of the transport (40_transport.md R84, 41_init.md
R113), the invariant (10_state.md R27) and the frames. -/

namespace Sys2Proof.Machine

/-! ### How a run stands -/

/-- Finished: `cp = length(CMD)` with `HALT = 0` (00_scope.md R9). -/
def State.Finished (s : State) : Prop := s.halt = false ∧ s.cp = s.cmd.length

/-- Faulted: `HALT = 1`, "never a good end" (00_scope.md R9). -/
def State.Faulted (s : State) : Prop := s.halt = true

/-- What the status interface and the trace show (00_scope.md R9, 70_reset_and_hazards.md R203). -/
structure Observation where
  trace : List Event
  addr : Option BusAddr
  cols : Option Byte
  rows : Option Byte
  crow : Option Byte
  ccol : Option Byte
  bl : Option Byte
  func : Option Byte
  ctrl : Option Byte
  mode : Option Byte
  cp : Nat
  inited : Bool
  halt : Bool
  faultCode : Code
  fcp : Option Nat
  tvViol : Bool
  tvSite : Option Code
deriving DecidableEq, Repr

/-- A status read: it changes nothing (70_reset_and_hazards.md R203, 60_exceptions.md R186). -/
def State.observe (s : State) : Observation :=
  { trace := s.trace, addr := s.addr, cols := s.cols, rows := s.rows, crow := s.crow, ccol := s.ccol,
    bl := s.bl, func := s.func, ctrl := s.ctrl, mode := s.mode, cp := s.cp, inited := s.inited,
    halt := s.halt, faultCode := s.faultCode, fcp := s.fcp, tvViol := s.tvViol, tvSite := s.tvSite }

/-! ### Premises of a claim (70_reset_and_hazards.md R202) -/

/-- P3: `DLY >= FLOOR` pointwise. -/
def State.DelaysMeetFloors (s : State) : Prop := ∀ site, floorOf site ≤ delayOf s.cfg.dly site

/-- P4: every sink answer is `success`. -/
def State.SinkClean (s : State) : Prop := s.sink.rest = .success ∧ ∀ a ∈ s.sink.script, a = .success

/-- A session is open at bus address `a` with backlight byte `bl` (10_state.md R11, R13, R19). -/
structure State.Open (s : State) (a : BusAddr) (bl : Byte) : Prop where
  inited : s.inited = true
  addr : s.addr = some a
  bl : s.bl = some bl

/-! ### Events -/

/-- The event is a bus write, answered either way. -/
def Event.isWrite : Event → Bool
  | .w _ _ => true
  | .wf _ _ => true
  | .d _ _ => false

/-- The event is one a run goes on after: a successful write, or a delay that meets its floor
(43_timing_validator.md R153, 60_exceptions.md R177). -/
def Event.accepted : Event → Prop
  | .w _ _ => True
  | .wf _ _ => False
  | .d site us => floorOf site ≤ us

/-- `PORT` after some events: the last byte a successful write delivered, no value after a failed one
(10_state.md R24). -/
def portAfter (p : Option Byte) : List Event → Option Byte
  | [] => p
  | .w _ b :: es => portAfter (some b) es
  | .wf _ _ :: es => portAfter none es
  | .d _ _ :: es => portAfter p es

/-- How many bus writes stand among the events. -/
def busWrites : List Event → Nat
  | [] => 0
  | .w _ _ :: es => busWrites es + 1
  | .wf _ _ :: es => busWrites es + 1
  | .d _ _ :: es => busWrites es

/-- The state after the events: the trace extended, `PORT` following them, one answer of the
environment used for each bus write, nothing else changed. -/
def State.emitted (s : State) (es : List Event) : State :=
  { s with trace := s.trace ++ es, port := portAfter s.port es, sink := s.sink.after (busWrites es) }

/-- The requested time of some events in microseconds (43_timing_validator.md R158). -/
def requestedTime : List Event → Nat
  | [] => 0
  | .w _ _ :: es => requestedTime es
  | .wf _ _ :: es => requestedTime es
  | .d _ us :: es => us + requestedTime es

/-- The requested time of a completed command at `DLY = FLOOR`, in microseconds (43_timing_validator.md R158). -/
def commandTime : Instr → Nat
  | .init _ _ _ _ => 1113930
  | .clear => 2208
  | .home => 2104
  | .setcursor _ _ => 104
  | .dispoff => 104
  | .dispon => 104
  | .curoff => 104
  | .curon => 104
  | .blnkoff => 104
  | .blnkon => 104
  | .scrl => 104
  | .scrr => 104
  | .rtl => 104
  | .ltr => 104
  | .ascroff => 104
  | .ascron => 104
  | .bloff => 0
  | .blon => 0
  | .mkchar _ _ _ _ _ _ _ _ _ => 936
  | .print text => 104 * text.length
  | .sendcmd _ => 104
  | .sendchr _ => 104

/-- `D(s, DLY[s])` (43_timing_validator.md R152). -/
def delayEvent (c : Config) (site : Site) : Event := .d site (delayOf c.dly site)

/-- The four events of `writeNibble(v)` (40_transport.md R82, 41_init.md R113 `n(x)`). -/
def nibbleEvents (c : Config) (a : BusAddr) (bl v : Byte) : List Event :=
  [.w a ((v ||| c.k.en) ||| bl), delayEvent c .sEn, .w a ((v &&& ~~~c.k.en) ||| bl), delayEvent c .sSettle]

/-- The eight events of `writeByte(v, m)` (40_transport.md R83). -/
def byteEvents (c : Config) (a : BusAddr) (bl v m : Byte) : List Event :=
  nibbleEvents c a bl ((v &&& 0xF0) ||| m) ++ nibbleEvents c a bl (((v <<< 4) &&& 0xF0) ||| m)

/-- The events of `sendCommand(v)` (40_transport.md R85, 41_init.md R113 `c(x)`). -/
def commandEvents (c : Config) (a : BusAddr) (bl v : Byte) : List Event := byteEvents c a bl v 0

/-- The events of `sendCharacter(v)` (40_transport.md R86). -/
def characterEvents (c : Config) (a : BusAddr) (bl v : Byte) : List Event := byteEvents c a bl v c.k.registerSelect

/-- The events of a text, one character after another (40_transport.md R92). -/
def textEvents (c : Config) (a : BusAddr) (bl : Byte) : List Byte → List Event
  | [] => []
  | b :: bs => characterEvents c a bl b ++ textEvents c a bl bs

/-- The events of `clearOp()` (42_display_control.md R120). -/
def clearEvents (c : Config) (a : BusAddr) (bl : Byte) : List Event :=
  commandEvents c a bl c.k.clearDisplay ++ [delayEvent c .sClr]
    ++ commandEvents c a bl (c.k.setDdramAddr ||| c.k.rowOff0)

/-- The events of `homeOp()` (42_display_control.md R121). -/
def homeEvents (c : Config) (a : BusAddr) (bl : Byte) : List Event :=
  commandEvents c a bl c.k.returnHome ++ [delayEvent c .sHome]

/-- The events of `INIT` before its `FUNCTIONSET` command (41_init.md R113). -/
def recoveryEvents (c : Config) (a : BusAddr) (bl : Byte) : List Event :=
  [delayEvent c .sPwr, .w a (c.k.resetByte ||| bl), delayEvent c .sRst,
    .w a (c.k.initForce8 ||| bl), delayEvent c .sI1]
    ++ nibbleEvents c a bl c.k.initForce8 ++ [delayEvent c .sI2]
    ++ nibbleEvents c a bl c.k.initForce8 ++ [delayEvent c .sI3]
    ++ nibbleEvents c a bl c.k.initSet4

/-- "The events of one successful `INIT`, in order" (41_init.md R113); the backlight is off throughout. -/
def initEvents (c : Config) (a : BusAddr) (func : Byte) : List Event :=
  recoveryEvents c a c.k.backlightOff
    ++ commandEvents c a c.k.backlightOff (c.k.functionSet ||| func)
    ++ commandEvents c a c.k.backlightOff (c.k.displayControl ||| c.k.displayOn)
    ++ clearEvents c a c.k.backlightOff
    ++ commandEvents c a c.k.backlightOff (c.k.entryModeSet ||| c.k.entryLeft)
    ++ homeEvents c a c.k.backlightOff

/-- The delay is requested by a step of `INIT`, `CLEAR` or `HOME`, not by a nibble (43_timing_validator.md R155). -/
def Event.isStepDelay : Event → Bool
  | .d .sEn _ => false
  | .d .sSettle _ => false
  | .d _ _ => true
  | .w _ _ => false
  | .wf _ _ => false

/-- Every strobe-set write is followed by one `S_EN` delay, the same byte with the strobe cleared and an
`S_SETTLE` delay (43_timing_validator.md R156). -/
def strobesPaired (en : Byte) : List Event → Prop
  | [] => True
  | .w a b :: es =>
    (b &&& en ≠ 0 → ∃ d₁ d₂ es', es = .d .sEn d₁ :: .w a (b &&& ~~~en) :: .d .sSettle d₂ :: es')
      ∧ strobesPaired en es
  | .wf _ _ :: es => strobesPaired en es
  | .d _ _ :: es => strobesPaired en es

/-! ### Frames -/

/-- `ADDR`, `COLS`, `ROWS`, `FUNC` are as they were: the registers that only `INIT` writes (10_state.md R11, R14). -/
structure KeepsGeometry (s t : State) : Prop where
  addr : t.addr = s.addr
  cols : t.cols = s.cols
  rows : t.rows = s.rows
  func : t.func = s.func

/-- `CROW`, `CCOL` are as they were. -/
structure KeepsCursor (s t : State) : Prop where
  crow : t.crow = s.crow
  ccol : t.ccol = s.ccol

/-- `CMD` byte for byte, its end, and the parameters `K`, `DLY`, `SLOT_POLICY` are as they were
(20_memory.md R40, R53; 70_reset_and_hazards.md R203). -/
structure KeepsInputs (s t : State) : Prop where
  cmdRead : ∀ i, t.cmdRead i = s.cmdRead i
  cmdLength : t.cmd.length = s.cmd.length
  cfg : t.cfg = s.cfg

/-- The command completed: `cp` moved past it and no fault or validator register changed
(10_state.md R18, 30_encoding.md R62). -/
structure Completed (i : Instr) (s t : State) : Prop where
  cp : t.cp = s.cp + lengthOf i
  halt : t.halt = s.halt
  faultCode : t.faultCode = s.faultCode
  fcp : t.fcp = s.fcp
  faultValue : t.faultValue = s.faultValue
  tvViol : t.tvViol = s.tvViol
  tvSite : t.tvSite = s.tvSite

/-- The command took the fault `f`: the registers of the fault entry, `cp` left at its opcode byte, and the
validator's registers written exactly for a timing violation (60_exceptions.md R176, R178). -/
structure TookFault (f : SeqFault) (s t : State) : Prop where
  cp : t.cp = s.cp
  halt : t.halt = true
  faultCode : t.faultCode = f.code
  fcp : t.fcp = some s.cp
  faultValue : t.faultValue = some f
  validator : (∃ site, f = .timingViolation site ∧ t.tvViol = true ∧ t.tvSite = some (siteNumber site)) ∨
    ((∀ site, f ≠ .timingViolation site) ∧ t.tvViol = s.tvViol ∧ t.tvSite = s.tvSite)

/-- The command ended in one of the two ways (30_encoding.md R62). -/
def Ended (i : Instr) (s t : State) : Prop := Completed i s t ∨ ∃ f, TookFault f s t

/-! ### The invariant of a run -/

/-- The clauses of 10_state.md R27 over any well-formed `K`, with what makes them inductive.
Clause (c) is claimed of an open session only: an `INIT` that faults after rewriting `ROWS` leaves an older
`CROW` behind (assumption log 8). -/
structure State.Inv (s : State) : Prop where
  /-- The table `K` is well-formed (00_scope.md R8). -/
  wf : constantsWf s.cfg.k = true
  /-- R27 (a). -/
  backlight : ∀ b, s.bl = some b → b = s.cfg.k.backlightOff ∨ b = s.cfg.k.backlightOn
  /-- R27 (b), `CTRL`. -/
  ctrlBits : ∀ b, s.ctrl = some b → b &&& ~~~(s.cfg.k.displayOn ||| s.cfg.k.cursorOn ||| s.cfg.k.blinkOn) = 0
  /-- R27 (b), `MODE`. -/
  modeBits : ∀ b, s.mode = some b → b &&& ~~~(s.cfg.k.entryLeft ||| s.cfg.k.autoscroll) = 0
  /-- R27 (b), `FUNC`. -/
  funcBits : ∀ b, s.func = some b → b &&& ~~~(s.cfg.k.line2 ||| s.cfg.k.dots10) = 0
  /-- R27 (c), for an open session. -/
  cursorRow : s.inited = true → ∀ r, s.crow = some r → r.ult 4 = true ∧ ∃ n, s.rows = some n ∧ r.ult n = true
  /-- R27 (d). -/
  session : s.inited = true →
    s.addr.isSome ∧ s.cols.isSome ∧ s.bl.isSome ∧ s.func.isSome ∧ s.ctrl.isSome ∧ s.mode.isSome
      ∧ s.crow.isSome ∧ s.ccol.isSome ∧ ∃ n, s.rows = some n ∧ n ≠ 0
  /-- Before the first session nothing is written (10_state.md R12). -/
  unwritten : s.inited = false → s.halt = false →
    s.addr = none ∧ s.cols = none ∧ s.rows = none ∧ s.crow = none ∧ s.ccol = none
      ∧ s.bl = none ∧ s.func = none ∧ s.ctrl = none ∧ s.mode = none ∧ s.port = none ∧ s.trace = []
  /-- R27 (e). -/
  faultHalt : s.faultCode = 0 ↔ s.halt = false
  /-- `FCP` and the fault value hold something exactly when the block is halted, and agree with `FAULT` and `cp`
  (10_state.md R21, R22). -/
  faultEntry : (s.halt = true → s.fcp = some s.cp ∧ ∃ f, s.faultValue = some f ∧ s.faultCode = f.code)
    ∧ (s.halt = false → s.fcp = none ∧ s.faultValue = none)
  /-- R27 (f), and `TV_SITE` holds a site exactly when `TV_VIOL` is set (10_state.md R23). -/
  validator : (s.tvViol = true → s.halt = true ∧ s.faultCode = 7) ∧ (s.tvSite.isSome = s.tvViol)
  /-- R27 (g). -/
  pointer : s.cp ≤ s.cmd.length
  /-- R27 (h): no command is in progress between two steps. -/
  portLines : s.halt = false → ∀ p, s.port = some p →
    p &&& s.cfg.k.en = 0 ∧ p &&& s.cfg.k.rwLine = 0 ∧ s.bl = some (p &&& s.cfg.k.backlightOn)
  /-- A failed write ends the run (60_exceptions.md R177). -/
  noFailedWrite : s.halt = false → ∀ a b, Event.wf a b ∉ s.trace

end Sys2Proof.Machine
end

