-- ==== Sys2Proof/Certificates/Slice0/Obligations.lean ====
section
/-! DEFINITION. The statements for the provers. Names of registers and constants are the spec's. -/

open Sys2Proof Sys2Proof.Machine

/-! ### Encoding -/

/-- 30_encoding.md R60, R64: what the encoder writes for a well-formed command, with anything after it, the
decoder reads as that command, every operand at every value. -/
def Obligations.DecodeOfEncode : Prop :=
  ∀ (i : Instr) (rest : List Byte), i.wf = true → decode (encode i ++ rest) = .command i

/-- 30_encoding.md R60, R61: a command the decoder reads is well-formed, its encoding stands at the head of the
bytes, and its length is that of its format. -/
def Obligations.EncodeOfDecode : Prop :=
  ∀ (bytes : List Byte) (i : Instr), decode bytes = .command i →
    i.wf = true ∧ bytes = encode i ++ bytes.drop (lengthOf i) ∧ (encode i).length = lengthOf i

/-- 30_encoding.md R66, 92_eei_decisions.md D2: two programs of well-formed commands with the same stream are the
same program. -/
def Obligations.StreamsHaveOneReading : Prop :=
  ∀ p q : List Instr, (∀ i ∈ p, i.wf = true) → (∀ i ∈ q, i.wf = true) → encodeProgram p = encodeProgram q → p = q

/-- 30_encoding.md R61, clause by clause, on the bytes from `cp` on. -/
def Obligations.DecodeFollowsTheFormats : Prop :=
  (∀ s : State, fetch s = decode (s.cmd.drop s.cp)) ∧
  (∀ (op : Byte) (rest : List Byte),
    op ∉ [0x01, 0x02, 0x03, 0x04, 0x10, 0x11, 0x12, 0x13, 0x14, 0x15, 0x16, 0x17, 0x18, 0x19, 0x1A, 0x1B, 0x1C,
      0x1D, 0x20, 0x21, 0x22, 0x23] → decode (op :: rest) = .illegalEncoding op) ∧
  (∀ rest : List Byte, (0x00 : Byte) ∉ rest → decode (0x21 :: rest) = .truncatedCommand 0x21) ∧
  (∀ text tail : List Byte, (0x00 : Byte) ∉ text → decode (0x21 :: (text ++ 0x00 :: tail)) = .command (.print text)) ∧
  (∀ (op : Byte) (len : Nat) (rest : List Byte),
    (op, len) ∈ [((0x01 : Byte), 5), (0x04, 3), (0x20, 10), (0x22, 2), (0x23, 2)] → rest.length + 1 < len →
    decode (op :: rest) = .truncatedCommand op) ∧
  (∀ (a c r f : Byte) (tail : List Byte), decode (0x01 :: a :: c :: r :: f :: tail) =
    if a.getLsbD 7 then .illegalEncoding 0x01 else .command (.init (a.setWidth 7) c r f)) ∧
  (∀ (r c : Byte) (tail : List Byte), decode (0x04 :: r :: c :: tail) = .command (.setcursor r c)) ∧
  (∀ (n p0 p1 p2 p3 p4 p5 p6 p7 : Byte) (tail : List Byte),
    decode (0x20 :: n :: p0 :: p1 :: p2 :: p3 :: p4 :: p5 :: p6 :: p7 :: tail)
      = .command (.mkchar n p0 p1 p2 p3 p4 p5 p6 p7)) ∧
  (∀ (v : Byte) (tail : List Byte),
    decode (0x22 :: v :: tail) = .command (.sendcmd v) ∧ decode (0x23 :: v :: tail) = .command (.sendchr v)) ∧
  (∀ tail : List Byte,
    decode (0x02 :: tail) = .command .clear ∧ decode (0x03 :: tail) = .command .home ∧
    decode (0x10 :: tail) = .command .dispoff ∧ decode (0x11 :: tail) = .command .dispon ∧
    decode (0x12 :: tail) = .command .curoff ∧ decode (0x13 :: tail) = .command .curon ∧
    decode (0x14 :: tail) = .command .blnkoff ∧ decode (0x15 :: tail) = .command .blnkon ∧
    decode (0x16 :: tail) = .command .scrl ∧ decode (0x17 :: tail) = .command .scrr ∧
    decode (0x18 :: tail) = .command .rtl ∧ decode (0x19 :: tail) = .command .ltr ∧
    decode (0x1A :: tail) = .command .ascroff ∧ decode (0x1B :: tail) = .command .ascron ∧
    decode (0x1C :: tail) = .command .bloff ∧ decode (0x1D :: tail) = .command .blon)

/-- 30_encoding.md R64: words of the opcode map, written out from its formats, decode to their commands. -/
def Obligations.SampleWordsDecode : Prop :=
  decode [0x01, 0x27, 0x10, 0x02, 0x00] = .command (.init 0x27 16 2 0) ∧
  decode [0x04, 0x01, 0x05] = .command (.setcursor 1 5) ∧
  decode [0x13] = .command .curon ∧ decode [0x18] = .command .rtl ∧ decode [0x1D] = .command .blon ∧
  decode [0x21, 0x41, 0x42, 0x00] = .command (.print [0x41, 0x42]) ∧
  decode [0x22, 0x28] = .command (.sendcmd 0x28) ∧
  decode [0x20, 0x03, 0x00, 0x0A, 0x1F, 0x1F, 0x0E, 0x04, 0x00, 0x00]
    = .command (.mkchar 3 0x00 0x0A 0x1F 0x1F 0x0E 0x04 0x00 0x00)

/-- 30_encoding.md R65: 234 opcode bytes are reserved; at one of them, and at an `INIT` whose address byte has bit 7
set, the block takes the fault `IllegalEncoding` and halts. -/
def Obligations.ReservedEncodingsHalt : Prop :=
  ((List.range 256).filter fun n => decode [BitVec.ofNat 8 n] = .illegalEncoding (BitVec.ofNat 8 n)).length = 234 ∧
  (∀ (s : State) (op : Byte) (rest : List Byte),
    constantsWf s.cfg.k = true → s.halt = false → s.cmd.drop s.cp = op :: rest →
    (op = 0x00 ∨ (0x05 ≤ op.toNat ∧ op.toNat ≤ 0x0F) ∨ op = 0x1E ∨ op = 0x1F ∨ 0x24 ≤ op.toNat) →
    step s = .next { s with halt := true, faultCode := 5, fcp := some s.cp,
                            faultValue := some (.illegalEncoding op) }) ∧
  (∀ (s : State) (a c r f : Byte) (rest : List Byte),
    constantsWf s.cfg.k = true → s.halt = false → s.cmd.drop s.cp = 0x01 :: a :: c :: r :: f :: rest →
    a.getLsbD 7 = true →
    step s = .next { s with halt := true, faultCode := 5, fcp := some s.cp,
                            faultValue := some (.illegalEncoding 0x01) })

/-! ### The step -/

/-- 30_encoding.md R62: when the bytes at `cp` decode to a command and the block is not halted, the step is that
command's meaning. -/
def Obligations.StepRunsTheDecodedCommand : Prop :=
  ∀ (s : State) (i : Instr), constantsWf s.cfg.k = true → s.halt = false →
    decode (s.cmd.drop s.cp) = .command i → step s = exec i s

/-- 60_exceptions.md R172: where the bytes of a command run past the end of the stream, or a `PRINT` has no terminator,
the block takes `TruncatedCommand`: no event, no register change but the fault entry. -/
def Obligations.TruncatedCommandHalts : Prop :=
  ∀ (s : State) (op : Byte) (rest : List Byte), constantsWf s.cfg.k = true → s.halt = false →
    s.cmd.drop s.cp = op :: rest →
    ((∃ len, (op, len) ∈ [((0x01 : Byte), 5), (0x04, 3), (0x20, 10), (0x22, 2), (0x23, 2)] ∧ rest.length + 1 < len) ∨
      (op = 0x21 ∧ (0x00 : Byte) ∉ rest)) →
    step s = .next { s with halt := true, faultCode := 6, fcp := some s.cp,
                            faultValue := some (.truncatedCommand op) }

/-- 10_state.md R20: `HALT` is 0 after reset, set by every fault entry, and cleared by no command and no step, but by the
reset; while it is set the sequencer runs no command and produces no event. -/
def Obligations.HaltStaysUntilReset : Prop :=
  State.reset.halt = false ∧
  (∀ (f : SeqFault) (s : State), (s.takeFault f).halt = true) ∧
  (∀ (i : Instr) (s t : State), exec i s = .next t → s.halt = true → t.halt = true) ∧
  (∀ s t : State, step s = .next t → s.halt = true → t.halt = true ∧ t.trace = s.trace ∧ t.cp = s.cp) ∧
  (∀ s : State, s.hardwareReset.halt = false)

/-- A step with no command to run: a table `K` that is not well-formed is refused (00_scope.md R8), the defaults are
well-formed, and a halted block (10_state.md R20) and a finished one (R9) stay as they are however many steps are taken;
that they answer their own state is the model's reading (assumption log 6). -/
def Obligations.StepWithoutACommand : Prop :=
  constantsWf defaultConstants = true ∧
  (∀ s : State, constantsWf s.cfg.k = false → step s = .refused .illFormedConstants) ∧
  (∀ (s : State) (n : Nat), constantsWf s.cfg.k = true → (s.halt = true ∨ s.Finished) →
    Host.Core.run core n s = .next s)

/-- A word placed where the step fetches runs as the command the decoder reads from it (the model's own interface,
assumption log 7). -/
def Obligations.PlacedWordRuns : Prop :=
  ∀ (s : State) (nbits w : Nat) (i : Instr), constantsWf s.cfg.k = true → decodeTableWord nbits w = some i →
    step (s.withFetchWord nbits w) = exec i (s.withFetchWord nbits w)

/-! ### Bus and delay ports -/

/-- 20_memory.md R44: `BusWrite`, both answers. -/
def Obligations.BusWriteRecordsTheAnswer : Prop :=
  ∀ (a : BusAddr) (b : Byte) (s : State),
    (s.sink.answer = .success →
      busWrite a b s = (.success, { s with trace := s.trace ++ [.w a b], port := some b, sink := s.sink.after 1 })) ∧
    (s.sink.answer = .failure →
      busWrite a b s = (.failure, { s with trace := s.trace ++ [.wf a b], port := none, sink := s.sink.after 1 }))

/-- 40_transport.md R80: `transmit` writes the byte with `BL` ORed in to `ADDR`, and raises on a failure. -/
def Obligations.TransmitOrsTheBacklight : Prop :=
  ∀ (v : Byte) (s : State) (a : BusAddr) (bl : Byte), s.addr = some a → s.bl = some bl →
    (s.sink.answer = .success →
      transmit v s = .done { s with trace := s.trace ++ [.w a (v ||| bl)], port := some (v ||| bl),
                                    sink := s.sink.after 1 }) ∧
    (s.sink.answer = .failure →
      transmit v s = .raised (.busTransportFailure (v ||| bl))
        { s with trace := s.trace ++ [.wf a (v ||| bl)], port := none, sink := s.sink.after 1 })

/-- 43_timing_validator.md R151, R152, R153: the floors, the numbers of the sites, and the validator's check inside
`Delay`, after the request is recorded. -/
def Obligations.DelayChecksItsFloor : Prop :=
  (floorOf .sPwr = 100000 ∧ floorOf .sRst = 1000000 ∧ floorOf .sI1 = 4500 ∧ floorOf .sI2 = 4500 ∧
    floorOf .sI3 = 150 ∧ floorOf .sEn = 2 ∧ floorOf .sSettle = 50 ∧ floorOf .sClr = 2000 ∧ floorOf .sHome = 2000) ∧
  (siteNumber .sPwr = 1 ∧ siteNumber .sRst = 2 ∧ siteNumber .sI1 = 3 ∧ siteNumber .sI2 = 4 ∧ siteNumber .sI3 = 5 ∧
    siteNumber .sEn = 6 ∧ siteNumber .sSettle = 7 ∧ siteNumber .sClr = 8 ∧ siteNumber .sHome = 9) ∧
  ∀ (site : Site) (s : State),
    (delayOf s.cfg.dly site < floorOf site →
      delay site s = .raised (.timingViolation site)
        { s with trace := s.trace ++ [.d site (delayOf s.cfg.dly site)], tvViol := true,
                 tvSite := some (siteNumber site) }) ∧
    (floorOf site ≤ delayOf s.cfg.dly site →
      delay site s = .done { s with trace := s.trace ++ [.d site (delayOf s.cfg.dly site)] })

/-- 40_transport.md R84: `writeByte` that meets no fault appends exactly the eight events of the rule and changes
nothing but the trace, `PORT` and the environment (`sink`, the model's own field, assumption log 4); the requested time
of the eight events. -/
def Obligations.FourWriteProperty : Prop :=
  ∀ (s t : State) (a : BusAddr) (bl v m : Byte), constantsWf s.cfg.k = true →
    s.addr = some a → s.bl = some bl → (m = 0 ∨ m = s.cfg.k.registerSelect) → writeByte v m s = .done t →
    let es : List Event :=
      [.w a ((v &&& 0xF0) ||| m ||| s.cfg.k.en ||| bl), .d .sEn (delayOf s.cfg.dly .sEn),
       .w a ((v &&& 0xF0) ||| m ||| bl), .d .sSettle (delayOf s.cfg.dly .sSettle),
       .w a (((v <<< 4) &&& 0xF0) ||| m ||| s.cfg.k.en ||| bl), .d .sEn (delayOf s.cfg.dly .sEn),
       .w a (((v <<< 4) &&& 0xF0) ||| m ||| bl), .d .sSettle (delayOf s.cfg.dly .sSettle)]
    t = { s with trace := s.trace ++ es, port := some (((v <<< 4) &&& 0xF0) ||| m ||| bl), sink := t.sink } ∧
    requestedTime es = 2 * (delayOf s.cfg.dly .sEn + delayOf s.cfg.dly .sSettle)

/-! ### What each command completes to -/

/-- 40_transport.md R90, R91: `SENDCMD` and `SENDCHR`. -/
def Obligations.SendsComplete : Prop :=
  ∀ (s : State) (a : BusAddr) (bl v : Byte), s.Open a bl → s.DelaysMeetFloors → s.SinkClean →
    exec (.sendcmd v) s = .next { s.emitted (byteEvents s.cfg a bl v 0) with cp := s.cp + 2 } ∧
    exec (.sendchr v) s = .next { s.emitted (byteEvents s.cfg a bl v s.cfg.k.registerSelect) with cp := s.cp + 2 }

/-- 40_transport.md R92: `PRINT` sends each byte of its text as a character, in order, and moves past the text,
the opcode and the terminator. -/
def Obligations.PrintCompletes : Prop :=
  ∀ (s : State) (a : BusAddr) (bl : Byte) (text : List Byte), s.Open a bl → s.DelaysMeetFloors → s.SinkClean →
    exec (.print text) s = .next
      { s.emitted (text.flatMap fun b => byteEvents s.cfg a bl b s.cfg.k.registerSelect) with
        cp := s.cp + (text.length + 2) }

/-- 41_init.md R100, R102, R113: a successful `INIT`, its whole sequence of events and every register it writes,
whatever the state before it. -/
def Obligations.InitCompletes : Prop :=
  ∀ (s : State) (addr : BusAddr) (cols rows font : Byte), rows ≠ 0 → s.DelaysMeetFloors → s.SinkClean →
    exec (.init addr cols rows font) s = .next
      { s.emitted (initEvents s.cfg addr
          (s.cfg.k.mode4 ||| (if 1 < rows.toNat then s.cfg.k.line2 else s.cfg.k.line1)
            ||| (if font ≠ 0 ∧ rows = 1 then s.cfg.k.dots10 else s.cfg.k.dots8))) with
        cp := s.cp + 5, inited := true, addr := some addr, cols := some cols, rows := some rows,
        bl := some s.cfg.k.backlightOff,
        func := some (s.cfg.k.mode4 ||| (if 1 < rows.toNat then s.cfg.k.line2 else s.cfg.k.line1)
          ||| (if font ≠ 0 ∧ rows = 1 then s.cfg.k.dots10 else s.cfg.k.dots8)),
        ctrl := some s.cfg.k.displayOn, mode := some s.cfg.k.entryLeft, crow := some 0, ccol := some 0 }

/-- 41_init.md R113: the events of a successful `INIT`, spelled with the rule's abbreviations `n(x)` and `c(x)`, their
counts, and their requested time at the floors. The abbreviation `n(x)` writes `x` for the strobe-clear byte, so the
statement is for a `K` whose `INIT_FORCE8` and `INIT_SET4` do not hold the strobe bit. -/
def Obligations.InitSequenceAndCounts : Prop :=
  ∀ (s t : State) (a : BusAddr) (cols rows font func : Byte), constantsWf s.cfg.k = true →
    s.cfg.k.initForce8 &&& s.cfg.k.en = 0 → s.cfg.k.initSet4 &&& s.cfg.k.en = 0 →
    exec (.init a cols rows font) s = .next t → t.inited = true → t.func = some func →
    let n : Byte → List Event := fun x =>
      [.w a (x ||| s.cfg.k.en), .d .sEn s.cfg.dly.en, .w a x, .d .sSettle s.cfg.dly.settle]
    let c : Byte → List Event := fun x => n (x &&& 0xF0) ++ n ((x <<< 4) &&& 0xF0)
    let es : List Event :=
      [.d .sPwr s.cfg.dly.pwr] ++
      [.w a s.cfg.k.resetByte, .d .sRst s.cfg.dly.rst] ++
      [.w a s.cfg.k.initForce8, .d .sI1 s.cfg.dly.i1] ++
      (n s.cfg.k.initForce8 ++ [.d .sI2 s.cfg.dly.i2]) ++
      (n s.cfg.k.initForce8 ++ [.d .sI3 s.cfg.dly.i3]) ++
      n s.cfg.k.initSet4 ++
      c (s.cfg.k.functionSet ||| func) ++
      c (s.cfg.k.displayControl ||| s.cfg.k.displayOn) ++
      (c s.cfg.k.clearDisplay ++ [.d .sClr s.cfg.dly.clr]) ++
      c (s.cfg.k.setDdramAddr ||| s.cfg.k.rowOff0) ++
      c (s.cfg.k.entryModeSet ||| s.cfg.k.entryLeft) ++
      (c s.cfg.k.returnHome ++ [.d .sHome s.cfg.dly.home])
    t.trace = s.trace ++ es ∧
    (es.filter Event.isWrite).length = 32 ∧ (es.filter fun e => !e.isWrite).length = 37 ∧ es.length = 69 ∧
    (es.filter Event.isStepDelay).length = 7 ∧ es.count (.d .sEn s.cfg.dly.en) = 15 ∧
    es.count (.d .sSettle s.cfg.dly.settle) = 15 ∧
    (s.cfg.dly = defaultDelays → requestedTime es = 1113930)

/-- 43_timing_validator.md R155: the step-level delays of an `INIT` are the seven of the rule, in order. -/
def Obligations.InitStepDelaysInOrder : Prop :=
  ∀ (s t : State) (addr : BusAddr) (cols rows font : Byte), exec (.init addr cols rows font) s = .next t →
    t.inited = true → ∃ es, t.trace = s.trace ++ es ∧
      es.filter Event.isStepDelay =
        [.d .sPwr s.cfg.dly.pwr, .d .sRst s.cfg.dly.rst, .d .sI1 s.cfg.dly.i1, .d .sI2 s.cfg.dly.i2,
         .d .sI3 s.cfg.dly.i3, .d .sClr s.cfg.dly.clr, .d .sHome s.cfg.dly.home]

/-- 42_display_control.md R120, R121: `CLEAR` and `HOME`. -/
def Obligations.ClearAndHomeComplete : Prop :=
  ∀ (s : State) (a : BusAddr) (bl rows : Byte), s.Open a bl → s.DelaysMeetFloors → s.SinkClean →
    (s.rows = some rows → rows ≠ 0 →
      exec .clear s = .next
        { s.emitted (byteEvents s.cfg a bl s.cfg.k.clearDisplay 0 ++ [.d .sClr s.cfg.dly.clr]
            ++ byteEvents s.cfg a bl (s.cfg.k.setDdramAddr ||| (0 + s.cfg.k.rowOff0)) 0) with
          cp := s.cp + 1, crow := some 0, ccol := some 0 }) ∧
    exec .home s = .next
      { s.emitted (byteEvents s.cfg a bl s.cfg.k.returnHome 0 ++ [.d .sHome s.cfg.dly.home]) with cp := s.cp + 1 }

/-- 42_display_control.md R122, R123: `SETCURSOR` for a row below 4 and below `ROWS`; the column is not checked and the
sum wraps. -/
def Obligations.SetcursorCompletes : Prop :=
  ∀ (s : State) (a : BusAddr) (bl row col rows offset : Byte), s.Open a bl → s.DelaysMeetFloors → s.SinkClean →
    s.rows = some rows → row.toNat < rows.toNat →
    (row, offset) ∈ [((0 : Byte), s.cfg.k.rowOff0), (1, s.cfg.k.rowOff1), (2, s.cfg.k.rowOff2), (3, s.cfg.k.rowOff3)] →
    exec (.setcursor row col) s = .next
      { s.emitted (byteEvents s.cfg a bl
          (s.cfg.k.setDdramAddr ||| BitVec.ofNat 8 ((col.toNat + offset.toNat) % 256)) 0) with
        cp := s.cp + 3, crow := some row, ccol := some col }

/-- 42_display_control.md R124 to R129, R136: the six toggles of `CTRL` send `DISPLAYCONTROL | new` and then write
`new`, also when nothing changes (R140). -/
def Obligations.CtrlTogglesComplete : Prop :=
  ∀ (s : State) (a : BusAddr) (bl old new : Byte) (i : Instr), s.Open a bl → s.DelaysMeetFloors → s.SinkClean →
    s.ctrl = some old →
    (i, new) ∈ [(Instr.dispon, old ||| s.cfg.k.displayOn), (.dispoff, old &&& ~~~s.cfg.k.displayOn),
      (.curon, old ||| s.cfg.k.cursorOn), (.curoff, old &&& ~~~s.cfg.k.cursorOn),
      (.blnkon, old ||| s.cfg.k.blinkOn), (.blnkoff, old &&& ~~~s.cfg.k.blinkOn)] →
    exec i s = .next
      { s.emitted (byteEvents s.cfg a bl (s.cfg.k.displayControl ||| new) 0) with cp := s.cp + 1, ctrl := some new }

/-- 42_display_control.md R132 to R136: the four toggles of `MODE` send `ENTRYMODESET | new` and then write `new`. -/
def Obligations.ModeTogglesComplete : Prop :=
  ∀ (s : State) (a : BusAddr) (bl old new : Byte) (i : Instr), s.Open a bl → s.DelaysMeetFloors → s.SinkClean →
    s.mode = some old →
    (i, new) ∈ [(Instr.ltr, old ||| s.cfg.k.entryLeft), (.rtl, old &&& ~~~s.cfg.k.entryLeft),
      (.ascron, old ||| s.cfg.k.autoscroll), (.ascroff, old &&& ~~~s.cfg.k.autoscroll)] →
    exec i s = .next
      { s.emitted (byteEvents s.cfg a bl (s.cfg.k.entryModeSet ||| new) 0) with cp := s.cp + 1, mode := some new }

/-- 42_display_control.md R130, R131: the two scrolls. -/
def Obligations.ScrollsComplete : Prop :=
  ∀ (s : State) (a : BusAddr) (bl : Byte), s.Open a bl → s.DelaysMeetFloors → s.SinkClean →
    exec .scrl s = .next
      { s.emitted (byteEvents s.cfg a bl (s.cfg.k.cursorShift ||| s.cfg.k.displayMove ||| s.cfg.k.moveLeft) 0) with
        cp := s.cp + 1 } ∧
    exec .scrr s = .next
      { s.emitted (byteEvents s.cfg a bl (s.cfg.k.cursorShift ||| s.cfg.k.displayMove ||| s.cfg.k.moveRight) 0) with
        cp := s.cp + 1 }

/-- 42_display_control.md R137, R138: the backlight commands make one bus write, request no delay, and commit `BL`
after a success; on a failure `BL` keeps its value and the block halts with code 1. -/
def Obligations.BacklightCommandsWriteOnce : Prop :=
  ∀ (s : State) (a : BusAddr) (new : Byte) (i : Instr), s.inited = true → s.addr = some a →
    (i, new) ∈ [(Instr.blon, s.cfg.k.backlightOn), (.bloff, s.cfg.k.backlightOff)] →
    (s.sink.answer = .success →
      exec i s = .next { s with trace := s.trace ++ [.w a (0 ||| new)], port := some (0 ||| new),
                                sink := s.sink.after 1, bl := some new, cp := s.cp + 1 }) ∧
    (s.sink.answer = .failure →
      exec i s = .next { s with trace := s.trace ++ [.wf a (0 ||| new)], port := none, sink := s.sink.after 1,
                                halt := true, faultCode := 1, fcp := some s.cp,
                                faultValue := some (.busTransportFailure (0 ||| new)) })

/-- 42_display_control.md R139: `MKCHAR` under either slot policy, for every slot the policy lets run. -/
def Obligations.MkcharCompletes : Prop :=
  ∀ (s : State) (a : BusAddr) (bl slot p0 p1 p2 p3 p4 p5 p6 p7 : Byte), s.Open a bl → s.DelaysMeetFloors →
    s.SinkClean → (s.cfg.slotPolicy = .mask ∨ slot.toNat ≤ 7) →
    exec (.mkchar slot p0 p1 p2 p3 p4 p5 p6 p7) s = .next
      { s.emitted (byteEvents s.cfg a bl (s.cfg.k.setCgramAddr ||| ((slot &&& 0x07) <<< 3)) 0
          ++ [p0, p1, p2, p3, p4, p5, p6, p7].flatMap fun p => byteEvents s.cfg a bl p s.cfg.k.registerSelect) with
        cp := s.cp + 10 }

/-! ### Faults -/

/-- 60_exceptions.md R173, R179: before an `INIT` every other command takes `NotInitialized` and does nothing else,
whatever its operands. -/
def Obligations.NotInitializedBeforeAnything : Prop :=
  ∀ (i : Instr) (s : State), (∀ addr cols rows font, i ≠ .init addr cols rows font) → s.inited = false →
    exec i s = .next { s with halt := true, faultCode := 4, fcp := some s.cp,
                              faultValue := some (.notInitialized (opcode i)) }

/-- 42_display_control.md R122, 60_exceptions.md R174: `SETCURSOR` with a row of 4 or more or at or beyond `ROWS` takes
`InvalidRowIndex` with no event and no register change but the fault entry. -/
def Obligations.RowOutOfRangeHalts : Prop :=
  ∀ (s : State) (row col rows : Byte), s.inited = true → s.rows = some rows →
    (4 ≤ row.toNat ∨ rows.toNat ≤ row.toNat) →
    exec (.setcursor row col) s = .next { s with halt := true, faultCode := 2, fcp := some s.cp,
                                                 faultValue := some (.invalidRowIndex row) }

/-- 42_display_control.md R139, 60_exceptions.md R175: under `reject` a slot above 7 takes `InvalidSlotIndex` before any
bus write; nothing else raises it, and under `mask` code 3 never appears. -/
def Obligations.SlotPolicyDecides : Prop :=
  (∀ (s : State) (slot p0 p1 p2 p3 p4 p5 p6 p7 : Byte), s.inited = true → s.cfg.slotPolicy = .reject →
    7 < slot.toNat →
    exec (.mkchar slot p0 p1 p2 p3 p4 p5 p6 p7) s = .next
      { s with halt := true, faultCode := 3, fcp := some s.cp, faultValue := some (.invalidSlotIndex slot) }) ∧
  (∀ (i : Instr) (s t : State), s.faultCode ≠ 3 → exec i s = .next t → t.faultCode = 3 →
    s.cfg.slotPolicy = .reject ∧ ∃ slot p0 p1 p2 p3 p4 p5 p6 p7, i = .mkchar slot p0 p1 p2 p3 p4 p5 p6 p7 ∧
      7 < slot.toNat) ∧
  (∀ s t : State, s.cfg.slotPolicy = .mask → s.faultCode ≠ 3 → step s = .next t → t.faultCode ≠ 3)

/-- 41_init.md R109, R115: `INIT` with `rows = 0` sends everything up to the first half of step 7 and takes
`InvalidRowIndex`; the registers written so far keep their new values. -/
def Obligations.InitWithoutRowsHalts : Prop :=
  ∀ (s : State) (addr : BusAddr) (cols font : Byte), s.DelaysMeetFloors → s.SinkClean →
    exec (.init addr cols 0 font) s = .next
      { s.emitted (recoveryEvents s.cfg addr s.cfg.k.backlightOff
          ++ commandEvents s.cfg addr s.cfg.k.backlightOff (s.cfg.k.functionSet ||| resolve s.cfg.k 0 font)
          ++ commandEvents s.cfg addr s.cfg.k.backlightOff (s.cfg.k.displayControl ||| s.cfg.k.displayOn)
          ++ commandEvents s.cfg addr s.cfg.k.backlightOff s.cfg.k.clearDisplay ++ [.d .sClr s.cfg.dly.clr]) with
        inited := false, addr := some addr, cols := some cols, rows := some 0, bl := some s.cfg.k.backlightOff,
        func := some (resolve s.cfg.k 0 font), ctrl := some s.cfg.k.displayOn,
        halt := true, faultCode := 2, fcp := some s.cp, faultValue := some (.invalidRowIndex 0) }

/-- 41_init.md R101, R115: however an `INIT` ends, its start registers are written; a session is open exactly when it
met no fault; and `CTRL`, `MODE`, `CROW`, `CCOL` hold either their new or their old values. -/
def Obligations.InitFaultLeavesNoSession : Prop :=
  ∀ (s t : State) (addr : BusAddr) (cols rows font : Byte), exec (.init addr cols rows font) s = .next t →
    t.addr = some addr ∧ t.cols = some cols ∧ t.rows = some rows ∧ t.bl = some s.cfg.k.backlightOff ∧
    t.func = some (resolve s.cfg.k rows font) ∧
    ((t.inited = true ∧ Completed (.init addr cols rows font) s t) ∨ (t.inited = false ∧ ∃ f, TookFault f s t)) ∧
    (t.ctrl = some s.cfg.k.displayOn ∨ t.ctrl = s.ctrl) ∧ (t.mode = some s.cfg.k.entryLeft ∨ t.mode = s.mode) ∧
    ((t.crow = some 0 ∧ t.ccol = some 0) ∨ (t.crow = s.crow ∧ t.ccol = s.ccol))

/-- 60_exceptions.md R176, 30_encoding.md R62: a command that answers a next state either completed, with `cp` moved past
it and the fault and validator registers as they were, or took one fault, with `HALT`, `FAULT` (the code of R170), `FCP`
written and `cp` at its opcode byte. -/
def Obligations.EveryCommandCompletesOrTakesOneFault : Prop :=
  (∀ (i : Instr) (s t : State), exec i s = .next t → Ended i s t) ∧
  (∀ (b : Byte) (site : Site),
    (SeqFault.busTransportFailure b).code = 1 ∧ (SeqFault.invalidRowIndex b).code = 2 ∧
    (SeqFault.invalidSlotIndex b).code = 3 ∧ (SeqFault.notInitialized b).code = 4 ∧
    (SeqFault.illegalEncoding b).code = 5 ∧ (SeqFault.truncatedCommand b).code = 6 ∧
    (SeqFault.timingViolation site).code = 7)

/-- 60_exceptions.md R177: after a failed bus write no further event is made: the failed write is the last event of
the run, the block is halted with code 1, `PORT` holds nothing and no register the command would have written is
written (`INIT` aside, R115). -/
def Obligations.FailedWriteIsTheLastEvent : Prop :=
  ∀ (i : Instr) (s t : State), exec i s = .next t →
    ∃ es, t.trace = s.trace ++ es ∧ ∀ a b, Event.wf a b ∈ es →
      es.getLast? = some (.wf a b) ∧ es.count (.wf a b) = 1 ∧ t.halt = true ∧ t.faultCode = 1 ∧
      t.fcp = some s.cp ∧ t.cp = s.cp ∧ t.port = none ∧
      ((∀ addr cols rows font, i ≠ .init addr cols rows font) →
        KeepsGeometry s t ∧ KeepsCursor s t ∧ t.bl = s.bl ∧ t.ctrl = s.ctrl ∧ t.mode = s.mode) ∧
      ∀ n u, Host.Core.run core n t = .next u → u.trace = t.trace

/-- 60_exceptions.md R178: a delay below its floor is the last event of the run, the block halts with code 7, and
`TV_VIOL`, `TV_SITE` name the site. -/
def Obligations.ShortDelayIsTheLastEvent : Prop :=
  ∀ (i : Instr) (s t : State), exec i s = .next t →
    ∃ es, t.trace = s.trace ++ es ∧ ∀ site us, Event.d site us ∈ es → us < floorOf site →
      es.getLast? = some (.d site us) ∧ us = delayOf s.cfg.dly site ∧ t.halt = true ∧ t.faultCode = 7 ∧
      t.fcp = some s.cp ∧ t.cp = s.cp ∧ t.tvViol = true ∧ t.tvSite = some (siteNumber site) ∧
      ∀ n u, Host.Core.run core n t = .next u → u.trace = t.trace

/-- 60_exceptions.md R179: with `DLY[S_PWR] < FLOOR[S_PWR]` an `INIT` faults `TimingViolation` at its first event
whatever the sink would have answered. -/
def Obligations.ShortPowerUpWaitHaltsInit : Prop :=
  ∀ (s : State) (addr : BusAddr) (cols rows font : Byte), s.cfg.dly.pwr < 100000 →
    exec (.init addr cols rows font) s = .next
      { s with inited := false, addr := some addr, cols := some cols, rows := some rows,
               bl := some s.cfg.k.backlightOff, func := some (resolve s.cfg.k rows font),
               trace := s.trace ++ [.d .sPwr s.cfg.dly.pwr], tvViol := true, tvSite := some 1,
               halt := true, faultCode := 7, fcp := some s.cp, faultValue := some (.timingViolation .sPwr) }

/-- 43_timing_validator.md R154: with `DLY >= FLOOR` at all nine sites no step raises `TimingViolation` or sets `TV_VIOL`,
and every recorded delay meets its floor; with the default `DLY` every recorded delay equals its floor. -/
def Obligations.ValidatorNeverFires : Prop :=
  ∀ s t : State, s.DelaysMeetFloors → step s = .next t →
    t.DelaysMeetFloors ∧
    (s.tvViol = false → t.tvViol = false) ∧
    ((∀ site, s.faultValue ≠ some (.timingViolation site)) → ∀ site, t.faultValue ≠ some (.timingViolation site)) ∧
    ((∀ site us, Event.d site us ∈ s.trace → floorOf site ≤ us) →
      ∀ site us, Event.d site us ∈ t.trace → floorOf site ≤ us) ∧
    (s.cfg.dly = defaultDelays → (∀ site us, Event.d site us ∈ s.trace → us = floorOf site) →
      t.cfg.dly = defaultDelays ∧ ∀ site us, Event.d site us ∈ t.trace → us = floorOf site)

/-- 42_display_control.md R136, 60_exceptions.md R176: a command other than `INIT` that takes a fault leaves every session
and flag register as it was. -/
def Obligations.AbortedCommandKeepsRegisters : Prop :=
  ∀ (i : Instr) (s t : State), (∀ addr cols rows font, i ≠ .init addr cols rows font) → exec i s = .next t →
    s.halt = false → t.halt = true →
    KeepsGeometry s t ∧ KeepsCursor s t ∧ t.bl = s.bl ∧ t.ctrl = s.ctrl ∧ t.mode = s.mode ∧ t.inited = s.inited

/-- 10_state.md R12: a rule that reads a register holding no value stops the model with `UnwrittenRegister`. Which
register is read first is the model's choice (assumption log 1). -/
def Obligations.UnwrittenRegisterStops : Prop :=
  ∀ (s : State) (v row col : Byte), s.inited = true →
    (s.bl = none → exec (.sendcmd v) s = .fault (.unwrittenRegister .bl)) ∧
    (s.bl ≠ none → s.addr = none → exec (.sendcmd v) s = .fault (.unwrittenRegister .addr)) ∧
    (s.addr = none → exec .blon s = .fault (.unwrittenRegister .addr)) ∧
    (s.rows = none → exec (.setcursor row col) s = .fault (.unwrittenRegister .rows)) ∧
    (s.ctrl = none → exec .curon s = .fault (.unwrittenRegister .ctrl)) ∧
    (s.mode = none → exec .rtl s = .fault (.unwrittenRegister .mode))

/-! ### Frames -/

/-- 10_state.md R11, R14, R19: only `INIT` writes `ADDR`, `COLS`, `ROWS`, `FUNC` and `INITED`. -/
def Obligations.OnlyInitWritesGeometry : Prop :=
  ∀ (i : Instr) (s t : State), (∀ addr cols rows font, i ≠ .init addr cols rows font) → exec i s = .next t →
    KeepsGeometry s t ∧ t.inited = s.inited

/-- 20_memory.md R40, R53: no command and no step changes a byte of the command stream, its length, or a parameter. -/
def Obligations.InputsNeverChange : Prop :=
  (∀ (i : Instr) (s t : State), exec i s = .next t → KeepsInputs s t) ∧
  (∀ s t : State, step s = .next t → KeepsInputs s t)

/-- 10_state.md R11, 42_display_control.md R121, R130, R131, R139: `SENDCMD`, `SENDCHR`, `PRINT`, `HOME`, the scrolls and
`MKCHAR` write no session or flag register, however they end. -/
def Obligations.SendingCommandsFrame : Prop :=
  ∀ (i : Instr) (s t : State),
    ((∃ v, i = .sendcmd v) ∨ (∃ v, i = .sendchr v) ∨ (∃ text, i = .print text) ∨ i = .home ∨ i = .scrl ∨ i = .scrr ∨
      ∃ slot p0 p1 p2 p3 p4 p5 p6 p7, i = .mkchar slot p0 p1 p2 p3 p4 p5 p6 p7) →
    exec i s = .next t →
    KeepsGeometry s t ∧ KeepsCursor s t ∧ KeepsInputs s t ∧ t.bl = s.bl ∧ t.ctrl = s.ctrl ∧ t.mode = s.mode ∧
      t.inited = s.inited ∧ Ended i s t

/-- 42_display_control.md R136: a toggle writes no register but `CTRL` or `MODE`, and of that one only the flag it
names, however it ends. -/
def Obligations.TogglesFrame : Prop :=
  ∀ (i : Instr) (flag : Byte) (s t : State), exec i s = .next t →
    ((i, flag) ∈ [(Instr.dispon, s.cfg.k.displayOn), (.dispoff, s.cfg.k.displayOn), (.curon, s.cfg.k.cursorOn),
        (.curoff, s.cfg.k.cursorOn), (.blnkon, s.cfg.k.blinkOn), (.blnkoff, s.cfg.k.blinkOn)] →
      KeepsGeometry s t ∧ KeepsCursor s t ∧ KeepsInputs s t ∧ t.bl = s.bl ∧ t.mode = s.mode ∧ t.inited = s.inited ∧
        t.ctrl.map (· &&& ~~~flag) = s.ctrl.map (· &&& ~~~flag) ∧ Ended i s t) ∧
    ((i, flag) ∈ [(Instr.ltr, s.cfg.k.entryLeft), (.rtl, s.cfg.k.entryLeft), (.ascron, s.cfg.k.autoscroll),
        (.ascroff, s.cfg.k.autoscroll)] →
      KeepsGeometry s t ∧ KeepsCursor s t ∧ KeepsInputs s t ∧ t.bl = s.bl ∧ t.ctrl = s.ctrl ∧ t.inited = s.inited ∧
        t.mode.map (· &&& ~~~flag) = s.mode.map (· &&& ~~~flag) ∧ Ended i s t)

/-- 42_display_control.md R120, R122, R123, R137, R138: the backlight commands write no register but `BL`, and `CLEAR` and
`SETCURSOR` none but `CROW` and `CCOL`, however they end. -/
def Obligations.BacklightAndCursorFrame : Prop :=
  ∀ (i : Instr) (s t : State), exec i s = .next t →
    ((i = .blon ∨ i = .bloff) → KeepsGeometry s t ∧ KeepsCursor s t ∧ KeepsInputs s t ∧ t.ctrl = s.ctrl ∧
      t.mode = s.mode ∧ t.inited = s.inited ∧ Ended i s t) ∧
    ((i = .clear ∨ ∃ row col, i = .setcursor row col) → KeepsGeometry s t ∧ KeepsInputs s t ∧ t.bl = s.bl ∧
      t.ctrl = s.ctrl ∧ t.mode = s.mode ∧ t.inited = s.inited ∧ Ended i s t)

/-- 10_state.md R11: no rule reads `COLS`, `CROW` or `CCOL`: changing them changes nothing a command does but what it
leaves in those registers. -/
def Obligations.ShadowPositionIsNeverRead : Prop :=
  ∀ (i : Instr) (s t : State) (c r x : Option Byte), exec i s = .next t →
    ∃ t', exec i { s with cols := c, crow := r, ccol := x } = .next t' ∧
      { t' with cols := none, crow := none, ccol := none } = { t with cols := none, crow := none, ccol := none }

/-- 10_state.md R25: the sequencer never reads `TRACE`: a command appends the same events whatever stands in it. -/
def Obligations.TraceIsNeverRead : Prop :=
  ∀ (i : Instr) (s t : State) (older : List Event), exec i s = .next t →
    ∃ es, t.trace = s.trace ++ es ∧ exec i { s with trace := older } = .next { t with trace := older ++ es }

/-! ### Whole-machine rules -/

/-- 10_state.md R18, R25: a step only appends to `TRACE`, and `cp` only grows. -/
def Obligations.TraceAndPointerOnlyGrow : Prop :=
  ∀ s t : State, step s = .next t → s.trace <+: t.trace ∧ s.cp ≤ t.cp

/-- 30_encoding.md R69, 40_transport.md R80: every byte a command other than `INIT` and the backlight commands sends goes
to `ADDR` and carries the backlight register in its backlight bit. -/
def Obligations.BacklightRidesOnEveryByte : Prop :=
  ∀ (i : Instr) (s t : State) (a : BusAddr) (bl : Byte), constantsWf s.cfg.k = true →
    (∀ addr cols rows font, i ≠ .init addr cols rows font) → i ≠ .blon → i ≠ .bloff →
    s.addr = some a → s.bl = some bl → (bl = s.cfg.k.backlightOff ∨ bl = s.cfg.k.backlightOn) → exec i s = .next t →
    ∃ es, t.trace = s.trace ++ es ∧
      ∀ a' b, (Event.w a' b ∈ es ∨ Event.wf a' b ∈ es) → a' = a ∧ b &&& s.cfg.k.backlightOn = bl

/-- 40_transport.md R85, R86: `SENDCHR` and `PRINT` set the register-select bit in every byte; the commands that send one
controller command keep it clear. -/
def Obligations.RegisterSelectTellsDataFromCommands : Prop :=
  ∀ (i : Instr) (s t : State) (bl : Byte), constantsWf s.cfg.k = true → s.bl = some bl →
    (bl = s.cfg.k.backlightOff ∨ bl = s.cfg.k.backlightOn) → exec i s = .next t →
    ∃ es, t.trace = s.trace ++ es ∧
      (((∃ v, i = .sendchr v) ∨ ∃ text, i = .print text) →
        ∀ a b, (Event.w a b ∈ es ∨ Event.wf a b ∈ es) → b &&& s.cfg.k.registerSelect = s.cfg.k.registerSelect) ∧
      (((∃ v, i = .sendcmd v) ∨ i = .clear ∨ i = .home ∨ (∃ row col, i = .setcursor row col) ∨
          i ∈ [Instr.dispon, .dispoff, .curon, .curoff, .blnkon, .blnkoff, .ltr, .rtl, .ascron, .ascroff, .scrl,
            .scrr, .blon, .bloff]) →
        ∀ a b, (Event.w a b ∈ es ∨ Event.wf a b ∈ es) → b &&& s.cfg.k.registerSelect = 0)

/-- 30_encoding.md R69, 40_transport.md R93: with the default `K` no step of a run ever puts a byte with the read/write
bit on the bus. -/
def Obligations.ReadWriteLineStaysLow : Prop :=
  ∀ s t : State, s.Inv → s.cfg.k = defaultConstants →
    (∀ a b, (Event.w a b ∈ s.trace ∨ Event.wf a b ∈ s.trace) → b &&& 0x02 = 0) → step s = .next t →
    ∀ a b, (Event.w a b ∈ t.trace ∨ Event.wf a b ∈ t.trace) → b &&& 0x02 = 0

/-- 43_timing_validator.md R156: with the default `K`, in the trace of a run without fault every strobe-set write is
followed by one `S_EN` delay, the same byte with the strobe cleared, and an `S_SETTLE` delay. -/
def Obligations.StrobesStayPaired : Prop :=
  ∀ s t : State, s.Inv → s.cfg.k = defaultConstants → strobesPaired 0x04 s.trace → step s = .next t →
    t.halt = false → strobesPaired 0x04 t.trace

/-- 10_state.md R17: a toggle that ends without fault has sent, last, the command byte that carries exactly what its
register now holds. -/
def Obligations.ToggleShadowsWhatItSent : Prop :=
  ∀ (i : Instr) (s t : State), exec i s = .next t → s.halt = false → t.halt = false →
    (i ∈ [Instr.dispon, .dispoff, .curon, .curoff, .blnkon, .blnkoff] →
      ∃ a bl new, s.addr = some a ∧ s.bl = some bl ∧ t.ctrl = some new ∧
        t.trace = s.trace ++ byteEvents s.cfg a bl (s.cfg.k.displayControl ||| new) 0) ∧
    (i ∈ [Instr.ltr, .rtl, .ascron, .ascroff] →
      ∃ a bl new, s.addr = some a ∧ s.bl = some bl ∧ t.mode = some new ∧
        t.trace = s.trace ++ byteEvents s.cfg a bl (s.cfg.k.entryModeSet ||| new) 0)

/-- 42_display_control.md R120: `CLEAR` twice in succession produces the same events each time and leaves the cursor at
(0, 0). -/
def Obligations.ClearTwiceRepeatsItsEvents : Prop :=
  ∀ (s t u : State), exec .clear s = .next t → exec .clear t = .next u → s.halt = false → u.halt = false →
    ∃ es, t.trace = s.trace ++ es ∧ u.trace = t.trace ++ es ∧ t.crow = some 0 ∧ t.ccol = some 0 ∧
      u.crow = some 0 ∧ u.ccol = some 0

/-- 43_timing_validator.md R158: the requested time of a nibble, a byte and each completed command at `DLY = FLOOR`. -/
def Obligations.RequestedTimePerCommand : Prop :=
  (∀ (c : Config) (a : BusAddr) (bl v m : Byte), c.dly = defaultDelays →
    requestedTime (nibbleEvents c a bl v) = 52 ∧ requestedTime (byteEvents c a bl v m) = 104) ∧
  ∀ (i : Instr) (s t : State), s.cfg.dly = defaultDelays → exec i s = .next t → s.halt = false → t.halt = false →
    ∃ es, t.trace = s.trace ++ es ∧ requestedTime es = commandTime i

/-! ### The invariant -/

/-- 10_state.md R28: the reset state, and what a successful `INIT` leaves with the default `K`. The value of `FUNC` is
41_init.md R102's resolution, which is the spec's own inference ("from general knowledge, not in source"), and the
bytes of the default `K` are PRESUMED where 00_scope.md R8 says so (assumption log 3). -/
def Obligations.ResetAndInitValues : Prop :=
  (State.reset.addr = none ∧ State.reset.cols = none ∧ State.reset.rows = none ∧ State.reset.crow = none ∧
    State.reset.ccol = none ∧ State.reset.bl = none ∧ State.reset.func = none ∧ State.reset.ctrl = none ∧
    State.reset.mode = none ∧ State.reset.cp = 0 ∧ State.reset.inited = false ∧ State.reset.halt = false ∧
    State.reset.faultCode = 0 ∧ State.reset.fcp = none ∧ State.reset.tvViol = false ∧ State.reset.tvSite = none ∧
    State.reset.port = none ∧ State.reset.trace = []) ∧
  (∀ (s t : State) (addr : BusAddr) (cols rows font : Byte), s.cfg.k = defaultConstants →
    exec (.init addr cols rows font) s = .next t → t.inited = true →
    t.addr = some addr ∧ t.cols = some cols ∧ t.rows = some rows ∧ t.bl = some 0x00 ∧
    t.func = some ((if 1 < rows.toNat then 0x08 else 0x00) ||| (if font ≠ 0 ∧ rows = 1 then 0x04 else 0x00)) ∧
    t.ctrl = some 0x04 ∧ t.mode = some 0x02 ∧ t.crow = some 0 ∧ t.ccol = some 0 ∧ t.port = some 0x20 ∧
    t.cp = s.cp + 5)

/-- 70_reset_and_hazards.md R200, R203: every launch with a well-formed `K`, and the reset state, meet the invariant. -/
def Obligations.LaunchMeetsInvariant : Prop :=
  State.reset.Inv ∧
  ∀ (cfg : Config) (cmd : List Byte) (sink : Sink), constantsWf cfg.k = true → (State.launch cfg cmd sink).Inv

/-- 10_state.md R27 (clause (c) as in `State.Inv`, assumption log 8): every step keeps the invariant. -/
def Obligations.StepKeepsInvariant : Prop :=
  ∀ s t : State, s.Inv → step s = .next t → t.Inv

/-- 10_state.md R12: from a state that meets the invariant no step reads a register that holds no value, and no step is
refused. -/
def Obligations.InvariantStateNeverStops : Prop :=
  ∀ s : State, s.Inv → ∃ t, step s = .next t

/-- 10_state.md R27 over whole runs with the default `K`: whatever stream, delays, slot policy and sink answers a run is
launched with, every state it reaches keeps the register ranges of the rule; clause (c) while the block is not halted
(assumption log 8). -/
def Obligations.ReachableStatesKeepRegisterRanges : Prop :=
  ∀ (cfg : Config) (cmd : List Byte) (sink : Sink) (n : Nat), cfg.k = defaultConstants →
    ∃ t, Host.Core.run core n (State.launch cfg cmd sink) = .next t ∧
      (t.bl = none ∨ t.bl = some 0x00 ∨ t.bl = some 0x08) ∧
      (∀ b, t.ctrl = some b → b &&& 0xF8 = 0) ∧ (∀ b, t.mode = some b → b &&& 0xFC = 0) ∧
      (∀ b, t.func = some b → b &&& 0xF3 = 0) ∧
      (t.halt = false → ∀ r, t.crow = some r → r.toNat < 4 ∧ ∃ m, t.rows = some m ∧ r.toNat < m.toNat) ∧
      (t.faultCode = 0 ↔ t.halt = false) ∧ (t.tvViol = true → t.halt = true ∧ t.faultCode = 7) ∧
      t.cp ≤ t.cmd.length ∧
      (t.halt = false → ∀ p, t.port = some p →
        p &&& 0x04 = 0 ∧ p &&& 0x02 = 0 ∧ t.bl = some (p &&& 0x08))

/-- 10_state.md R27 (c) against 41_init.md R101, R115: a run exists that ends with `CROW = 3` and `ROWS = 1`, after a
second `INIT` faulted at its first bus write (assumption log 8). -/
def Obligations.FaultedReinitLeavesOldCursorRow : Prop :=
  ∃ t, Host.Core.run core 3 (State.launch defaultConfig
      [0x01, 0x27, 0x14, 0x04, 0x00, 0x04, 0x03, 0x00, 0x01, 0x27, 0x10, 0x01, 0x00]
      { script := List.replicate 36 .success ++ [.failure], rest := .success }) = .next t ∧
    t.crow = some 3 ∧ t.rows = some 1 ∧ t.halt = true ∧ t.faultCode = 1
end

