-- ==== Sys2Proof/Laws/State.lean ====
section
/-! SUPPORT. One lemma per field for each named update of the state, so that no later proof unfolds a
record update. -/

namespace Sys2Proof.Machine

/-! ### `putCtrl` -/

@[simp] theorem putCtrl_addr (v : Byte) (s : State) : (s.putCtrl v).addr = s.addr := rfl
@[simp] theorem putCtrl_cols (v : Byte) (s : State) : (s.putCtrl v).cols = s.cols := rfl
@[simp] theorem putCtrl_rows (v : Byte) (s : State) : (s.putCtrl v).rows = s.rows := rfl
@[simp] theorem putCtrl_crow (v : Byte) (s : State) : (s.putCtrl v).crow = s.crow := rfl
@[simp] theorem putCtrl_ccol (v : Byte) (s : State) : (s.putCtrl v).ccol = s.ccol := rfl
@[simp] theorem putCtrl_bl (v : Byte) (s : State) : (s.putCtrl v).bl = s.bl := rfl
@[simp] theorem putCtrl_func (v : Byte) (s : State) : (s.putCtrl v).func = s.func := rfl
@[simp] theorem putCtrl_ctrl (v : Byte) (s : State) : (s.putCtrl v).ctrl = some v := rfl
@[simp] theorem putCtrl_mode (v : Byte) (s : State) : (s.putCtrl v).mode = s.mode := rfl
@[simp] theorem putCtrl_cp (v : Byte) (s : State) : (s.putCtrl v).cp = s.cp := rfl
@[simp] theorem putCtrl_inited (v : Byte) (s : State) : (s.putCtrl v).inited = s.inited := rfl
@[simp] theorem putCtrl_halt (v : Byte) (s : State) : (s.putCtrl v).halt = s.halt := rfl
@[simp] theorem putCtrl_faultCode (v : Byte) (s : State) : (s.putCtrl v).faultCode = s.faultCode := rfl
@[simp] theorem putCtrl_fcp (v : Byte) (s : State) : (s.putCtrl v).fcp = s.fcp := rfl
@[simp] theorem putCtrl_tvViol (v : Byte) (s : State) : (s.putCtrl v).tvViol = s.tvViol := rfl
@[simp] theorem putCtrl_tvSite (v : Byte) (s : State) : (s.putCtrl v).tvSite = s.tvSite := rfl
@[simp] theorem putCtrl_port (v : Byte) (s : State) : (s.putCtrl v).port = s.port := rfl
@[simp] theorem putCtrl_trace (v : Byte) (s : State) : (s.putCtrl v).trace = s.trace := rfl
@[simp] theorem putCtrl_cmd (v : Byte) (s : State) : (s.putCtrl v).cmd = s.cmd := rfl
@[simp] theorem putCtrl_cfg (v : Byte) (s : State) : (s.putCtrl v).cfg = s.cfg := rfl
@[simp] theorem putCtrl_sink (v : Byte) (s : State) : (s.putCtrl v).sink = s.sink := rfl
@[simp] theorem putCtrl_faultValue (v : Byte) (s : State) : (s.putCtrl v).faultValue = s.faultValue := rfl

/-! ### `putMode` -/

@[simp] theorem putMode_addr (v : Byte) (s : State) : (s.putMode v).addr = s.addr := rfl
@[simp] theorem putMode_cols (v : Byte) (s : State) : (s.putMode v).cols = s.cols := rfl
@[simp] theorem putMode_rows (v : Byte) (s : State) : (s.putMode v).rows = s.rows := rfl
@[simp] theorem putMode_crow (v : Byte) (s : State) : (s.putMode v).crow = s.crow := rfl
@[simp] theorem putMode_ccol (v : Byte) (s : State) : (s.putMode v).ccol = s.ccol := rfl
@[simp] theorem putMode_bl (v : Byte) (s : State) : (s.putMode v).bl = s.bl := rfl
@[simp] theorem putMode_func (v : Byte) (s : State) : (s.putMode v).func = s.func := rfl
@[simp] theorem putMode_ctrl (v : Byte) (s : State) : (s.putMode v).ctrl = s.ctrl := rfl
@[simp] theorem putMode_mode (v : Byte) (s : State) : (s.putMode v).mode = some v := rfl
@[simp] theorem putMode_cp (v : Byte) (s : State) : (s.putMode v).cp = s.cp := rfl
@[simp] theorem putMode_inited (v : Byte) (s : State) : (s.putMode v).inited = s.inited := rfl
@[simp] theorem putMode_halt (v : Byte) (s : State) : (s.putMode v).halt = s.halt := rfl
@[simp] theorem putMode_faultCode (v : Byte) (s : State) : (s.putMode v).faultCode = s.faultCode := rfl
@[simp] theorem putMode_fcp (v : Byte) (s : State) : (s.putMode v).fcp = s.fcp := rfl
@[simp] theorem putMode_tvViol (v : Byte) (s : State) : (s.putMode v).tvViol = s.tvViol := rfl
@[simp] theorem putMode_tvSite (v : Byte) (s : State) : (s.putMode v).tvSite = s.tvSite := rfl
@[simp] theorem putMode_port (v : Byte) (s : State) : (s.putMode v).port = s.port := rfl
@[simp] theorem putMode_trace (v : Byte) (s : State) : (s.putMode v).trace = s.trace := rfl
@[simp] theorem putMode_cmd (v : Byte) (s : State) : (s.putMode v).cmd = s.cmd := rfl
@[simp] theorem putMode_cfg (v : Byte) (s : State) : (s.putMode v).cfg = s.cfg := rfl
@[simp] theorem putMode_sink (v : Byte) (s : State) : (s.putMode v).sink = s.sink := rfl
@[simp] theorem putMode_faultValue (v : Byte) (s : State) : (s.putMode v).faultValue = s.faultValue := rfl

/-! ### `putBl` -/

@[simp] theorem putBl_addr (v : Byte) (s : State) : (s.putBl v).addr = s.addr := rfl
@[simp] theorem putBl_cols (v : Byte) (s : State) : (s.putBl v).cols = s.cols := rfl
@[simp] theorem putBl_rows (v : Byte) (s : State) : (s.putBl v).rows = s.rows := rfl
@[simp] theorem putBl_crow (v : Byte) (s : State) : (s.putBl v).crow = s.crow := rfl
@[simp] theorem putBl_ccol (v : Byte) (s : State) : (s.putBl v).ccol = s.ccol := rfl
@[simp] theorem putBl_bl (v : Byte) (s : State) : (s.putBl v).bl = some v := rfl
@[simp] theorem putBl_func (v : Byte) (s : State) : (s.putBl v).func = s.func := rfl
@[simp] theorem putBl_ctrl (v : Byte) (s : State) : (s.putBl v).ctrl = s.ctrl := rfl
@[simp] theorem putBl_mode (v : Byte) (s : State) : (s.putBl v).mode = s.mode := rfl
@[simp] theorem putBl_cp (v : Byte) (s : State) : (s.putBl v).cp = s.cp := rfl
@[simp] theorem putBl_inited (v : Byte) (s : State) : (s.putBl v).inited = s.inited := rfl
@[simp] theorem putBl_halt (v : Byte) (s : State) : (s.putBl v).halt = s.halt := rfl
@[simp] theorem putBl_faultCode (v : Byte) (s : State) : (s.putBl v).faultCode = s.faultCode := rfl
@[simp] theorem putBl_fcp (v : Byte) (s : State) : (s.putBl v).fcp = s.fcp := rfl
@[simp] theorem putBl_tvViol (v : Byte) (s : State) : (s.putBl v).tvViol = s.tvViol := rfl
@[simp] theorem putBl_tvSite (v : Byte) (s : State) : (s.putBl v).tvSite = s.tvSite := rfl
@[simp] theorem putBl_port (v : Byte) (s : State) : (s.putBl v).port = s.port := rfl
@[simp] theorem putBl_trace (v : Byte) (s : State) : (s.putBl v).trace = s.trace := rfl
@[simp] theorem putBl_cmd (v : Byte) (s : State) : (s.putBl v).cmd = s.cmd := rfl
@[simp] theorem putBl_cfg (v : Byte) (s : State) : (s.putBl v).cfg = s.cfg := rfl
@[simp] theorem putBl_sink (v : Byte) (s : State) : (s.putBl v).sink = s.sink := rfl
@[simp] theorem putBl_faultValue (v : Byte) (s : State) : (s.putBl v).faultValue = s.faultValue := rfl

/-! ### `putCursor` -/

@[simp] theorem putCursor_addr (row col : Byte) (s : State) : (s.putCursor row col).addr = s.addr := rfl
@[simp] theorem putCursor_cols (row col : Byte) (s : State) : (s.putCursor row col).cols = s.cols := rfl
@[simp] theorem putCursor_rows (row col : Byte) (s : State) : (s.putCursor row col).rows = s.rows := rfl
@[simp] theorem putCursor_crow (row col : Byte) (s : State) : (s.putCursor row col).crow = some row := rfl
@[simp] theorem putCursor_ccol (row col : Byte) (s : State) : (s.putCursor row col).ccol = some col := rfl
@[simp] theorem putCursor_bl (row col : Byte) (s : State) : (s.putCursor row col).bl = s.bl := rfl
@[simp] theorem putCursor_func (row col : Byte) (s : State) : (s.putCursor row col).func = s.func := rfl
@[simp] theorem putCursor_ctrl (row col : Byte) (s : State) : (s.putCursor row col).ctrl = s.ctrl := rfl
@[simp] theorem putCursor_mode (row col : Byte) (s : State) : (s.putCursor row col).mode = s.mode := rfl
@[simp] theorem putCursor_cp (row col : Byte) (s : State) : (s.putCursor row col).cp = s.cp := rfl
@[simp] theorem putCursor_inited (row col : Byte) (s : State) : (s.putCursor row col).inited = s.inited := rfl
@[simp] theorem putCursor_halt (row col : Byte) (s : State) : (s.putCursor row col).halt = s.halt := rfl
@[simp] theorem putCursor_faultCode (row col : Byte) (s : State) : (s.putCursor row col).faultCode = s.faultCode := rfl
@[simp] theorem putCursor_fcp (row col : Byte) (s : State) : (s.putCursor row col).fcp = s.fcp := rfl
@[simp] theorem putCursor_tvViol (row col : Byte) (s : State) : (s.putCursor row col).tvViol = s.tvViol := rfl
@[simp] theorem putCursor_tvSite (row col : Byte) (s : State) : (s.putCursor row col).tvSite = s.tvSite := rfl
@[simp] theorem putCursor_port (row col : Byte) (s : State) : (s.putCursor row col).port = s.port := rfl
@[simp] theorem putCursor_trace (row col : Byte) (s : State) : (s.putCursor row col).trace = s.trace := rfl
@[simp] theorem putCursor_cmd (row col : Byte) (s : State) : (s.putCursor row col).cmd = s.cmd := rfl
@[simp] theorem putCursor_cfg (row col : Byte) (s : State) : (s.putCursor row col).cfg = s.cfg := rfl
@[simp] theorem putCursor_sink (row col : Byte) (s : State) : (s.putCursor row col).sink = s.sink := rfl
@[simp] theorem putCursor_faultValue (row col : Byte) (s : State) : (s.putCursor row col).faultValue = s.faultValue := rfl

/-! ### `putInited` -/

@[simp] theorem putInited_addr (s : State) : (s.putInited).addr = s.addr := rfl
@[simp] theorem putInited_cols (s : State) : (s.putInited).cols = s.cols := rfl
@[simp] theorem putInited_rows (s : State) : (s.putInited).rows = s.rows := rfl
@[simp] theorem putInited_crow (s : State) : (s.putInited).crow = s.crow := rfl
@[simp] theorem putInited_ccol (s : State) : (s.putInited).ccol = s.ccol := rfl
@[simp] theorem putInited_bl (s : State) : (s.putInited).bl = s.bl := rfl
@[simp] theorem putInited_func (s : State) : (s.putInited).func = s.func := rfl
@[simp] theorem putInited_ctrl (s : State) : (s.putInited).ctrl = s.ctrl := rfl
@[simp] theorem putInited_mode (s : State) : (s.putInited).mode = s.mode := rfl
@[simp] theorem putInited_cp (s : State) : (s.putInited).cp = s.cp := rfl
@[simp] theorem putInited_inited (s : State) : (s.putInited).inited = true := rfl
@[simp] theorem putInited_halt (s : State) : (s.putInited).halt = s.halt := rfl
@[simp] theorem putInited_faultCode (s : State) : (s.putInited).faultCode = s.faultCode := rfl
@[simp] theorem putInited_fcp (s : State) : (s.putInited).fcp = s.fcp := rfl
@[simp] theorem putInited_tvViol (s : State) : (s.putInited).tvViol = s.tvViol := rfl
@[simp] theorem putInited_tvSite (s : State) : (s.putInited).tvSite = s.tvSite := rfl
@[simp] theorem putInited_port (s : State) : (s.putInited).port = s.port := rfl
@[simp] theorem putInited_trace (s : State) : (s.putInited).trace = s.trace := rfl
@[simp] theorem putInited_cmd (s : State) : (s.putInited).cmd = s.cmd := rfl
@[simp] theorem putInited_cfg (s : State) : (s.putInited).cfg = s.cfg := rfl
@[simp] theorem putInited_sink (s : State) : (s.putInited).sink = s.sink := rfl
@[simp] theorem putInited_faultValue (s : State) : (s.putInited).faultValue = s.faultValue := rfl

/-! ### `advance` -/

@[simp] theorem advance_addr (n : Nat) (s : State) : (s.advance n).addr = s.addr := rfl
@[simp] theorem advance_cols (n : Nat) (s : State) : (s.advance n).cols = s.cols := rfl
@[simp] theorem advance_rows (n : Nat) (s : State) : (s.advance n).rows = s.rows := rfl
@[simp] theorem advance_crow (n : Nat) (s : State) : (s.advance n).crow = s.crow := rfl
@[simp] theorem advance_ccol (n : Nat) (s : State) : (s.advance n).ccol = s.ccol := rfl
@[simp] theorem advance_bl (n : Nat) (s : State) : (s.advance n).bl = s.bl := rfl
@[simp] theorem advance_func (n : Nat) (s : State) : (s.advance n).func = s.func := rfl
@[simp] theorem advance_ctrl (n : Nat) (s : State) : (s.advance n).ctrl = s.ctrl := rfl
@[simp] theorem advance_mode (n : Nat) (s : State) : (s.advance n).mode = s.mode := rfl
@[simp] theorem advance_cp (n : Nat) (s : State) : (s.advance n).cp = s.cp + n := rfl
@[simp] theorem advance_inited (n : Nat) (s : State) : (s.advance n).inited = s.inited := rfl
@[simp] theorem advance_halt (n : Nat) (s : State) : (s.advance n).halt = s.halt := rfl
@[simp] theorem advance_faultCode (n : Nat) (s : State) : (s.advance n).faultCode = s.faultCode := rfl
@[simp] theorem advance_fcp (n : Nat) (s : State) : (s.advance n).fcp = s.fcp := rfl
@[simp] theorem advance_tvViol (n : Nat) (s : State) : (s.advance n).tvViol = s.tvViol := rfl
@[simp] theorem advance_tvSite (n : Nat) (s : State) : (s.advance n).tvSite = s.tvSite := rfl
@[simp] theorem advance_port (n : Nat) (s : State) : (s.advance n).port = s.port := rfl
@[simp] theorem advance_trace (n : Nat) (s : State) : (s.advance n).trace = s.trace := rfl
@[simp] theorem advance_cmd (n : Nat) (s : State) : (s.advance n).cmd = s.cmd := rfl
@[simp] theorem advance_cfg (n : Nat) (s : State) : (s.advance n).cfg = s.cfg := rfl
@[simp] theorem advance_sink (n : Nat) (s : State) : (s.advance n).sink = s.sink := rfl
@[simp] theorem advance_faultValue (n : Nat) (s : State) : (s.advance n).faultValue = s.faultValue := rfl

/-! ### `initStart` -/

@[simp] theorem initStart_addr (addr : BusAddr) (cols rows font : Byte) (s : State) : (s.initStart addr cols rows font).addr = some addr := rfl
@[simp] theorem initStart_cols (addr : BusAddr) (cols rows font : Byte) (s : State) : (s.initStart addr cols rows font).cols = some cols := rfl
@[simp] theorem initStart_rows (addr : BusAddr) (cols rows font : Byte) (s : State) : (s.initStart addr cols rows font).rows = some rows := rfl
@[simp] theorem initStart_crow (addr : BusAddr) (cols rows font : Byte) (s : State) : (s.initStart addr cols rows font).crow = s.crow := rfl
@[simp] theorem initStart_ccol (addr : BusAddr) (cols rows font : Byte) (s : State) : (s.initStart addr cols rows font).ccol = s.ccol := rfl
@[simp] theorem initStart_bl (addr : BusAddr) (cols rows font : Byte) (s : State) : (s.initStart addr cols rows font).bl = some s.cfg.k.backlightOff := rfl
@[simp] theorem initStart_func (addr : BusAddr) (cols rows font : Byte) (s : State) : (s.initStart addr cols rows font).func = some (resolve s.cfg.k rows font) := rfl
@[simp] theorem initStart_ctrl (addr : BusAddr) (cols rows font : Byte) (s : State) : (s.initStart addr cols rows font).ctrl = s.ctrl := rfl
@[simp] theorem initStart_mode (addr : BusAddr) (cols rows font : Byte) (s : State) : (s.initStart addr cols rows font).mode = s.mode := rfl
@[simp] theorem initStart_cp (addr : BusAddr) (cols rows font : Byte) (s : State) : (s.initStart addr cols rows font).cp = s.cp := rfl
@[simp] theorem initStart_inited (addr : BusAddr) (cols rows font : Byte) (s : State) : (s.initStart addr cols rows font).inited = false := rfl
@[simp] theorem initStart_halt (addr : BusAddr) (cols rows font : Byte) (s : State) : (s.initStart addr cols rows font).halt = s.halt := rfl
@[simp] theorem initStart_faultCode (addr : BusAddr) (cols rows font : Byte) (s : State) : (s.initStart addr cols rows font).faultCode = s.faultCode := rfl
@[simp] theorem initStart_fcp (addr : BusAddr) (cols rows font : Byte) (s : State) : (s.initStart addr cols rows font).fcp = s.fcp := rfl
@[simp] theorem initStart_tvViol (addr : BusAddr) (cols rows font : Byte) (s : State) : (s.initStart addr cols rows font).tvViol = s.tvViol := rfl
@[simp] theorem initStart_tvSite (addr : BusAddr) (cols rows font : Byte) (s : State) : (s.initStart addr cols rows font).tvSite = s.tvSite := rfl
@[simp] theorem initStart_port (addr : BusAddr) (cols rows font : Byte) (s : State) : (s.initStart addr cols rows font).port = s.port := rfl
@[simp] theorem initStart_trace (addr : BusAddr) (cols rows font : Byte) (s : State) : (s.initStart addr cols rows font).trace = s.trace := rfl
@[simp] theorem initStart_cmd (addr : BusAddr) (cols rows font : Byte) (s : State) : (s.initStart addr cols rows font).cmd = s.cmd := rfl
@[simp] theorem initStart_cfg (addr : BusAddr) (cols rows font : Byte) (s : State) : (s.initStart addr cols rows font).cfg = s.cfg := rfl
@[simp] theorem initStart_sink (addr : BusAddr) (cols rows font : Byte) (s : State) : (s.initStart addr cols rows font).sink = s.sink := rfl
@[simp] theorem initStart_faultValue (addr : BusAddr) (cols rows font : Byte) (s : State) : (s.initStart addr cols rows font).faultValue = s.faultValue := rfl

/-! ### `takeFault` -/

@[simp] theorem takeFault_addr (f : SeqFault) (s : State) : (s.takeFault f).addr = s.addr := rfl
@[simp] theorem takeFault_cols (f : SeqFault) (s : State) : (s.takeFault f).cols = s.cols := rfl
@[simp] theorem takeFault_rows (f : SeqFault) (s : State) : (s.takeFault f).rows = s.rows := rfl
@[simp] theorem takeFault_crow (f : SeqFault) (s : State) : (s.takeFault f).crow = s.crow := rfl
@[simp] theorem takeFault_ccol (f : SeqFault) (s : State) : (s.takeFault f).ccol = s.ccol := rfl
@[simp] theorem takeFault_bl (f : SeqFault) (s : State) : (s.takeFault f).bl = s.bl := rfl
@[simp] theorem takeFault_func (f : SeqFault) (s : State) : (s.takeFault f).func = s.func := rfl
@[simp] theorem takeFault_ctrl (f : SeqFault) (s : State) : (s.takeFault f).ctrl = s.ctrl := rfl
@[simp] theorem takeFault_mode (f : SeqFault) (s : State) : (s.takeFault f).mode = s.mode := rfl
@[simp] theorem takeFault_cp (f : SeqFault) (s : State) : (s.takeFault f).cp = s.cp := rfl
@[simp] theorem takeFault_inited (f : SeqFault) (s : State) : (s.takeFault f).inited = s.inited := rfl
@[simp] theorem takeFault_halt (f : SeqFault) (s : State) : (s.takeFault f).halt = true := rfl
@[simp] theorem takeFault_faultCode (f : SeqFault) (s : State) : (s.takeFault f).faultCode = f.code := rfl
@[simp] theorem takeFault_fcp (f : SeqFault) (s : State) : (s.takeFault f).fcp = some s.cp := rfl
@[simp] theorem takeFault_tvViol (f : SeqFault) (s : State) : (s.takeFault f).tvViol = s.tvViol := rfl
@[simp] theorem takeFault_tvSite (f : SeqFault) (s : State) : (s.takeFault f).tvSite = s.tvSite := rfl
@[simp] theorem takeFault_port (f : SeqFault) (s : State) : (s.takeFault f).port = s.port := rfl
@[simp] theorem takeFault_trace (f : SeqFault) (s : State) : (s.takeFault f).trace = s.trace := rfl
@[simp] theorem takeFault_cmd (f : SeqFault) (s : State) : (s.takeFault f).cmd = s.cmd := rfl
@[simp] theorem takeFault_cfg (f : SeqFault) (s : State) : (s.takeFault f).cfg = s.cfg := rfl
@[simp] theorem takeFault_sink (f : SeqFault) (s : State) : (s.takeFault f).sink = s.sink := rfl
@[simp] theorem takeFault_faultValue (f : SeqFault) (s : State) : (s.takeFault f).faultValue = some f := rfl

/-! ### `recordViolation` -/

@[simp] theorem recordViolation_addr (site : Site) (s : State) : (s.recordViolation site).addr = s.addr := rfl
@[simp] theorem recordViolation_cols (site : Site) (s : State) : (s.recordViolation site).cols = s.cols := rfl
@[simp] theorem recordViolation_rows (site : Site) (s : State) : (s.recordViolation site).rows = s.rows := rfl
@[simp] theorem recordViolation_crow (site : Site) (s : State) : (s.recordViolation site).crow = s.crow := rfl
@[simp] theorem recordViolation_ccol (site : Site) (s : State) : (s.recordViolation site).ccol = s.ccol := rfl
@[simp] theorem recordViolation_bl (site : Site) (s : State) : (s.recordViolation site).bl = s.bl := rfl
@[simp] theorem recordViolation_func (site : Site) (s : State) : (s.recordViolation site).func = s.func := rfl
@[simp] theorem recordViolation_ctrl (site : Site) (s : State) : (s.recordViolation site).ctrl = s.ctrl := rfl
@[simp] theorem recordViolation_mode (site : Site) (s : State) : (s.recordViolation site).mode = s.mode := rfl
@[simp] theorem recordViolation_cp (site : Site) (s : State) : (s.recordViolation site).cp = s.cp := rfl
@[simp] theorem recordViolation_inited (site : Site) (s : State) : (s.recordViolation site).inited = s.inited := rfl
@[simp] theorem recordViolation_halt (site : Site) (s : State) : (s.recordViolation site).halt = s.halt := rfl
@[simp] theorem recordViolation_faultCode (site : Site) (s : State) : (s.recordViolation site).faultCode = s.faultCode := rfl
@[simp] theorem recordViolation_fcp (site : Site) (s : State) : (s.recordViolation site).fcp = s.fcp := rfl
@[simp] theorem recordViolation_tvViol (site : Site) (s : State) : (s.recordViolation site).tvViol = true := rfl
@[simp] theorem recordViolation_tvSite (site : Site) (s : State) : (s.recordViolation site).tvSite = some (siteNumber site) := rfl
@[simp] theorem recordViolation_port (site : Site) (s : State) : (s.recordViolation site).port = s.port := rfl
@[simp] theorem recordViolation_trace (site : Site) (s : State) : (s.recordViolation site).trace = s.trace := rfl
@[simp] theorem recordViolation_cmd (site : Site) (s : State) : (s.recordViolation site).cmd = s.cmd := rfl
@[simp] theorem recordViolation_cfg (site : Site) (s : State) : (s.recordViolation site).cfg = s.cfg := rfl
@[simp] theorem recordViolation_sink (site : Site) (s : State) : (s.recordViolation site).sink = s.sink := rfl
@[simp] theorem recordViolation_faultValue (site : Site) (s : State) : (s.recordViolation site).faultValue = s.faultValue := rfl

/-! ### `emitted` -/

@[simp] theorem emitted_addr (es : List Event) (s : State) : (s.emitted es).addr = s.addr := rfl
@[simp] theorem emitted_cols (es : List Event) (s : State) : (s.emitted es).cols = s.cols := rfl
@[simp] theorem emitted_rows (es : List Event) (s : State) : (s.emitted es).rows = s.rows := rfl
@[simp] theorem emitted_crow (es : List Event) (s : State) : (s.emitted es).crow = s.crow := rfl
@[simp] theorem emitted_ccol (es : List Event) (s : State) : (s.emitted es).ccol = s.ccol := rfl
@[simp] theorem emitted_bl (es : List Event) (s : State) : (s.emitted es).bl = s.bl := rfl
@[simp] theorem emitted_func (es : List Event) (s : State) : (s.emitted es).func = s.func := rfl
@[simp] theorem emitted_ctrl (es : List Event) (s : State) : (s.emitted es).ctrl = s.ctrl := rfl
@[simp] theorem emitted_mode (es : List Event) (s : State) : (s.emitted es).mode = s.mode := rfl
@[simp] theorem emitted_cp (es : List Event) (s : State) : (s.emitted es).cp = s.cp := rfl
@[simp] theorem emitted_inited (es : List Event) (s : State) : (s.emitted es).inited = s.inited := rfl
@[simp] theorem emitted_halt (es : List Event) (s : State) : (s.emitted es).halt = s.halt := rfl
@[simp] theorem emitted_faultCode (es : List Event) (s : State) : (s.emitted es).faultCode = s.faultCode := rfl
@[simp] theorem emitted_fcp (es : List Event) (s : State) : (s.emitted es).fcp = s.fcp := rfl
@[simp] theorem emitted_tvViol (es : List Event) (s : State) : (s.emitted es).tvViol = s.tvViol := rfl
@[simp] theorem emitted_tvSite (es : List Event) (s : State) : (s.emitted es).tvSite = s.tvSite := rfl
@[simp] theorem emitted_port (es : List Event) (s : State) : (s.emitted es).port = portAfter s.port es := rfl
@[simp] theorem emitted_trace (es : List Event) (s : State) : (s.emitted es).trace = s.trace ++ es := rfl
@[simp] theorem emitted_cmd (es : List Event) (s : State) : (s.emitted es).cmd = s.cmd := rfl
@[simp] theorem emitted_cfg (es : List Event) (s : State) : (s.emitted es).cfg = s.cfg := rfl
@[simp] theorem emitted_sink (es : List Event) (s : State) : (s.emitted es).sink = s.sink.after (busWrites es) := rfl
@[simp] theorem emitted_faultValue (es : List Event) (s : State) : (s.emitted es).faultValue = s.faultValue := rfl

end Sys2Proof.Machine
end

