-- ==== Sys2Proof/Laws/Events.lean ====
section
/-! SUPPORT. Lists of events: how the functions of Safety.lean read a concatenation. -/

namespace Sys2Proof.Machine

@[simp] theorem portAfter_append (p : Option Byte) (es fs : List Event) :
    portAfter p (es ++ fs) = portAfter (portAfter p es) fs := by
  induction es generalizing p with
  | nil => rfl
  | cons e es ih => cases e <;> simp [portAfter, ih]

@[simp] theorem busWrites_append (es fs : List Event) : busWrites (es ++ fs) = busWrites es + busWrites fs := by
  induction es with
  | nil => simp [busWrites]
  | cons e es ih => cases e <;> (simp [busWrites, ih]; try omega)

@[simp] theorem requestedTime_append (es fs : List Event) :
    requestedTime (es ++ fs) = requestedTime es + requestedTime fs := by
  induction es with
  | nil => simp [requestedTime]
  | cons e es ih => cases e <;> (simp [requestedTime, ih]; try omega)

theorem Sink.after_after (k : Sink) (m n : Nat) : (k.after m).after n = k.after (m + n) := by
  simp [Sink.after, List.drop_drop]

@[simp] theorem emitted_nil (s : State) : s.emitted [] = s := by
  simp [State.emitted, portAfter, busWrites, Sink.after]

/-- Two runs of events one after the other are one run of their concatenation. -/
@[simp] theorem emitted_emitted (s : State) (es fs : List Event) :
    (s.emitted es).emitted fs = s.emitted (es ++ fs) := by
  simp [State.emitted, Sink.after_after]

/-- Pairing of strobes goes through a concatenation when it holds of both parts. -/
theorem strobesPaired_append {en : Byte} {es fs : List Event} (he : strobesPaired en es) (hf : strobesPaired en fs) :
    strobesPaired en (es ++ fs) := by
  induction es with
  | nil => exact hf
  | cons e es ih =>
    cases e with
    | w a b =>
      refine ⟨fun hb => ?_, ih he.2⟩
      obtain ⟨d₁, d₂, es', rfl⟩ := he.1 hb
      exact ⟨d₁, d₂, es' ++ fs, rfl⟩
    | wf a b => exact ih he
    | d site us => exact ih he

/-! Updates that touch no field of the bus and delay ports commute with a run of events. -/

theorem putCtrl_emitted (v : Byte) (s : State) (es : List Event) :
    (s.putCtrl v).emitted es = (s.emitted es).putCtrl v := rfl

theorem putMode_emitted (v : Byte) (s : State) (es : List Event) :
    (s.putMode v).emitted es = (s.emitted es).putMode v := rfl

theorem putBl_emitted (v : Byte) (s : State) (es : List Event) :
    (s.putBl v).emitted es = (s.emitted es).putBl v := rfl

theorem putCursor_emitted (row col : Byte) (s : State) (es : List Event) :
    (s.putCursor row col).emitted es = (s.emitted es).putCursor row col := rfl

/-- P4 speaks of the sink alone, and a clean sink stays clean. -/
theorem State.SinkClean.emitted {s : State} (h : s.SinkClean) (es : List Event) : (s.emitted es).SinkClean :=
  ⟨h.1, fun a ha => h.2 a (List.mem_of_mem_drop ha)⟩

theorem State.SinkClean.answer {s : State} (h : s.SinkClean) : s.sink.answer = .success := by
  unfold Sink.answer
  split
  · exact h.1
  · next a _ heq => exact h.2 a (by simp [heq])

end Sys2Proof.Machine
end

