-- ==== Sys2Proof/Laws/Transport.lean ====
section
/-! SUPPORT. What the micro-operations can do: each runs a fixed list of events to its end, or stops inside it
at a failed bus write or at a delay below its floor. -/

namespace Sys2Proof.Machine

/-- A micro-operation that touches only the bus and the delay port and plans the events `plan`: it runs them
all, or a write of the plan fails (then the sink is not clean), or a delay of the plan is below its floor.
Every event before the stop is one a run goes on after. -/
inductive BusRun (plan : List Event) (s : State) : Micro → Prop where
  | ran (hok : ∀ e ∈ plan, e.accepted) : BusRun plan s (.done (s.emitted plan))
  | busFailed (es rest : List Event) (a : BusAddr) (b : Byte) (hplan : plan = es ++ .w a b :: rest)
      (hok : ∀ e ∈ es, e.accepted) (hsink : ¬ s.SinkClean) :
      BusRun plan s (.raised (.busTransportFailure b) (s.emitted (es ++ [.wf a b])))
  | tooShort (es rest : List Event) (site : Site) (hplan : plan = es ++ delayEvent s.cfg site :: rest)
      (hok : ∀ e ∈ es, e.accepted) (hshort : delayOf s.cfg.dly site < floorOf site) :
      BusRun plan s
        (.raised (.timingViolation site) ((s.emitted (es ++ [delayEvent s.cfg site])).recordViolation site))

/-- Under the premises P3 and P4 the plan runs to its end. -/
theorem BusRun.of_good {plan : List Event} {s : State} {m : Micro} (h : BusRun plan s m)
    (hd : s.DelaysMeetFloors) (hs : s.SinkClean) : m = .done (s.emitted plan) := by
  cases h with
  | ran _ => rfl
  | busFailed _ _ _ _ _ _ hsink => exact absurd hs hsink
  | tooShort _ _ site _ _ hshort => exact absurd (hd site) (by omega)

/-- One bus-only statement after another. -/
theorem BusRun.andThen {p q : List Event} {s : State} {m : Micro} {f : State → Micro} (h : BusRun p s m)
    (hf : BusRun q (s.emitted p) (f (s.emitted p))) : BusRun (p ++ q) s (m.andThen f) := by
  cases h with
  | ran hp =>
    have both : ∀ es : List Event, (∀ e ∈ es, e.accepted) → ∀ e ∈ p ++ es, e.accepted := fun es hes e he =>
      (List.mem_append.mp he).elim (hp e) (hes e)
    show BusRun (p ++ q) s (f (s.emitted p))
    generalize f (s.emitted p) = m at hf
    cases hf with
    | ran hq => rw [emitted_emitted]; exact .ran (both q hq)
    | busFailed es rest a b hq hok hsink =>
      rw [emitted_emitted, ← List.append_assoc]
      exact .busFailed (p ++ es) rest a b (by simp [hq]) (both es hok) (fun h => hsink (h.emitted p))
    | tooShort es rest site hq hok hshort =>
      rw [emitted_emitted, ← List.append_assoc]
      exact .tooShort (p ++ es) rest site (by rw [hq, List.append_assoc]; rfl) (both es hok) hshort
  | busFailed es rest a b hp hok hsink => exact .busFailed es (rest ++ q) a b (by simp [hp]) hok hsink
  | tooShort es rest site hp hok hshort => exact .tooShort es (rest ++ q) site (by simp [hp]) hok hshort

theorem runSeq_nil (s : State) : BusRun [] s (runSeq [] s) := by
  have h := BusRun.ran (plan := []) (s := s) (by simp)
  rwa [emitted_nil] at h

theorem runSeq_cons {p q : List Event} {s : State} {op : State → Micro} {ops : List (State → Micro)}
    (h : BusRun p s (op s)) (hs : BusRun q (s.emitted p) (runSeq ops (s.emitted p))) :
    BusRun (p ++ q) s (runSeq (op :: ops) s) :=
  h.andThen hs

/-- `BusWrite` with its raise (20_memory.md R44, 60_exceptions.md R177). -/
theorem busSend_run (a : BusAddr) (b : Byte) (s : State) : BusRun [.w a b] s (busSend a b s) := by
  unfold busSend busWrite
  cases h : s.sink.answer with
  | success => exact .ran (by simp [Event.accepted])
  | failure => exact .busFailed [] [] a b rfl (by simp) fun hc => by rw [hc.answer] at h; cases h

/-- `transmit` (40_transport.md R80). -/
theorem transmit_run {s : State} {a : BusAddr} {bl : Byte} (ha : s.addr = some a) (hb : s.bl = some bl) (v : Byte) :
    BusRun [.w a (v ||| bl)] s (transmit v s) := by
  simpa [transmit, readReg, ha, hb] using busSend_run a (v ||| bl) s

/-- `Delay` and the validator (43_timing_validator.md R152, R153). -/
theorem delay_run (site : Site) (s : State) : BusRun [delayEvent s.cfg site] s (delay site s) := by
  unfold delay
  split
  · next h => exact .tooShort [] [] site rfl (by simp) h
  · next h => exact .ran (by simpa [delayEvent, Event.accepted] using h)

/-- `writeNibble` (40_transport.md R82). -/
theorem writeNibble_run {s : State} {a : BusAddr} {bl : Byte} (ha : s.addr = some a) (hb : s.bl = some bl) (v : Byte) :
    BusRun (nibbleEvents s.cfg a bl v) s (writeNibble v s) := by
  have h := runSeq_cons (transmit_run ha hb (v ||| s.cfg.k.en))
    (runSeq_cons (delay_run .sEn _) (runSeq_cons (transmit_run (by simpa using ha) (by simpa using hb) (v &&& ~~~s.cfg.k.en))
      (runSeq_cons (delay_run .sSettle _) (runSeq_nil _))))
  simpa [nibbleEvents, writeNibble] using h

/-- `writeByte` (40_transport.md R83). -/
theorem writeByte_run {s : State} {a : BusAddr} {bl : Byte} (ha : s.addr = some a) (hb : s.bl = some bl) (v m : Byte) :
    BusRun (byteEvents s.cfg a bl v m) s (writeByte v m s) := by
  have h := runSeq_cons (writeNibble_run ha hb (hiNibble v ||| m))
    (runSeq_cons (writeNibble_run (by simpa using ha) (by simpa using hb) (loNibble v ||| m)) (runSeq_nil _))
  simpa [byteEvents, hiNibble, loNibble, writeByte] using h

/-- `sendCommand` (40_transport.md R85). -/
theorem sendCommand_run {s : State} {a : BusAddr} {bl : Byte} (ha : s.addr = some a) (hb : s.bl = some bl) (c : Byte) :
    BusRun (commandEvents s.cfg a bl c) s (sendCommand c s) := writeByte_run ha hb c 0

/-- `sendCharacter` (40_transport.md R86). -/
theorem sendCharacter_run {s : State} {a : BusAddr} {bl : Byte} (ha : s.addr = some a) (hb : s.bl = some bl) (c : Byte) :
    BusRun (characterEvents s.cfg a bl c) s (sendCharacter c s) := writeByte_run ha hb c _

/-- A text sent character by character (40_transport.md R92, 42_display_control.md R139). -/
theorem sendText_run {s : State} {a : BusAddr} {bl : Byte} (ha : s.addr = some a) (hb : s.bl = some bl)
    (text : List Byte) : BusRun (textEvents s.cfg a bl text) s (runSeq (text.map sendCharacter) s) := by
  induction text generalizing s with
  | nil => exact runSeq_nil s
  | cons b bs ih => exact runSeq_cons (sendCharacter_run ha hb b) (ih (s := s.emitted _) ha hb)

/-- `homeOp` (42_display_control.md R121). -/
theorem homeOp_run {s : State} {a : BusAddr} {bl : Byte} (ha : s.addr = some a) (hb : s.bl = some bl) :
    BusRun (homeEvents s.cfg a bl) s (homeOp s) := by
  have h := runSeq_cons (sendCommand_run ha hb s.cfg.k.returnHome) (runSeq_cons (delay_run .sHome _) (runSeq_nil _))
  simpa [homeEvents, homeOp] using h

/-- Steps 1 to 4 of `INIT` (41_init.md R103 to R106). -/
theorem initRecovery_run {s : State} {a : BusAddr} {bl : Byte} (ha : s.addr = some a) (hb : s.bl = some bl) :
    BusRun (recoveryEvents s.cfg a bl) s (initRecovery s) := by
  have h := runSeq_cons (delay_run .sPwr s) <|
    runSeq_cons (transmit_run (by simpa using ha) (by simpa using hb) s.cfg.k.resetByte) <|
    runSeq_cons (delay_run .sRst _) <|
    runSeq_cons (transmit_run (by simpa using ha) (by simpa using hb) s.cfg.k.initForce8) <|
    runSeq_cons (delay_run .sI1 _) <|
    runSeq_cons (writeNibble_run (by simpa using ha) (by simpa using hb) s.cfg.k.initForce8) <|
    runSeq_cons (delay_run .sI2 _) <|
    runSeq_cons (writeNibble_run (by simpa using ha) (by simpa using hb) s.cfg.k.initForce8) <|
    runSeq_cons (delay_run .sI3 _) <|
    runSeq_cons (writeNibble_run (by simpa using ha) (by simpa using hb) s.cfg.k.initSet4) (runSeq_nil _)
  simpa [recoveryEvents, initRecovery] using h

end Sys2Proof.Machine
end

