-- ==== Sys2Proof/Laws/Exec.lean ====
section
/-! SUPPORT. What a command can do, said once: `exec_cases`. A command plans a list of events and a register
write, and either carries the plan out, or stops inside it with a fault of the block. -/

namespace Sys2Proof.Machine

/-- A command body from the state `u`: it runs its plan and makes its register write `put`, or it stops inside
the plan. `stages` lists the register writes it may have made before a stop (only `INIT` makes any), `bad` the
operand faults it can raise, `good` what is known of the operands when it ran to its end. -/
inductive BodyRun (bad : SeqFault → Prop) (good : Prop) (stages : List (State → State)) (plan : List Event)
    (put : State → State) (u : State) : Micro → Prop where
  | ran (hgood : good) (hok : ∀ e ∈ plan, e.accepted) : BodyRun bad good stages plan put u (.done (put (u.emitted plan)))
  | busFailed (g : State → State) (es rest : List Event) (a : BusAddr) (b : Byte) (hg : g ∈ stages)
      (hplan : plan = es ++ .w a b :: rest) (hok : ∀ e ∈ es, e.accepted) (hsink : ¬ u.SinkClean) :
      BodyRun bad good stages plan put u (.raised (.busTransportFailure b) (g (u.emitted (es ++ [.wf a b]))))
  | tooShort (g : State → State) (es rest : List Event) (site : Site) (hg : g ∈ stages)
      (hplan : plan = es ++ delayEvent u.cfg site :: rest) (hok : ∀ e ∈ es, e.accepted)
      (hshort : delayOf u.cfg.dly site < floorOf site) :
      BodyRun bad good stages plan put u (.raised (.timingViolation site)
        ((g (u.emitted (es ++ [delayEvent u.cfg site]))).recordViolation site))
  | operand (g : State → State) (es rest : List Event) (f : SeqFault) (hg : g ∈ stages) (hbad : bad f)
      (hplan : plan = es ++ rest) (hok : ∀ e ∈ es, e.accepted) :
      BodyRun bad good stages plan put u (.raised f (g (u.emitted es)))

/-- What is known at the end of a body can be said more weakly. -/
theorem BodyRun.imp {bad : SeqFault → Prop} {good good' : Prop} {stages : List (State → State)} {plan : List Event}
    {put : State → State} {u : State} {m : Micro} (h : BodyRun bad good stages plan put u m) (hg : good → good') :
    BodyRun bad good' stages plan put u m := by
  cases h with
  | ran hgood hok => exact .ran (hg hgood) hok
  | busFailed g es rest a b hg hp hok hs => exact .busFailed g es rest a b hg hp hok hs
  | tooShort g es rest site hg hp hok hd => exact .tooShort g es rest site hg hp hok hd
  | operand g es rest f hg hb hp hok => exact .operand g es rest f hg hb hp hok

/-- A bus-only body. -/
theorem BusRun.body {plan : List Event} {s : State} {m : Micro} {good : Prop} (bad : SeqFault → Prop) (hgood : good)
    (h : BusRun plan s m) :
    BodyRun bad good [id] plan id s m := by
  cases h with
  | ran hok => exact .ran hgood hok
  | busFailed es rest a b hp hok hs => exact .busFailed id es rest a b (by simp) hp hok hs
  | tooShort es rest site hp hok hd => exact .tooShort id es rest site (by simp) hp hok hd

/-- Bus events and then one register write: "the register is written after the send" (42_display_control.md R136). -/
theorem BusRun.commit {plan : List Event} {s : State} {op : State → Micro} {good : Prop}
    (bad : SeqFault → Prop) (hgood : good) (put : State → State) (h : BusRun plan s (op s)) :
    BodyRun bad good [id] plan put s (runSeq [op, Sys2Proof.Machine.commit put] s) := by
  show BodyRun bad good [id] plan put s ((op s).andThen _)
  generalize op s = m at h
  cases h with
  | ran hok => exact .ran hgood hok
  | busFailed es rest a b hp hok hs => exact .busFailed id es rest a b (by simp) hp hok hs
  | tooShort es rest site hp hok hd => exact .tooShort id es rest site (by simp) hp hok hd

/-- The operand faults of a command (42_display_control.md R122, R139; 41_init.md R109). -/
inductive OperandFault (s : State) : Instr → SeqFault → Prop where
  | row {row col rows : Byte} (hrows : s.rows = some rows)
      (h : rowOffset s.cfg.k row = none ∨ rowBeyond row rows = true) :
      OperandFault s (.setcursor row col) (.invalidRowIndex row)
  | clearRow {rows : Byte} (hrows : s.rows = some rows) (h : rowBeyond 0 rows = true) :
      OperandFault s .clear (.invalidRowIndex 0)
  | initRow {addr : BusAddr} {cols rows font : Byte} (h : rowBeyond 0 rows = true) :
      OperandFault s (.init addr cols rows font) (.invalidRowIndex 0)
  | slot {slot p0 p1 p2 p3 p4 p5 p6 p7 : Byte} (hpol : s.cfg.slotPolicy = .reject) (h : slotBeyond slot = true) :
      OperandFault s (.mkchar slot p0 p1 p2 p3 p4 p5 p6 p7) (.invalidSlotIndex slot)

/-- The commands that check their operand before any event (42_display_control.md R122, R139). -/
inductive ChecksFirst : Instr → Prop where
  | setcursor (row col : Byte) : ChecksFirst (.setcursor row col)
  | mkchar (slot p0 p1 p2 p3 p4 p5 p6 p7 : Byte) : ChecksFirst (.mkchar slot p0 p1 p2 p3 p4 p5 p6 p7)

/-- The register writes `INIT` has made before each point it can stop at (41_init.md R108 to R110, R115). -/
def initStages (k : Constants) : List (State → State) :=
  [id, State.putCtrl k.displayOn, fun s => (s.putCtrl k.displayOn).putCursor 0 0,
    fun s => ((s.putCtrl k.displayOn).putCursor 0 0).putMode k.entryLeft]

/-- The register writes of a whole `INIT` after its start (41_init.md R108 to R112). -/
def initPut (k : Constants) (s : State) : State :=
  (((s.putCtrl k.displayOn).putCursor 0 0).putMode k.entryLeft).putInited

/-- The effect of each command as the spec gives it: from which state its events start, the register writes it
may have made before a stop, the events and the final register write. -/
inductive Effect (s : State) : Instr → State → List (State → State) → List Event → (State → State) → Prop where
  | init (addr : BusAddr) (cols rows font : Byte) :
      Effect s (.init addr cols rows font) (s.initStart addr cols rows font) (initStages s.cfg.k)
        (initEvents s.cfg addr (resolve s.cfg.k rows font)) (initPut s.cfg.k)
  | clear {a : BusAddr} {bl : Byte} (h : s.Open a bl) :
      Effect s .clear s [id] (clearEvents s.cfg a bl) (State.putCursor 0 0)
  | home {a : BusAddr} {bl : Byte} (h : s.Open a bl) : Effect s .home s [id] (homeEvents s.cfg a bl) id
  | setcursor {a : BusAddr} {bl row col offset rows : Byte} (h : s.Open a bl) (hrows : s.rows = some rows)
      (hoff : rowOffset s.cfg.k row = some offset) (hrow : rowBeyond row rows = false) :
      Effect s (.setcursor row col) s [id]
        (commandEvents s.cfg a bl (s.cfg.k.setDdramAddr ||| (col + offset))) (State.putCursor row col)
  | dispoff {a : BusAddr} {bl old : Byte} (h : s.Open a bl) (hc : s.ctrl = some old) :
      Effect s .dispoff s [id] (commandEvents s.cfg a bl (s.cfg.k.displayControl ||| (old &&& ~~~s.cfg.k.displayOn)))
        (State.putCtrl (old &&& ~~~s.cfg.k.displayOn))
  | dispon {a : BusAddr} {bl old : Byte} (h : s.Open a bl) (hc : s.ctrl = some old) :
      Effect s .dispon s [id] (commandEvents s.cfg a bl (s.cfg.k.displayControl ||| (old ||| s.cfg.k.displayOn)))
        (State.putCtrl (old ||| s.cfg.k.displayOn))
  | curoff {a : BusAddr} {bl old : Byte} (h : s.Open a bl) (hc : s.ctrl = some old) :
      Effect s .curoff s [id] (commandEvents s.cfg a bl (s.cfg.k.displayControl ||| (old &&& ~~~s.cfg.k.cursorOn)))
        (State.putCtrl (old &&& ~~~s.cfg.k.cursorOn))
  | curon {a : BusAddr} {bl old : Byte} (h : s.Open a bl) (hc : s.ctrl = some old) :
      Effect s .curon s [id] (commandEvents s.cfg a bl (s.cfg.k.displayControl ||| (old ||| s.cfg.k.cursorOn)))
        (State.putCtrl (old ||| s.cfg.k.cursorOn))
  | blnkoff {a : BusAddr} {bl old : Byte} (h : s.Open a bl) (hc : s.ctrl = some old) :
      Effect s .blnkoff s [id] (commandEvents s.cfg a bl (s.cfg.k.displayControl ||| (old &&& ~~~s.cfg.k.blinkOn)))
        (State.putCtrl (old &&& ~~~s.cfg.k.blinkOn))
  | blnkon {a : BusAddr} {bl old : Byte} (h : s.Open a bl) (hc : s.ctrl = some old) :
      Effect s .blnkon s [id] (commandEvents s.cfg a bl (s.cfg.k.displayControl ||| (old ||| s.cfg.k.blinkOn)))
        (State.putCtrl (old ||| s.cfg.k.blinkOn))
  | scrl {a : BusAddr} {bl : Byte} (h : s.Open a bl) :
      Effect s .scrl s [id]
        (commandEvents s.cfg a bl (s.cfg.k.cursorShift ||| s.cfg.k.displayMove ||| s.cfg.k.moveLeft)) id
  | scrr {a : BusAddr} {bl : Byte} (h : s.Open a bl) :
      Effect s .scrr s [id]
        (commandEvents s.cfg a bl (s.cfg.k.cursorShift ||| s.cfg.k.displayMove ||| s.cfg.k.moveRight)) id
  | rtl {a : BusAddr} {bl old : Byte} (h : s.Open a bl) (hm : s.mode = some old) :
      Effect s .rtl s [id] (commandEvents s.cfg a bl (s.cfg.k.entryModeSet ||| (old &&& ~~~s.cfg.k.entryLeft)))
        (State.putMode (old &&& ~~~s.cfg.k.entryLeft))
  | ltr {a : BusAddr} {bl old : Byte} (h : s.Open a bl) (hm : s.mode = some old) :
      Effect s .ltr s [id] (commandEvents s.cfg a bl (s.cfg.k.entryModeSet ||| (old ||| s.cfg.k.entryLeft)))
        (State.putMode (old ||| s.cfg.k.entryLeft))
  | ascroff {a : BusAddr} {bl old : Byte} (h : s.Open a bl) (hm : s.mode = some old) :
      Effect s .ascroff s [id] (commandEvents s.cfg a bl (s.cfg.k.entryModeSet ||| (old &&& ~~~s.cfg.k.autoscroll)))
        (State.putMode (old &&& ~~~s.cfg.k.autoscroll))
  | ascron {a : BusAddr} {bl old : Byte} (h : s.Open a bl) (hm : s.mode = some old) :
      Effect s .ascron s [id] (commandEvents s.cfg a bl (s.cfg.k.entryModeSet ||| (old ||| s.cfg.k.autoscroll)))
        (State.putMode (old ||| s.cfg.k.autoscroll))
  | bloff {a : BusAddr} (hi : s.inited = true) (ha : s.addr = some a) :
      Effect s .bloff s [id] [.w a s.cfg.k.backlightOff] (State.putBl s.cfg.k.backlightOff)
  | blon {a : BusAddr} (hi : s.inited = true) (ha : s.addr = some a) :
      Effect s .blon s [id] [.w a s.cfg.k.backlightOn] (State.putBl s.cfg.k.backlightOn)
  | mkchar {a : BusAddr} {bl slot p0 p1 p2 p3 p4 p5 p6 p7 : Byte} (h : s.Open a bl)
      (hslot : ¬ (s.cfg.slotPolicy = .reject ∧ slotBeyond slot = true)) :
      Effect s (.mkchar slot p0 p1 p2 p3 p4 p5 p6 p7) s [id]
        (commandEvents s.cfg a bl (s.cfg.k.setCgramAddr ||| ((slot &&& 0x07) <<< 3))
          ++ textEvents s.cfg a bl [p0, p1, p2, p3, p4, p5, p6, p7]) id
  | print {a : BusAddr} {bl : Byte} (h : s.Open a bl) (text : List Byte) :
      Effect s (.print text) s [id] (textEvents s.cfg a bl text) id
  | printNothing (hi : s.inited = true) : Effect s (.print []) s [id] [] id
  | sendcmd {a : BusAddr} {bl : Byte} (h : s.Open a bl) (v : Byte) :
      Effect s (.sendcmd v) s [id] (commandEvents s.cfg a bl v) id
  | sendchr {a : BusAddr} {bl : Byte} (h : s.Open a bl) (v : Byte) :
      Effect s (.sendchr v) s [id] (characterEvents s.cfg a bl v) id

/-- What `exec` can answer. -/
inductive ExecResult (s : State) (i : Instr) : Host.Outcome State Fault Refusal → Prop where
  /-- The fault of a command before `INIT` (60_exceptions.md R173). -/
  | notInitialized (hi : s.inited = false) (hinit : ∀ addr cols rows font, i ≠ .init addr cols rows font) :
      ExecResult s i (.next (s.takeFault (.notInitialized (opcode i))))
  /-- The command ran, or stopped, as its effect says. -/
  | ran {u : State} {stages : List (State → State)} {plan : List Event} {put : State → State} {m : Micro}
      (he : Effect s i u stages plan put) (h : BodyRun (OperandFault s i) (∀ f, ¬ OperandFault s i f) stages plan put u m) :
      ExecResult s i (finish (lengthOf i) m)
  /-- An operand fault before any event (60_exceptions.md R179, 5). -/
  | operand {f : SeqFault} (hi : s.inited = true) (hfirst : ChecksFirst i) (hf : OperandFault s i f) :
      ExecResult s i (.next (s.takeFault f))
  /-- A register that holds no value was read (10_state.md R12). -/
  | unwritten (r : Reg) (hi : s.inited = true)
      (h : s.addr = none ∨ s.bl = none ∨ s.rows = none ∨ s.ctrl = none ∨ s.mode = none)
      (hno : (i = .clear ∧ s.rows = none) ∨ ∀ u stages plan put, ¬ Effect s i u stages plan put) :
      ExecResult s i (.fault (.unwrittenRegister r))

/-! ### Bodies built from parts -/

theorem andThen_runSeq_cons (m : Micro) (op : State → Micro) (ops : List (State → Micro)) :
    m.andThen (runSeq (op :: ops)) = (m.andThen op).andThen (runSeq ops) := by
  cases m <;> rfl

theorem andThen_runSeq_nil (m : Micro) : m.andThen (runSeq []) = m := by
  cases m <;> rfl

/-- A register write that leaves the bus and delay ports and the parameters alone. -/
structure PurePut (g : State → State) : Prop where
  emitted : ∀ s es, (g s).emitted es = g (s.emitted es)
  cfg : ∀ s, (g s).cfg = s.cfg
  sink : ∀ s, (g s).sink = s.sink

/-- More events after a part of a body. -/
theorem BodyRun.thenBus {bad : SeqFault → Prop} {good : Prop} {stages : List (State → State)} {p q : List Event}
    {g : State → State} {u : State} {m : Micro} {f : State → Micro} (h : BodyRun bad good stages p g u m)
    (hg : g ∈ stages) (hp : PurePut g) (hf : BusRun q (g (u.emitted p)) (f (g (u.emitted p)))) :
    BodyRun bad good stages (p ++ q) g u (m.andThen f) := by
  cases h with
  | ran hgood hok =>
    have both : ∀ es : List Event, (∀ e ∈ es, e.accepted) → ∀ e ∈ p ++ es, e.accepted := fun es hes e he =>
      (List.mem_append.mp he).elim (hok e) (hes e)
    have hc : (g (u.emitted p)).cfg = u.cfg := hp.cfg _
    show BodyRun bad good stages (p ++ q) g u (f (g (u.emitted p)))
    generalize f (g (u.emitted p)) = m at hf
    cases hf with
    | ran hq => rw [hp.emitted, emitted_emitted]; exact .ran hgood (both q hq)
    | busFailed es rest a b hq hes hsink =>
      rw [hp.emitted, emitted_emitted, ← List.append_assoc]
      refine .busFailed g (p ++ es) rest a b hg (by simp [hq]) (both es hes) fun hs => hsink ?_
      have := hs.emitted p
      simpa [State.SinkClean, hp.sink] using this
    | tooShort es rest site hq hes hshort =>
      rw [hp.emitted, emitted_emitted, ← List.append_assoc, hc]
      rw [hc] at hq hshort
      exact .tooShort g (p ++ es) rest site hg (by simp [hq]) (both es hes) hshort
  | busFailed g' es rest a b hg' hp' hok hs => exact .busFailed g' es (rest ++ q) a b hg' (by simp [hp']) hok hs
  | tooShort g' es rest site hg' hp' hok hd => exact .tooShort g' es (rest ++ q) site hg' (by simp [hp']) hok hd
  | operand g' es rest f hg' hb hp' hok => exact .operand g' es (rest ++ q) f hg' hb (by simp [hp']) hok

/-- A register write after a part of a body. -/
theorem BodyRun.thenPut {bad : SeqFault → Prop} {good : Prop} {stages : List (State → State)} {p : List Event}
    {g : State → State} {u : State} {m : Micro} (put : State → State) (h : BodyRun bad good stages p g u m) :
    BodyRun bad good stages p (fun s => put (g s)) u (m.andThen (Sys2Proof.Machine.commit put)) := by
  cases h with
  | ran hgood hok => exact .ran hgood hok
  | busFailed g' es rest a b hg' hp' hok hs => exact .busFailed g' es rest a b hg' hp' hok hs
  | tooShort g' es rest site hg' hp' hok hd => exact .tooShort g' es rest site hg' hp' hok hd
  | operand g' es rest f hg' hb hp' hok => exact .operand g' es rest f hg' hb hp' hok

/-- A bus-only start of a body with more stages to come. -/
theorem BusRun.start {bad : SeqFault → Prop} {good : Prop} {stages : List (State → State)} {plan : List Event} {s : State}
    {m : Micro} (h : BusRun plan s m) (hgood : good) (hid : id ∈ stages) : BodyRun bad good stages plan id s m := by
  cases h with
  | ran hok => exact .ran hgood hok
  | busFailed es rest a b hp hok hs => exact .busFailed id es rest a b hid hp hok hs
  | tooShort es rest site hp hok hd => exact .tooShort id es rest site hid hp hok hd

/-- `setCursorOp` raises before any event (42_display_control.md R122). -/
theorem setCursorOp_bad {s : State} {row col rows : Byte} (hr : s.rows = some rows)
    (h : rowOffset s.cfg.k row = none ∨ rowBeyond row rows = true) :
    setCursorOp row col s = .raised (.invalidRowIndex row) s := by
  unfold setCursorOp readReg
  rw [hr]
  cases ho : rowOffset s.cfg.k row with
  | none => rfl
  | some offset =>
    have : rowBeyond row rows = true := h.resolve_left (by simp [ho])
    simp [this]

/-- `setCursorOp` with a row it accepts (42_display_control.md R122). -/
theorem setCursorOp_good {s : State} {row col rows offset : Byte} (hr : s.rows = some rows)
    (ho : rowOffset s.cfg.k row = some offset) (h : rowBeyond row rows = false) :
    setCursorOp row col s = (sendCommand (s.cfg.k.setDdramAddr ||| (col + offset)) s).andThen
      (Sys2Proof.Machine.commit (State.putCursor row col)) := by
  unfold setCursorOp readReg
  rw [hr, ho]
  simp only [h, Bool.false_eq_true, if_false]
  show (sendCommand _ s).andThen (runSeq [_]) = _
  rw [andThen_runSeq_cons, andThen_runSeq_nil]
  rfl

/-- `setCursorOp(0, 0)` after a part of a body (42_display_control.md R120, R122). -/
theorem BodyRun.thenCursorReset {bad : SeqFault → Prop} {good : Prop} {stages : List (State → State)} {p : List Event}
    {g : State → State} {u : State} {m : Micro} {a : BusAddr} {bl rows : Byte} (h : BodyRun bad good stages p g u m)
    (hg : g ∈ stages) (hp : PurePut g) (ha : (g u).addr = some a) (hb : (g u).bl = some bl)
    (hr : (g u).rows = some rows) (hbad : rowBeyond 0 rows = true → bad (.invalidRowIndex 0)) :
    BodyRun bad (good ∧ rowBeyond 0 rows = false) stages
      (p ++ commandEvents u.cfg a bl (u.cfg.k.setDdramAddr ||| u.cfg.k.rowOff0)) (fun s => (g s).putCursor 0 0) u (m.andThen (setCursorOp 0 0)) := by
  have hc : (g (u.emitted p)).cfg = u.cfg := hp.cfg _
  have ha' : (g (u.emitted p)).addr = some a := by rw [← hp.emitted]; exact ha
  have hb' : (g (u.emitted p)).bl = some bl := by rw [← hp.emitted]; exact hb
  have hr' : (g (u.emitted p)).rows = some rows := by rw [← hp.emitted]; exact hr
  have hs := sendCommand_run ha' hb' (u.cfg.k.setDdramAddr ||| u.cfg.k.rowOff0)
  rw [hc] at hs
  have hrun := (h.thenBus hg hp hs).thenPut (State.putCursor 0 0)
  let tail := commandEvents u.cfg a bl (u.cfg.k.setDdramAddr ||| u.cfg.k.rowOff0)
  cases h with
  | ran hgood hok =>
    cases hrow : rowBeyond 0 rows with
    | true =>
      show BodyRun _ _ _ _ _ _ (setCursorOp 0 0 (g (u.emitted p)))
      rw [setCursorOp_bad hr' (.inr hrow)]
      exact .operand g p _ _ hg (hbad hrow) rfl hok
    | false =>
      show BodyRun _ _ _ _ _ _ (setCursorOp 0 0 (g (u.emitted p)))
      rw [setCursorOp_good (offset := u.cfg.k.rowOff0) hr' (by simp [rowOffset, hc]) hrow]
      simpa [hc, Micro.andThen] using hrun
  | busFailed g' es rest x y hg' hp' hok hs => exact .busFailed g' es (rest ++ tail) x y hg' (by simp [hp', tail]) hok hs
  | tooShort g' es rest site hg' hp' hok hd => exact .tooShort g' es (rest ++ tail) site hg' (by simp [hp', tail]) hok hd
  | operand g' es rest f hg' hb hp' hok => exact .operand g' es (rest ++ tail) f hg' hb (by simp [hp', tail]) hok

theorem purePut_id : PurePut id := ⟨fun _ _ => rfl, fun _ => rfl, fun _ => rfl⟩

theorem andThen_clearOp (m : Micro) : m.andThen clearOp =
    ((m.andThen fun s => sendCommand s.cfg.k.clearDisplay s).andThen (delay .sClr)).andThen (setCursorOp 0 0) := by
  cases m with
  | done s =>
    show runSeq [sendCommand s.cfg.k.clearDisplay, delay .sClr, setCursorOp 0 0] s = _
    rw [← andThen_runSeq_nil (Micro.andThen _ (setCursorOp 0 0)), ← andThen_runSeq_cons, ← andThen_runSeq_cons]
    rfl
  | raised f s => rfl
  | stuck r => rfl

/-- `clearOp` after a part of a body (42_display_control.md R120). -/
theorem BodyRun.thenClear {bad : SeqFault → Prop} {good : Prop} {stages : List (State → State)} {p : List Event}
    {g : State → State} {u : State} {m : Micro} {a : BusAddr} {bl rows : Byte} (h : BodyRun bad good stages p g u m)
    (hg : g ∈ stages) (hp : PurePut g) (ha : (g u).addr = some a) (hb : (g u).bl = some bl)
    (hr : (g u).rows = some rows) (hbad : rowBeyond 0 rows = true → bad (.invalidRowIndex 0)) :
    BodyRun bad (good ∧ rowBeyond 0 rows = false) stages (p ++ clearEvents u.cfg a bl) (fun s => (g s).putCursor 0 0) u
      (m.andThen clearOp) := by
  have hc : ∀ es, (g (u.emitted es)).cfg = u.cfg := fun es => hp.cfg _
  have ha' : (g (u.emitted p)).addr = some a := by rw [← hp.emitted]; exact ha
  have hb' : (g (u.emitted p)).bl = some bl := by rw [← hp.emitted]; exact hb
  have h1 := h.thenBus (f := fun s => sendCommand s.cfg.k.clearDisplay s) hg hp
    (sendCommand_run ha' hb' (g (u.emitted p)).cfg.k.clearDisplay)
  have h2 := h1.thenBus hg hp (delay_run .sClr _)
  have h3 := h2.thenCursorReset hg hp ha hb hr hbad
  rw [andThen_clearOp]
  simpa [clearEvents, hc] using h3

theorem mem_initStages (k : Constants) :
    id ∈ initStages k ∧ State.putCtrl k.displayOn ∈ initStages k
      ∧ (fun s : State => (s.putCtrl k.displayOn).putCursor 0 0) ∈ initStages k
      ∧ (fun s : State => ((s.putCtrl k.displayOn).putCursor 0 0).putMode k.entryLeft) ∈ initStages k := by
  simp [initStages]

theorem initStages_pure {k : Constants} {g : State → State} (h : g ∈ initStages k) : PurePut g := by
  simp only [initStages, List.mem_cons, List.not_mem_nil, or_false] at h
  obtain rfl | rfl | rfl | rfl := h <;> exact ⟨fun _ _ => rfl, fun _ => rfl, fun _ => rfl⟩

theorem initFunctionSet_run {u : State} {a : BusAddr} {bl func : Byte} (ha : u.addr = some a) (hb : u.bl = some bl)
    (hf : u.func = some func) :
    BusRun (commandEvents u.cfg a bl (u.cfg.k.functionSet ||| func)) u (initFunctionSet u) := by
  have h : initFunctionSet u = sendCommand (u.cfg.k.functionSet ||| func) u := by
    unfold initFunctionSet readReg
    rw [hf]
    rfl
  rw [h]
  exact sendCommand_run ha hb _

/-- `sendCommand` after a part of a body. -/
theorem BodyRun.thenCommand {bad : SeqFault → Prop} {good : Prop} {stages : List (State → State)} {p : List Event}
    {g : State → State} {u : State} {m : Micro} {a : BusAddr} {bl : Byte} (h : BodyRun bad good stages p g u m)
    (hg : g ∈ stages) (hp : PurePut g) (ha : (g u).addr = some a) (hb : (g u).bl = some bl) (c : Byte) :
    BodyRun bad good stages (p ++ commandEvents u.cfg a bl c) g u (m.andThen (sendCommand c)) := by
  refine h.thenBus hg hp ?_
  have ha' : (g (u.emitted p)).addr = some a := by rw [← hp.emitted]; exact ha
  have hb' : (g (u.emitted p)).bl = some bl := by rw [← hp.emitted]; exact hb
  have hc : (g (u.emitted p)).cfg = u.cfg := hp.cfg _
  have hs := sendCommand_run ha' hb' c
  rwa [hc] at hs

/-- `homeOp` after a part of a body. -/
theorem BodyRun.thenHome {bad : SeqFault → Prop} {good : Prop} {stages : List (State → State)} {p : List Event}
    {g : State → State} {u : State} {m : Micro} {a : BusAddr} {bl : Byte} (h : BodyRun bad good stages p g u m)
    (hg : g ∈ stages) (hp : PurePut g) (ha : (g u).addr = some a) (hb : (g u).bl = some bl) :
    BodyRun bad good stages (p ++ homeEvents u.cfg a bl) g u (m.andThen homeOp) := by
  refine h.thenBus hg hp ?_
  have ha' : (g (u.emitted p)).addr = some a := by rw [← hp.emitted]; exact ha
  have hb' : (g (u.emitted p)).bl = some bl := by rw [← hp.emitted]; exact hb
  have hc : (g (u.emitted p)).cfg = u.cfg := hp.cfg _
  have hs := homeOp_run ha' hb'
  rwa [hc] at hs

theorem initSteps_nested (u : State) : initSteps u = ((((((((initRecovery u).andThen initFunctionSet).andThen
    (sendCommand (displayControlByte u.cfg.k u.cfg.k.displayOn))).andThen
    (Sys2Proof.Machine.commit (State.putCtrl u.cfg.k.displayOn))).andThen clearOp).andThen
    (sendCommand (entryModeByte u.cfg.k u.cfg.k.entryLeft))).andThen
    (Sys2Proof.Machine.commit (State.putMode u.cfg.k.entryLeft))).andThen homeOp).andThen
    (Sys2Proof.Machine.commit State.putInited) := by
  unfold initSteps
  rw [← andThen_runSeq_nil (Micro.andThen _ (Sys2Proof.Machine.commit State.putInited))]
  simp only [← andThen_runSeq_cons]
  rfl

/-- The whole of `INIT` after its start (41_init.md R100, R115). -/
theorem initSteps_run {bad : SeqFault → Prop} {u : State} {a : BusAddr} {func rows : Byte} (ha : u.addr = some a)
    (hb : u.bl = some u.cfg.k.backlightOff) (hf : u.func = some func) (hr : u.rows = some rows)
    (hbad : rowBeyond 0 rows = true → bad (.invalidRowIndex 0)) :
    BodyRun bad (rowBeyond 0 rows = false) (initStages u.cfg.k) (initEvents u.cfg a func) (initPut u.cfg.k) u (initSteps u) := by
  obtain ⟨m0, m1, m2, m3⟩ := mem_initStages u.cfg.k
  have h1 : BodyRun bad True (initStages u.cfg.k) _ id u (initRecovery u) := (initRecovery_run ha hb).start trivial m0
  have h2 := h1.thenBus m0 purePut_id (initFunctionSet_run (u := u.emitted _) ha hb hf)
  have h3 := (h2.thenCommand m0 purePut_id ha hb (displayControlByte u.cfg.k u.cfg.k.displayOn)).thenPut
    (State.putCtrl u.cfg.k.displayOn)
  have h4 := h3.thenClear m1 (initStages_pure m1) ha hb hr hbad
  have h5 := (h4.thenCommand m2 (initStages_pure m2) ha hb (entryModeByte u.cfg.k u.cfg.k.entryLeft)).thenPut
    (State.putMode u.cfg.k.entryLeft)
  have h6 := (h5.thenHome m3 (initStages_pure m3) ha hb).thenPut State.putInited
  rw [initSteps_nested]
  exact h6.imp And.right

/-! ### Bodies that read a register that holds no value -/

/-- The body stopped because it read a register that holds no value. -/
def Unwritten (m : Micro) : Prop := ∃ r, m = .stuck (.unwrittenRegister r)

theorem Unwritten.andThen {m : Micro} (h : Unwritten m) (f : State → Micro) : Unwritten (m.andThen f) := by
  obtain ⟨r, rfl⟩ := h
  exact ⟨r, rfl⟩

theorem sendByte_unwritten {s : State} (h : s.addr = none ∨ s.bl = none) (v m : Byte) : Unwritten (writeByte v m s) := by
  have ht : ∀ x, Unwritten (transmit x s) := by
    intro x
    cases hb : s.bl with
    | none => exact ⟨.bl, by simp [transmit, readReg, hb]⟩
    | some bl => exact ⟨.addr, by simp [transmit, readReg, hb, h.resolve_right (by simp [hb])]⟩
  have hn : ∀ x, Unwritten (writeNibble x s) := fun x => (ht _).andThen _
  exact (hn _).andThen _

theorem open_or_unwritten (s : State) (hi : s.inited = true) :
    (∃ a bl, s.Open a bl) ∨ s.addr = none ∨ s.bl = none := by
  cases ha : s.addr with
  | none => exact .inr (.inl rfl)
  | some a =>
    cases hb : s.bl with
    | none => exact .inr (.inr rfl)
    | some bl => exact .inl ⟨a, bl, hi, ha, hb⟩

/-! ### One command -/

theorem sessionCommand_result {s : State} {i : Instr} {body : State → Micro}
    (hinit : ∀ addr cols rows font, i ≠ .init addr cols rows font)
    (h : s.inited = true → ExecResult s i (finish (lengthOf i) (body s))) :
    ExecResult s i (sessionCommand i body s) := by
  unfold sessionCommand
  cases hi : s.inited with
  | true => simpa using h hi
  | false => simpa using ExecResult.notInitialized hi hinit

theorem result_unwritten {s : State} {i : Instr} {m : Micro} (hi : s.inited = true) (hm : Unwritten m)
    (h : s.addr = none ∨ s.bl = none ∨ s.rows = none ∨ s.ctrl = none ∨ s.mode = none)
    (hno : (i = .clear ∧ s.rows = none) ∨ ∀ u stages plan put, ¬ Effect s i u stages plan put) :
    ExecResult s i (finish (lengthOf i) m) := by
  obtain ⟨r, rfl⟩ := hm
  exact .unwritten r hi h hno

/-- A command that sends bytes has no effect to show where `ADDR` or `BL` holds no value. -/
theorem no_effect_closed {s : State} {i : Instr} (hn : s.addr = none ∨ s.bl = none)
    (hinit : ∀ addr cols rows font, i ≠ .init addr cols rows font) (hp : i ≠ .print []) (hon : i ≠ .blon)
    (hoff : i ≠ .bloff) : ∀ u stages plan put, ¬ Effect s i u stages plan put := by
  intro u stages plan put he
  have hopen : ∀ {a bl}, ¬ s.Open a bl := fun {a bl} h => by
    rcases hn with h' | h'
    · rw [h.addr] at h'; cases h'
    · rw [h.bl] at h'; cases h'
  cases he with
  | init addr cols rows font => exact hinit _ _ _ _ rfl
  | bloff => exact hoff rfl
  | blon => exact hon rfl
  | printNothing => exact hp rfl
  | _ => exact hopen ‹_›

/-- A command whose body is one run of events. -/
theorem result_bus {s : State} {i : Instr} {op : State → Micro}
    (hinit : ∀ addr cols rows font, i ≠ .init addr cols rows font) (hp : i ≠ .print []) (hon : i ≠ .blon)
    (hoff : i ≠ .bloff) (hno : ∀ f, ¬ OperandFault s i f) (plan : BusAddr → Byte → List Event)
    (heff : ∀ a bl, s.Open a bl → Effect s i s [id] (plan a bl) id)
    (hrun : ∀ a bl, s.addr = some a → s.bl = some bl → BusRun (plan a bl) s (op s))
    (hun : s.addr = none ∨ s.bl = none → Unwritten (op s)) : ExecResult s i (sessionCommand i op s) := by
  refine sessionCommand_result hinit fun hi => ?_
  obtain ⟨a, bl, ho⟩ | hn := open_or_unwritten s hi
  · exact .ran (heff a bl ho) ((hrun a bl ho.addr ho.bl).body _ hno)
  · exact result_unwritten hi (hun hn) (hn.elim .inl (.inr ∘ .inl)) (.inr (no_effect_closed hn hinit hp hon hoff))

theorem result_toggleCtrl {s : State} {i : Instr} (hinit : ∀ addr cols rows font, i ≠ .init addr cols rows font)
    (hp : i ≠ .print []) (hon : i ≠ .blon) (hoff : i ≠ .bloff) (hno : ∀ f, ¬ OperandFault s i f)
    (hneed : s.ctrl = none → ∀ u stages plan put, ¬ Effect s i u stages plan put) (change : Byte → Byte)
    (heff : ∀ a bl old, s.Open a bl → s.ctrl = some old → Effect s i s [id]
      (commandEvents s.cfg a bl (displayControlByte s.cfg.k (change old))) (State.putCtrl (change old))) :
    ExecResult s i (sessionCommand i (toggleCtrl change) s) := by
  refine sessionCommand_result hinit fun hi => ?_
  cases hc : s.ctrl with
  | none => exact result_unwritten hi ⟨.ctrl, by simp [toggleCtrl, readReg, hc]⟩ (by simp [hc]) (.inr (hneed hc))
  | some old =>
    have hbody : toggleCtrl change s = runSeq [sendCommand (displayControlByte s.cfg.k (change old)),
        Sys2Proof.Machine.commit (State.putCtrl (change old))] s := by simp [toggleCtrl, readReg, hc]
    rw [hbody]
    obtain ⟨a, bl, ho⟩ | hn := open_or_unwritten s hi
    · exact .ran (heff a bl old ho hc) ((sendCommand_run ho.addr ho.bl _).commit _ hno _)
    · exact result_unwritten hi ((sendByte_unwritten hn _ _).andThen _) (hn.elim .inl (.inr ∘ .inl))
        (.inr (no_effect_closed hn hinit hp hon hoff))

theorem result_toggleMode {s : State} {i : Instr} (hinit : ∀ addr cols rows font, i ≠ .init addr cols rows font)
    (hp : i ≠ .print []) (hon : i ≠ .blon) (hoff : i ≠ .bloff) (hno : ∀ f, ¬ OperandFault s i f)
    (hneed : s.mode = none → ∀ u stages plan put, ¬ Effect s i u stages plan put) (change : Byte → Byte)
    (heff : ∀ a bl old, s.Open a bl → s.mode = some old → Effect s i s [id]
      (commandEvents s.cfg a bl (entryModeByte s.cfg.k (change old))) (State.putMode (change old))) :
    ExecResult s i (sessionCommand i (toggleMode change) s) := by
  refine sessionCommand_result hinit fun hi => ?_
  cases hc : s.mode with
  | none => exact result_unwritten hi ⟨.mode, by simp [toggleMode, readReg, hc]⟩ (by simp [hc]) (.inr (hneed hc))
  | some old =>
    have hbody : toggleMode change s = runSeq [sendCommand (entryModeByte s.cfg.k (change old)),
        Sys2Proof.Machine.commit (State.putMode (change old))] s := by simp [toggleMode, readReg, hc]
    rw [hbody]
    obtain ⟨a, bl, ho⟩ | hn := open_or_unwritten s hi
    · exact .ran (heff a bl old ho hc) ((sendCommand_run ho.addr ho.bl _).commit _ hno _)
    · exact result_unwritten hi ((sendByte_unwritten hn _ _).andThen _) (hn.elim .inl (.inr ∘ .inl))
        (.inr (no_effect_closed hn hinit hp hon hoff))

theorem result_backlight {s : State} {i : Instr} (hinit : ∀ addr cols rows font, i ≠ .init addr cols rows font)
    (hno : ∀ f, ¬ OperandFault s i f)
    (hneed : s.addr = none → ∀ u stages plan put, ¬ Effect s i u stages plan put) (new : Byte)
    (heff : ∀ a, s.inited = true → s.addr = some a → Effect s i s [id] [.w a new] (State.putBl new)) :
    ExecResult s i (sessionCommand i (setBacklight new) s) := by
  refine sessionCommand_result hinit fun hi => ?_
  cases ha : s.addr with
  | none => exact result_unwritten hi ⟨.addr, by simp [setBacklight, readReg, ha]⟩ (by simp [ha]) (.inr (hneed ha))
  | some a =>
    have hbody : setBacklight new s = runSeq [busSend a new, Sys2Proof.Machine.commit (State.putBl new)] s := by
      simp [setBacklight, readReg, ha]
    rw [hbody]
    exact .ran (heff a hi ha) ((busSend_run a new s).commit _ hno _)

theorem result_text {s : State} (text : List Byte) :
    ExecResult s (.print text) (sessionCommand (.print text) (runSeq (text.map sendCharacter)) s) := by
  cases text with
  | nil =>
    refine sessionCommand_result (by simp) fun hi => ?_
    exact .ran (.printNothing hi) ((runSeq_nil s).body _ (by rintro f ⟨⟩))
  | cons b bs =>
    exact result_bus (by simp) (by simp) (by simp) (by simp) (by rintro f ⟨⟩) (fun a bl => textEvents s.cfg a bl (b :: bs)) (fun a bl h => .print h _)
      (fun a bl ha hb => sendText_run ha hb _) fun hn => (sendByte_unwritten hn _ _).andThen _

theorem result_clear (s : State) : ExecResult s .clear (execClear s) := by
  refine sessionCommand_result (by simp) fun hi => ?_
  obtain ⟨a, bl, ho⟩ | hn := open_or_unwritten s hi
  · cases hr : s.rows with
    | none =>
      have hno : ∀ f, ¬ OperandFault s .clear f := by rintro f ⟨⟩; simp_all
      have h2 := ((sendCommand_run ho.addr ho.bl s.cfg.k.clearDisplay).body (OperandFault s .clear) hno).thenBus
        (by simp) purePut_id (delay_run .sClr _)
      have hbody : clearOp s = ((sendCommand s.cfg.k.clearDisplay s).andThen (delay .sClr)).andThen (setCursorOp 0 0) :=
        andThen_clearOp (.done s)
      rw [hbody]
      have hrun := (h2.thenBus (by simp) purePut_id (q := commandEvents s.cfg a bl (s.cfg.k.setDdramAddr ||| s.cfg.k.rowOff0))
        (sendCommand_run (s := s.emitted _) ho.addr ho.bl _)).thenPut (State.putCursor 0 0)
      generalize (sendCommand s.cfg.k.clearDisplay s).andThen (delay .sClr) = m at h2 hrun
      cases h2 with
      | ran hgood hok =>
        exact result_unwritten hi ⟨.rows, by simp [Micro.andThen, setCursorOp, readReg, hr]⟩ (by simp [hr]) (.inl ⟨rfl, hr⟩)
      | busFailed => exact .ran (.clear ho) hrun
      | tooShort => exact .ran (.clear ho) hrun
      | operand => exact .ran (.clear ho) hrun
    | some rows =>
      have h := (((runSeq_nil s).start (stages := [id]) (bad := OperandFault s .clear) trivial (by simp)).thenClear
        (by simp) purePut_id ho.addr ho.bl hr fun hrow => .clearRow hr hrow).imp
        (good' := ∀ f, ¬ OperandFault s .clear f) (by rintro ⟨-, hrow⟩ f ⟨⟩; simp_all)
      exact .ran (.clear ho) (by simpa [runSeq, Micro.andThen] using h)
  · have hbody : clearOp s = ((sendCommand s.cfg.k.clearDisplay s).andThen (delay .sClr)).andThen (setCursorOp 0 0) :=
      andThen_clearOp (.done s)
    rw [hbody]
    exact result_unwritten hi (((sendByte_unwritten hn _ _).andThen _).andThen _) (hn.elim .inl (.inr ∘ .inl))
      (.inr (no_effect_closed hn (by simp) (by simp) (by simp) (by simp)))

theorem result_setcursor (row col : Byte) (s : State) : ExecResult s (.setcursor row col) (execSetcursor row col s) := by
  refine sessionCommand_result (by simp) fun hi => ?_
  cases hr : s.rows with
  | none =>
    exact result_unwritten hi ⟨.rows, by simp [setCursorOp, readReg, hr]⟩ (by simp [hr])
      (.inr (by rintro u st pl pu ⟨⟩; simp_all))
  | some rows =>
    by_cases hbad : rowOffset s.cfg.k row = none ∨ rowBeyond row rows = true
    · rw [setCursorOp_bad hr hbad]
      exact .operand hi (.setcursor row col) (.row hr hbad)
    · obtain ⟨offset, ho⟩ := Option.ne_none_iff_exists'.mp fun h => hbad (.inl h)
      have hrow : rowBeyond row rows = false := by simpa using fun h => hbad (.inr h)
      rw [setCursorOp_good hr ho hrow]
      obtain ⟨a, bl, hop⟩ | hn := open_or_unwritten s hi
      · refine .ran (.setcursor hop hr ho hrow) ?_
        have h := (sendCommand_run hop.addr hop.bl (s.cfg.k.setDdramAddr ||| (col + offset))).body (OperandFault s (.setcursor row col))
          (good := ∀ f, ¬ OperandFault s (.setcursor row col) f) (by rintro f ⟨⟩; simp_all)
        exact h.thenPut (State.putCursor row col)
      · exact result_unwritten hi ((sendByte_unwritten hn _ _).andThen _) (hn.elim .inl (.inr ∘ .inl))
          (.inr (no_effect_closed hn (by simp) (by simp) (by simp) (by simp)))

theorem result_mkchar (slot p0 p1 p2 p3 p4 p5 p6 p7 : Byte) (s : State) :
    ExecResult s (.mkchar slot p0 p1 p2 p3 p4 p5 p6 p7) (execMkchar slot p0 p1 p2 p3 p4 p5 p6 p7 s) := by
  refine sessionCommand_result (by simp) fun hi => ?_
  by_cases hslot : s.cfg.slotPolicy = .reject ∧ slotBeyond slot = true
  · have hbody : runSeq (checkSlot slot :: sendCommand (cgramByte s.cfg.k (cgramAddress slot))
        :: [p0, p1, p2, p3, p4, p5, p6, p7].map sendCharacter) s = .raised (.invalidSlotIndex slot) s := by
      simp [runSeq, checkSlot, hslot, Micro.andThen]
    rw [hbody]
    exact .operand hi (.mkchar ..) (.slot hslot.1 hslot.2)
  · have hbody : runSeq (checkSlot slot :: sendCommand (cgramByte s.cfg.k (cgramAddress slot))
        :: [p0, p1, p2, p3, p4, p5, p6, p7].map sendCharacter) s
        = (sendCommand (cgramByte s.cfg.k (cgramAddress slot)) s).andThen
            (runSeq ([p0, p1, p2, p3, p4, p5, p6, p7].map sendCharacter)) := by
      show (checkSlot slot s).andThen _ = _
      rw [checkSlot, if_neg hslot]
      rfl
    rw [hbody]
    obtain ⟨a, bl, ho⟩ | hn := open_or_unwritten s hi
    · refine .ran (.mkchar ho hslot) ?_
      exact ((sendCommand_run ho.addr ho.bl _).andThen (sendText_run (s := s.emitted _) ho.addr ho.bl _)).body _
        (by rintro f ⟨⟩; exact hslot ⟨‹_›, ‹_›⟩)
    · exact result_unwritten hi ((sendByte_unwritten hn _ _).andThen _) (hn.elim .inl (.inr ∘ .inl))
        (.inr (no_effect_closed hn (by simp) (by simp) (by simp) (by simp)))

/-- What one command can do, for every command and every state. -/
theorem exec_cases (i : Instr) (s : State) : ExecResult s i (exec i s) := by
  cases i with
  | init addr cols rows font =>
    exact .ran (.init addr cols rows font) ((initSteps_run (u := s.initStart addr cols rows font) rfl rfl rfl rfl
      .initRow).imp (by rintro hrow f ⟨⟩; simp_all))
  | clear => exact result_clear s
  | home =>
    exact result_bus (by simp) (by simp) (by simp) (by simp) (by rintro f ⟨⟩) _ (fun a bl h => .home h) (fun a bl ha hb => homeOp_run ha hb)
      fun hn => (sendByte_unwritten hn _ _).andThen _
  | setcursor row col => exact result_setcursor row col s
  | dispoff => exact result_toggleCtrl (by simp) (by simp) (by simp) (by simp) (by rintro f ⟨⟩) (by rintro hn u st pl pu ⟨⟩; simp_all) _ fun a bl old h hc => .dispoff h hc
  | dispon => exact result_toggleCtrl (by simp) (by simp) (by simp) (by simp) (by rintro f ⟨⟩) (by rintro hn u st pl pu ⟨⟩; simp_all) _ fun a bl old h hc => .dispon h hc
  | curoff => exact result_toggleCtrl (by simp) (by simp) (by simp) (by simp) (by rintro f ⟨⟩) (by rintro hn u st pl pu ⟨⟩; simp_all) _ fun a bl old h hc => .curoff h hc
  | curon => exact result_toggleCtrl (by simp) (by simp) (by simp) (by simp) (by rintro f ⟨⟩) (by rintro hn u st pl pu ⟨⟩; simp_all) _ fun a bl old h hc => .curon h hc
  | blnkoff => exact result_toggleCtrl (by simp) (by simp) (by simp) (by simp) (by rintro f ⟨⟩) (by rintro hn u st pl pu ⟨⟩; simp_all) _ fun a bl old h hc => .blnkoff h hc
  | blnkon => exact result_toggleCtrl (by simp) (by simp) (by simp) (by simp) (by rintro f ⟨⟩) (by rintro hn u st pl pu ⟨⟩; simp_all) _ fun a bl old h hc => .blnkon h hc
  | scrl =>
    exact result_bus (by simp) (by simp) (by simp) (by simp) (by rintro f ⟨⟩) _ (fun a bl h => .scrl h) (fun a bl ha hb => sendCommand_run ha hb _)
      fun hn => sendByte_unwritten hn _ _
  | scrr =>
    exact result_bus (by simp) (by simp) (by simp) (by simp) (by rintro f ⟨⟩) _ (fun a bl h => .scrr h) (fun a bl ha hb => sendCommand_run ha hb _)
      fun hn => sendByte_unwritten hn _ _
  | rtl => exact result_toggleMode (by simp) (by simp) (by simp) (by simp) (by rintro f ⟨⟩) (by rintro hn u st pl pu ⟨⟩; simp_all) _ fun a bl old h hm => .rtl h hm
  | ltr => exact result_toggleMode (by simp) (by simp) (by simp) (by simp) (by rintro f ⟨⟩) (by rintro hn u st pl pu ⟨⟩; simp_all) _ fun a bl old h hm => .ltr h hm
  | ascroff => exact result_toggleMode (by simp) (by simp) (by simp) (by simp) (by rintro f ⟨⟩) (by rintro hn u st pl pu ⟨⟩; simp_all) _ fun a bl old h hm => .ascroff h hm
  | ascron => exact result_toggleMode (by simp) (by simp) (by simp) (by simp) (by rintro f ⟨⟩) (by rintro hn u st pl pu ⟨⟩; simp_all) _ fun a bl old h hm => .ascron h hm
  | bloff => exact result_backlight (by simp) (by rintro f ⟨⟩) (by rintro hn u st pl pu ⟨⟩; simp_all) _ fun a hi ha => .bloff hi ha
  | blon => exact result_backlight (by simp) (by rintro f ⟨⟩) (by rintro hn u st pl pu ⟨⟩; simp_all) _ fun a hi ha => .blon hi ha
  | mkchar slot p0 p1 p2 p3 p4 p5 p6 p7 => exact result_mkchar slot p0 p1 p2 p3 p4 p5 p6 p7 s
  | print text => exact result_text text
  | sendcmd v =>
    exact result_bus (by simp) (by simp) (by simp) (by simp) (by rintro f ⟨⟩) _ (fun a bl h => .sendcmd h v) (fun a bl ha hb => sendCommand_run ha hb v)
      fun hn => sendByte_unwritten hn _ _
  | sendchr v =>
    exact result_bus (by simp) (by simp) (by simp) (by simp) (by rintro f ⟨⟩) _ (fun a bl h => .sendchr h v) (fun a bl ha hb => sendCharacter_run ha hb v)
      fun hn => sendByte_unwritten hn _ _

/-! ### Reading a next state -/

/-- How a command came to the next state `t`. -/
inductive NextCase (i : Instr) (s t : State) : Prop where
  | notInitialized (hi : s.inited = false) (hinit : ∀ addr cols rows font, i ≠ .init addr cols rows font)
      (ht : t = s.takeFault (.notInitialized (opcode i)))
  | operandFirst {f : SeqFault} (hi : s.inited = true) (hfirst : ChecksFirst i) (hf : OperandFault s i f) (ht : t = s.takeFault f)
  | ran {u : State} {stages : List (State → State)} {plan : List Event} {put : State → State}
      (he : Effect s i u stages plan put) (hno : ∀ f, ¬ OperandFault s i f) (hok : ∀ e ∈ plan, e.accepted)
      (ht : t = (put (u.emitted plan)).advance (lengthOf i))
  | busFailed {u : State} {stages : List (State → State)} {plan : List Event} {put : State → State}
      (he : Effect s i u stages plan put) (g : State → State) (es rest : List Event) (a : BusAddr) (b : Byte)
      (hg : g ∈ stages) (hplan : plan = es ++ .w a b :: rest) (hok : ∀ e ∈ es, e.accepted) (hsink : ¬ u.SinkClean)
      (ht : t = (g (u.emitted (es ++ [.wf a b]))).takeFault (.busTransportFailure b))
  | tooShort {u : State} {stages : List (State → State)} {plan : List Event} {put : State → State}
      (he : Effect s i u stages plan put) (g : State → State) (es rest : List Event) (site : Site)
      (hg : g ∈ stages) (hplan : plan = es ++ delayEvent u.cfg site :: rest) (hok : ∀ e ∈ es, e.accepted)
      (hshort : delayOf u.cfg.dly site < floorOf site)
      (ht : t = ((g (u.emitted (es ++ [delayEvent u.cfg site]))).recordViolation site).takeFault (.timingViolation site))
  | operand {u : State} {stages : List (State → State)} {plan : List Event} {put : State → State}
      (he : Effect s i u stages plan put) (g : State → State) (es rest : List Event) (f : SeqFault)
      (hg : g ∈ stages) (hbad : OperandFault s i f) (hplan : plan = es ++ rest) (hok : ∀ e ∈ es, e.accepted)
      (ht : t = (g (u.emitted es)).takeFault f)

/-- The inversion lemma of `exec` at a next state. -/
theorem exec_next {i : Instr} {s t : State} (h : exec i s = .next t) : NextCase i s t := by
  have hr := exec_cases i s
  rw [h] at hr
  generalize ho : Host.Outcome.next t = o at hr
  cases hr with
  | notInitialized hi hinit => cases ho; exact .notInitialized hi hinit rfl
  | operand hi hfirst hf => cases ho; exact .operandFirst hi hfirst hf rfl
  | unwritten r hi hreg hno => cases ho
  | ran he hb =>
    cases hb with
    | ran hno hok => cases ho; exact .ran he hno hok rfl
    | busFailed g es rest a b hg hp hok hs => cases ho; exact .busFailed he g es rest a b hg hp hok hs rfl
    | tooShort g es rest site hg hp hok hd => cases ho; exact .tooShort he g es rest site hg hp hok hd rfl
    | operand g es rest f hg hb hp hok => cases ho; exact .operand he g es rest f hg hb hp hok rfl

/-- The effect of a command is determined by the state. -/
theorem Effect.unique {s : State} {i : Instr} {u u' : State} {st st' : List (State → State)} {plan plan' : List Event}
    {put put' : State → State} (h : Effect s i u st plan put) (h' : Effect s i u' st' plan' put') :
    u = u' ∧ plan = plan' ∧ put = put' := by
  cases h <;> cases h' <;> (try cases ‹State.Open s _ _›) <;> (try cases ‹State.Open s _ _›) <;>
    simp_all [textEvents]

theorem Effect.inited {s : State} {i : Instr} {u : State} {st : List (State → State)} {plan : List Event}
    {put : State → State} (h : Effect s i u st plan put) :
    s.inited = true ∨ ∃ addr cols rows font, i = .init addr cols rows font := by
  cases h with
  | init addr cols rows font => exact .inr ⟨addr, cols, rows, font, rfl⟩
  | bloff hi => exact .inl hi
  | blon hi => exact .inl hi
  | printNothing hi => exact .inl hi
  | _ => exact .inl (State.Open.inited ‹_›)

theorem Effect.ports {s : State} {i : Instr} {u : State} {st : List (State → State)} {plan : List Event}
    {put : State → State} (h : Effect s i u st plan put) : u.cfg = s.cfg ∧ u.sink = s.sink := by
  cases h <;> exact ⟨rfl, rfl⟩

/-- The completion lemma: under P3 and P4 a command with no operand fault does the whole of its effect. -/
theorem exec_of_effect {s : State} {i : Instr} {u : State} {st : List (State → State)} {plan : List Event}
    {put : State → State} (he : Effect s i u st plan put) (hd : s.DelaysMeetFloors) (hs : s.SinkClean)
    (hno : ∀ f, ¬ OperandFault s i f) (hclear : i = .clear → s.rows ≠ none) :
    exec i s = .next ((put (u.emitted plan)).advance (lengthOf i)) := by
  have hr := exec_cases i s
  generalize exec i s = o at hr
  cases hr with
  | notInitialized hi hinit =>
    obtain h | ⟨addr, cols, rows, font, h⟩ := he.inited
    · rw [hi] at h; cases h
    · exact absurd h (hinit addr cols rows font)
  | operand hi hfirst hf => exact absurd hf (hno _)
  | unwritten r hi hreg hno' =>
    obtain ⟨hc, hrows⟩ | hn := hno'
    · exact absurd hrows (hclear hc)
    · exact absurd he (hn _ _ _ _)
  | ran he' hb =>
    obtain ⟨rfl, rfl, rfl⟩ := he.unique he'
    obtain ⟨hcfg, hsink⟩ := he'.ports
    cases hb with
    | ran hgood hok => rfl
    | busFailed g es rest a b hg hp hok hns => exact absurd (by simpa [State.SinkClean, hsink] using hs) hns
    | tooShort g es rest site hg hp hok hshort =>
      rw [hcfg] at hshort
      exact absurd (hd site) (by omega)
    | operand g es rest f hg hbad hp hok => exact absurd hbad (hno f)

end Sys2Proof.Machine
end

