-- ==== Sys2Proof/Laws/Frames.lean ====
section
/-! SUPPORT. What the parts of an effect leave alone: the start of a command, the register writes before a stop,
and the final register write. -/

namespace Sys2Proof.Machine

/-- A register write that may touch `BL`, `CTRL`, `MODE`, `CROW`, `CCOL` and `INITED` and nothing else. -/
structure RegisterWrite (g : State → State) : Prop where
  addr : ∀ s, (g s).addr = s.addr
  cols : ∀ s, (g s).cols = s.cols
  rows : ∀ s, (g s).rows = s.rows
  func : ∀ s, (g s).func = s.func
  cp : ∀ s, (g s).cp = s.cp
  halt : ∀ s, (g s).halt = s.halt
  faultCode : ∀ s, (g s).faultCode = s.faultCode
  fcp : ∀ s, (g s).fcp = s.fcp
  faultValue : ∀ s, (g s).faultValue = s.faultValue
  tvViol : ∀ s, (g s).tvViol = s.tvViol
  tvSite : ∀ s, (g s).tvSite = s.tvSite
  port : ∀ s, (g s).port = s.port
  trace : ∀ s, (g s).trace = s.trace
  cmd : ∀ s, (g s).cmd = s.cmd
  cfg : ∀ s, (g s).cfg = s.cfg
  sink : ∀ s, (g s).sink = s.sink

/-- The start of a command changes at most the registers `INIT` writes there (41_init.md R101). -/
structure StartOf (s u : State) : Prop where
  crow : u.crow = s.crow
  ccol : u.ccol = s.ccol
  ctrl : u.ctrl = s.ctrl
  mode : u.mode = s.mode
  cp : u.cp = s.cp
  halt : u.halt = s.halt
  faultCode : u.faultCode = s.faultCode
  fcp : u.fcp = s.fcp
  faultValue : u.faultValue = s.faultValue
  tvViol : u.tvViol = s.tvViol
  tvSite : u.tvSite = s.tvSite
  port : u.port = s.port
  trace : u.trace = s.trace
  cmd : u.cmd = s.cmd
  cfg : u.cfg = s.cfg
  sink : u.sink = s.sink

theorem Effect.start {s : State} {i : Instr} {u : State} {st : List (State → State)} {plan : List Event}
    {put : State → State} (h : Effect s i u st plan put) : StartOf s u := by
  cases h <;> constructor <;> rfl

theorem Effect.put {s : State} {i : Instr} {u : State} {st : List (State → State)} {plan : List Event}
    {put : State → State} (h : Effect s i u st plan put) : RegisterWrite put := by
  cases h <;> constructor <;> intro <;> rfl

theorem initStages_write {k : Constants} {g : State → State} (h : g ∈ initStages k) : RegisterWrite g := by
  simp only [initStages, List.mem_cons, List.not_mem_nil, or_false] at h
  obtain rfl | rfl | rfl | rfl := h <;> constructor <;> intro <;> rfl

theorem Effect.stage {s : State} {i : Instr} {u : State} {st : List (State → State)} {plan : List Event}
    {put g : State → State} (h : Effect s i u st plan put) (hg : g ∈ st) : RegisterWrite g := by
  cases h with
  | init => exact initStages_write hg
  | _ => rw [List.mem_singleton.mp hg]; constructor <;> intro <;> rfl

/-- A command other than `INIT` starts from the state itself and writes no register before it ends. -/
theorem Effect.plain {s : State} {i : Instr} {u : State} {st : List (State → State)} {plan : List Event}
    {put : State → State} (h : Effect s i u st plan put) (hinit : ∀ addr cols rows font, i ≠ .init addr cols rows font) :
    u = s ∧ st = [id] := by
  cases h with
  | init addr cols rows font => exact absurd rfl (hinit _ _ _ _)
  | _ => exact ⟨rfl, rfl⟩

/-- An `INIT` that opens a session has run its whole sequence (41_init.md R112, R115). -/
theorem exec_init_open {addr : BusAddr} {cols rows font : Byte} {s t : State}
    (h : exec (.init addr cols rows font) s = .next t) (hi : t.inited = true) :
    rowBeyond 0 rows = false ∧ (∀ e ∈ initEvents s.cfg addr (resolve s.cfg.k rows font), e.accepted) ∧
      t = (initPut s.cfg.k ((s.initStart addr cols rows font).emitted
        (initEvents s.cfg addr (resolve s.cfg.k rows font)))).advance 5 := by
  cases exec_next h with
  | notInitialized _ hinit _ => exact absurd rfl (hinit _ _ _ _)
  | operandFirst _ hfirst _ _ => cases hfirst
  | ran he hno hok ht =>
    cases he
    refine ⟨?_, hok, ht⟩
    cases hb : rowBeyond 0 rows with
    | false => rfl
    | true => exact absurd (.initRow hb) (hno _)
  | busFailed he g es rest a b hg _ _ _ ht =>
    cases he
    simp only [initStages, List.mem_cons, List.not_mem_nil, or_false] at hg
    obtain rfl | rfl | rfl | rfl := hg <;> subst ht <;> cases hi
  | tooShort he g es rest site hg _ _ _ ht =>
    cases he
    simp only [initStages, List.mem_cons, List.not_mem_nil, or_false] at hg
    obtain rfl | rfl | rfl | rfl := hg <;> subst ht <;> cases hi
  | operand he g es rest f hg _ _ _ ht =>
    cases he
    simp only [initStages, List.mem_cons, List.not_mem_nil, or_false] at hg
    obtain rfl | rfl | rfl | rfl := hg <;> subst ht <;> cases hi

/-- A command other than `INIT` ran its effect whole, or stopped with every session and flag register as it was. -/
theorem exec_plain_next {i : Instr} {s t : State} (hn : ∀ addr cols rows font, i ≠ .init addr cols rows font)
    (h : exec i s = .next t) :
    (∃ u st plan put, Effect s i u st plan put ∧ u = s ∧ (∀ e ∈ plan, e.accepted) ∧
      t = (put (u.emitted plan)).advance (lengthOf i)) ∨
    (t.addr = s.addr ∧ t.cols = s.cols ∧ t.rows = s.rows ∧ t.func = s.func ∧ t.crow = s.crow ∧ t.ccol = s.ccol ∧
      t.bl = s.bl ∧ t.ctrl = s.ctrl ∧ t.mode = s.mode ∧ t.inited = s.inited ∧ t.halt = true) := by
  cases exec_next h with
  | notInitialized _ _ ht => subst ht; exact .inr (by simp)
  | operandFirst _ _ _ ht => subst ht; exact .inr (by simp)
  | ran he _ hok ht => exact .inl ⟨_, _, _, _, he, (he.plain hn).1, hok, ht⟩
  | busFailed he g es rest a b hg _ _ _ ht =>
    obtain ⟨rfl, rfl⟩ := he.plain hn
    rw [List.mem_singleton.mp hg] at ht
    subst ht
    exact .inr (by simp)
  | tooShort he g es rest site hg _ _ _ ht =>
    obtain ⟨rfl, rfl⟩ := he.plain hn
    rw [List.mem_singleton.mp hg] at ht
    subst ht
    exact .inr (by simp)
  | operand he g es rest f hg _ _ _ ht =>
    obtain ⟨rfl, rfl⟩ := he.plain hn
    rw [List.mem_singleton.mp hg] at ht
    subst ht
    exact .inr (by simp)

end Sys2Proof.Machine
end

