-- ==== Sys2Proof/Laws/Params.lean ====
section
/-! SUPPORT. What a well-formed table `K` gives (00_scope.md R8), as plain facts about its bytes. -/

namespace Sys2Proof.Machine

/-- A single bit is one of the eight powers of two. -/
theorem singleBit_cases : ∀ b : Byte, singleBit b = true →
    b = 0x01 ∨ b = 0x02 ∨ b = 0x04 ∨ b = 0x08 ∨ b = 0x10 ∨ b = 0x20 ∨ b = 0x40 ∨ b = 0x80 := by
  decide

/-- Two different single bits have nothing in common. -/
theorem singleBit_disjoint {a b : Byte} (ha : singleBit a = true) (hb : singleBit b = true) (hne : a ≠ b) :
    a &&& b = 0 := by
  rcases singleBit_cases a ha with rfl | rfl | rfl | rfl | rfl | rfl | rfl | rfl <;>
    rcases singleBit_cases b hb with rfl | rfl | rfl | rfl | rfl | rfl | rfl | rfl <;>
    first | exact absurd rfl hne | rfl

/-- The facts of R8 that the bytes on the bus rest on. -/
structure LineFacts (k : Constants) : Prop where
  enData : k.en &&& 0xF0 = 0
  rwData : k.rwLine &&& 0xF0 = 0
  rsData : k.registerSelect &&& 0xF0 = 0
  blData : k.backlightOn &&& 0xF0 = 0
  enRw : k.en &&& k.rwLine = 0
  enRs : k.en &&& k.registerSelect = 0
  enBl : k.en &&& k.backlightOn = 0
  rwRs : k.rwLine &&& k.registerSelect = 0
  rwBl : k.rwLine &&& k.backlightOn = 0
  rsBl : k.registerSelect &&& k.backlightOn = 0
  off : k.backlightOff = 0
  zeros : k.moveLeft = 0 ∧ k.mode4 = 0 ∧ k.line1 = 0 ∧ k.dots8 = 0

theorem constantsWf_lines {k : Constants} (h : constantsWf k = true) : LineFacts k := by
  simp only [constantsWf, Bool.and_eq_true, lineBits, List.all_cons, List.all_nil, beq_iff_eq, allDifferent,
    Bool.not_eq_true', List.contains_eq_mem, decide_eq_false_iff_not, List.mem_cons, List.not_mem_nil, or_false,
    not_or] at h
  obtain ⟨⟨⟨⟨⟨⟨⟨⟨⟨⟨⟨⟨⟨⟨⟨⟨he, hr, hs, hb, -⟩, hd⟩, hoff⟩, -⟩, -⟩, -⟩, -⟩, -⟩, -⟩, hl⟩, h4⟩, h1⟩, h8⟩, -⟩, -⟩, -⟩ := h
  obtain ⟨⟨d1, d2, d3⟩, ⟨d4, d5⟩, d6, -⟩ := hd
  exact ⟨he.2, hr.2, hs.2, hb.2, singleBit_disjoint he.1 hr.1 d1, singleBit_disjoint he.1 hs.1 d2,
    singleBit_disjoint he.1 hb.1 d3, singleBit_disjoint hr.1 hs.1 d4, singleBit_disjoint hr.1 hb.1 d5,
    singleBit_disjoint hs.1 hb.1 d6, hoff, hl, h4, h1, h8⟩

/-- The step that `INIT` forces the 8-bit interface with carries no control line. -/
theorem constantsWf_forced {k : Constants} (h : constantsWf k = true) :
    k.initForce8 = k.functionSet ||| k.mode8 ∧ k.initSet4 = k.functionSet ||| k.mode4 := by
  simp only [constantsWf, Bool.and_eq_true, beq_iff_eq] at h
  exact ⟨h.1.1.2, h.1.2⟩

/-! ### Bits of a byte -/

/-- Clearing bits that are clear already changes nothing. -/
theorem and_not_self {x e : Byte} (h : x &&& e = 0) : x &&& ~~~e = x := by
  ext i hi
  have hb : (x &&& e)[i] = false := by simp [h]
  simp only [BitVec.getElem_and, BitVec.getElem_not] at hb ⊢
  cases hx : x[i] <;> simp_all

/-- A data nibble has no line bit in it. -/
theorem data_and_line {x e : Byte} (h : e &&& 0xF0 = 0) : (x &&& 0xF0) &&& e = 0 := by
  rw [BitVec.and_assoc, BitVec.and_comm 0xF0 e, h]
  exact BitVec.and_zero

/-- The or of two bytes is clear where both are. -/
theorem or_and_zero {x y e : Byte} (hx : x &&& e = 0) (hy : y &&& e = 0) : (x ||| y) &&& e = 0 := by
  ext i hi
  have h1 : (x &&& e)[i] = false := by simp [hx]
  have h2 : (y &&& e)[i] = false := by simp [hy]
  simp only [BitVec.getElem_and, BitVec.getElem_or] at h1 h2 ⊢
  cases he : e[i] <;> simp_all

/-- A byte inside a set of flags stays inside it when a flag is cleared. -/
theorem clear_inside {x y c : Byte} (h : x &&& ~~~c = 0) : (x &&& ~~~y) &&& ~~~c = 0 := by
  rw [BitVec.and_assoc, BitVec.and_comm (~~~y), ← BitVec.and_assoc, h]
  exact BitVec.zero_and

/-- Each of two flags is inside their set. -/
theorem flag_inside (x y : Byte) : x &&& ~~~(x ||| y) = 0 ∧ y &&& ~~~(x ||| y) = 0 := by
  constructor <;> ext i hi <;> simp only [BitVec.getElem_and, BitVec.getElem_or, BitVec.getElem_not] <;>
    cases x[i] <;> cases y[i] <;> simp

/-- Each of three flags is inside their set. -/
theorem flag_inside_three (x y z : Byte) :
    x &&& ~~~(x ||| y ||| z) = 0 ∧ y &&& ~~~(x ||| y ||| z) = 0 ∧ z &&& ~~~(x ||| y ||| z) = 0 := by
  refine ⟨?_, ?_, ?_⟩ <;> ext i hi <;> simp only [BitVec.getElem_and, BitVec.getElem_or, BitVec.getElem_not] <;>
    cases x[i] <;> cases y[i] <;> cases z[i] <;> simp

/-- `resolve` gives the line and font flags only (41_init.md R102). -/
theorem resolve_inside {k : Constants} (f : LineFacts k) (rows font : Byte) :
    resolve k rows font &&& ~~~(k.line2 ||| k.dots10) = 0 := by
  obtain ⟨-, h4, h1, h8⟩ := f.zeros
  unfold resolve
  rw [h4, h1, h8]
  refine or_and_zero (or_and_zero BitVec.zero_and ?_) ?_
  · split
    · exact (flag_inside _ _).1
    · exact BitVec.zero_and
  · split
    · exact (flag_inside _ _).2
    · exact BitVec.zero_and

/-- `INIT` accepts row 0 exactly when there is a row (42_display_control.md R122). -/
theorem rowBeyond_zero (rows : Byte) : rowBeyond 0 rows = false ↔ rows ≠ 0 := by
  revert rows
  decide

end Sys2Proof.Machine
end

