-- ==== Sys2Proof/Laws/Bytes.lean ====
section
/-! SUPPORT. The bytes a command puts on the bus: each is one of its plan, and in a byte transfer each carries a
data nibble, the mode bits, the backlight byte and perhaps the strobe (40_transport.md R83, R84). -/

namespace Sys2Proof.Machine

/-- A byte of a byte transfer with mode bits `m`. -/
structure TransferByte (c : Config) (a : BusAddr) (bl m : Byte) (a' : BusAddr) (b : Byte) : Prop where
  addr : a' = a
  byte : ∃ x : Byte, b = ((x &&& 0xF0) ||| m ||| c.k.en) ||| bl ∨ b = (((x &&& 0xF0) ||| m) &&& ~~~c.k.en) ||| bl

theorem mem_byteEvents {c : Config} {a a' : BusAddr} {bl v m b : Byte} (h : Event.w a' b ∈ byteEvents c a bl v m) :
    TransferByte c a bl m a' b := by
  simp only [byteEvents, nibbleEvents, delayEvent, List.mem_append, List.mem_cons, Event.w.injEq, List.not_mem_nil,
    or_false, reduceCtorEq, false_or] at h
  obtain (⟨rfl, rfl⟩ | ⟨rfl, rfl⟩) | ⟨rfl, rfl⟩ | ⟨rfl, rfl⟩ := h
  · exact ⟨rfl, v, .inl rfl⟩
  · exact ⟨rfl, v, .inr rfl⟩
  · exact ⟨rfl, v <<< 4, .inl rfl⟩
  · exact ⟨rfl, v <<< 4, .inr rfl⟩

theorem mem_textEvents {c : Config} {a a' : BusAddr} {bl b : Byte} {text : List Byte}
    (h : Event.w a' b ∈ textEvents c a bl text) : TransferByte c a bl c.k.registerSelect a' b := by
  induction text with
  | nil => cases h
  | cons v vs ih => exact (List.mem_append.mp h).elim mem_byteEvents ih

/-- What a transfer byte has in the bits of a line constant that its parts keep out of. -/
theorem TransferByte.line {c : Config} {a a' : BusAddr} {bl m b e : Byte} (h : TransferByte c a bl m a' b)
    (hdata : e &&& 0xF0 = 0) (hen : c.k.en &&& e = 0) (hm : m &&& e = 0) : b &&& e = bl &&& e := by
  have hx : ∀ x : Byte, ((x &&& 0xF0) ||| m) &&& e = 0 := fun x => or_and_zero (data_and_line hdata) hm
  have key : ∀ y : Byte, y &&& e = 0 → (y ||| bl) &&& e = bl &&& e := fun y hy => by
    ext i hi
    have h1 : (y &&& e)[i] = false := by simp [hy]
    simp only [BitVec.getElem_and, BitVec.getElem_or] at h1 ⊢
    cases he : e[i] <;> simp_all
  obtain ⟨x, rfl | rfl⟩ := h.byte
  · exact key _ (or_and_zero (hx x) hen)
  · refine key _ ?_
    rw [BitVec.and_assoc, BitVec.and_comm (~~~c.k.en), ← BitVec.and_assoc, hx x]
    exact BitVec.zero_and

/-- The register-select bit of a data byte is set (40_transport.md R86). -/
theorem TransferByte.select {c : Config} {a a' : BusAddr} {bl m b : Byte} (h : TransferByte c a bl m a' b)
    (hen : c.k.en &&& m = 0) : b &&& m = m := by
  obtain ⟨x, rfl | rfl⟩ := h.byte
  · ext i hi
    simp only [BitVec.getElem_and, BitVec.getElem_or]
    cases m[i] <;> simp
  · ext i hi
    have h1 : (c.k.en &&& m)[i] = false := by simp [hen]
    simp only [BitVec.getElem_and, BitVec.getElem_or, BitVec.getElem_not] at h1 ⊢
    cases hm : m[i] <;> simp_all

/-- Every delay of a text is the configured one of its site. -/
theorem delays_text (c : Config) (a : BusAddr) (bl : Byte) (text : List Byte) {site : Site} {us : Nat}
    (h : Event.d site us ∈ textEvents c a bl text) : us = delayOf c.dly site := by
  induction text with
  | nil => cases h
  | cons v vs ih =>
    obtain h | h := List.mem_append.mp h
    · simp only [characterEvents, byteEvents, nibbleEvents, delayEvent, List.mem_append, List.mem_cons, Event.d.injEq,
        List.not_mem_nil, or_false, reduceCtorEq, false_or] at h
      rcases h with (⟨rfl, rfl⟩ | ⟨rfl, rfl⟩) | ⟨rfl, rfl⟩ | ⟨rfl, rfl⟩ <;> rfl
    · exact ih h

/-- Every delay a command plans is `DLY` at its site (43_timing_validator.md R152). -/
theorem Effect.delays {s : State} {i : Instr} {u : State} {st : List (State → State)} {plan : List Event}
    {put : State → State} (he : Effect s i u st plan put) {site : Site} {us : Nat} (h : Event.d site us ∈ plan) :
    us = delayOf s.cfg.dly site := by
  have two : ∀ {p q : List Event}, Event.d site us ∈ p ++ q → Event.d site us ∈ p ∨ Event.d site us ∈ q :=
    List.mem_append.mp
  cases he with
  | print ho text => exact delays_text _ _ _ _ h
  | mkchar ho hslot =>
    obtain h | h := two h
    · simp only [commandEvents, byteEvents, nibbleEvents, delayEvent, List.mem_append, List.mem_cons, Event.d.injEq,
        List.not_mem_nil, or_false, reduceCtorEq, false_or] at h
      rcases h with (⟨rfl, rfl⟩ | ⟨rfl, rfl⟩) | ⟨rfl, rfl⟩ | ⟨rfl, rfl⟩ <;> rfl
    · exact delays_text _ _ _ _ h
  | _ =>
    simp only [initEvents, recoveryEvents, clearEvents, homeEvents, commandEvents, characterEvents, byteEvents, nibbleEvents,
      delayEvent, List.mem_append, List.mem_cons, Event.d.injEq, List.not_mem_nil, or_false, false_or, reduceCtorEq] at h
    all_goals (cases site <;> simp_all)

/-! ### The last byte, and the pairing of strobes -/

/-- After a byte transfer `PORT` holds its last byte, the strobe cleared. -/
theorem portAfter_byteEvents (c : Config) (a : BusAddr) (bl v m : Byte) (p : Option Byte) :
    portAfter p (byteEvents c a bl v m) = some ((((v <<< 4) &&& 0xF0) ||| m) &&& ~~~c.k.en ||| bl) := rfl

/-- After a text `PORT` is as before, or holds the last byte of a character. -/
theorem portAfter_textEvents (c : Config) (a : BusAddr) (bl : Byte) (text : List Byte) (p : Option Byte) :
    portAfter p (textEvents c a bl text) = p ∨ ∃ v : Byte, portAfter p (textEvents c a bl text)
      = some ((((v <<< 4) &&& 0xF0) ||| c.k.registerSelect) &&& ~~~c.k.en ||| bl) := by
  induction text generalizing p with
  | nil => exact .inl rfl
  | cons v vs ih =>
    right
    simp only [textEvents, portAfter_append, characterEvents, portAfter_byteEvents]
    obtain h | h := ih _
    · exact ⟨v, h⟩
    · exact h

/-- The lines of a byte with the strobe cleared (10_state.md R27 h). -/
theorem lines_of_last {k : Constants} (f : LineFacts k) {bl x m : Byte}
    (hbl : bl = k.backlightOff ∨ bl = k.backlightOn) (hm : m = 0 ∨ m = k.registerSelect) :
    (((x &&& 0xF0) ||| m) &&& ~~~k.en ||| bl) &&& k.en = 0 ∧
      (((x &&& 0xF0) ||| m) &&& ~~~k.en ||| bl) &&& k.rwLine = 0 ∧
      (((x &&& 0xF0) ||| m) &&& ~~~k.en ||| bl) &&& k.backlightOn = bl := by
  let c : Config := { k := k, dly := defaultDelays, slotPolicy := .mask }
  have ht : TransferByte c 0 bl m 0 (((x &&& 0xF0) ||| m) &&& ~~~k.en ||| bl) := ⟨rfl, x, .inr rfl⟩
  have off : ∀ e : Byte, k.backlightOff &&& e = 0 := fun e => by rw [f.off]; exact BitVec.zero_and
  have mode : ∀ e : Byte, k.registerSelect &&& e = 0 → m &&& e = 0 := fun e he => by
    obtain rfl | rfl := hm
    · exact BitVec.zero_and
    · exact he
  refine ⟨or_and_zero ?_ ?_, ?_, ?_⟩
  · ext i hi
    simp [Bool.and_assoc]
  · obtain rfl | rfl := hbl
    · exact off _
    · rw [BitVec.and_comm]; exact f.enBl
  · rw [ht.line f.rwData f.enRw (mode _ (by rw [BitVec.and_comm]; exact f.rwRs))]
    obtain rfl | rfl := hbl
    · exact off _
    · rw [BitVec.and_comm]; exact f.rwBl
  · rw [ht.line f.blData f.enBl (mode _ f.rsBl)]
    obtain rfl | rfl := hbl
    · rw [off, f.off]
    · exact BitVec.and_self

theorem strobesPaired_nibble (c : Config) (a : BusAddr) {bl : Byte} (v : Byte) (h : bl &&& c.k.en = 0) :
    strobesPaired c.k.en (nibbleEvents c a bl v) := by
  refine ⟨fun _ => ⟨delayOf c.dly .sEn, delayOf c.dly .sSettle, [], ?_⟩, fun hb => absurd ?_ hb, trivial⟩
  · have hcleared : ((v ||| c.k.en) ||| bl) &&& ~~~c.k.en = (v &&& ~~~c.k.en) ||| bl := by
      ext i hi
      have h1 : (bl &&& c.k.en)[i] = false := by simp [h]
      clear h
      simp only [BitVec.getElem_and, BitVec.getElem_or, BitVec.getElem_not] at h1 ⊢
      cases hb : bl[i] <;> cases hc : c.k.en[i] <;> cases hv : v[i] <;> simp_all
    rw [hcleared]
    rfl
  · refine or_and_zero ?_ h
    ext i hi
    simp [Bool.and_assoc]

theorem strobesPaired_byte (c : Config) (a : BusAddr) {bl : Byte} (v m : Byte) (h : bl &&& c.k.en = 0) :
    strobesPaired c.k.en (byteEvents c a bl v m) :=
  strobesPaired_append (strobesPaired_nibble c a _ h) (strobesPaired_nibble c a _ h)

theorem strobesPaired_text (c : Config) (a : BusAddr) {bl : Byte} (text : List Byte) (h : bl &&& c.k.en = 0) :
    strobesPaired c.k.en (textEvents c a bl text) := by
  induction text with
  | nil => trivial
  | cons v vs ih => exact strobesPaired_append (strobesPaired_byte c a _ _ h) ih

/-- The bytes of a command are bytes of its plan, however the command ended. -/
theorem exec_next_bytes {i : Instr} {s t : State} (h : exec i s = .next t) :
    t.trace = s.trace ∨ ∃ u st plan put es, Effect s i u st plan put ∧ t.trace = s.trace ++ es ∧
      ∀ a b, (Event.w a b ∈ es ∨ Event.wf a b ∈ es) → Event.w a b ∈ plan := by
  have clean : ∀ {es : List Event}, (∀ e ∈ es, e.accepted) → ∀ a b, Event.wf a b ∉ es := fun hok a b hm => hok _ hm
  cases exec_next h with
  | notInitialized _ _ ht => subst ht; exact .inl rfl
  | operandFirst _ _ _ ht => subst ht; exact .inl rfl
  | @ran u st plan put he _ hok ht =>
    subst ht
    refine .inr ⟨_, _, _, _, plan, he, by simp only [advance_trace, he.put.trace, emitted_trace, he.start.trace], ?_⟩
    exact fun a b hm => hm.resolve_right (clean hok a b)
  | busFailed he g es rest a b hg hp hok _ ht =>
    subst ht
    refine .inr ⟨_, _, _, _, es ++ [.wf a b], he,
      by simp only [takeFault_trace, (he.stage hg).trace, emitted_trace, he.start.trace], fun a' b' hm => ?_⟩
    subst hp
    simp only [List.mem_append, List.mem_singleton, reduceCtorEq, or_false, clean hok, false_or, Event.wf.injEq] at hm
    obtain hm | ⟨rfl, rfl⟩ := hm
    · exact List.mem_append_left _ hm
    · exact List.mem_append_right _ (by simp)
  | @tooShort u st plan put he g es rest site hg hp hok _ ht =>
    subst ht
    refine .inr ⟨_, _, _, _, es ++ [delayEvent u.cfg site], he,
      by simp only [takeFault_trace, recordViolation_trace, (he.stage hg).trace, emitted_trace, he.start.trace],
      fun a' b' hm => ?_⟩
    subst hp
    simp only [delayEvent, List.mem_append, List.mem_singleton, reduceCtorEq, or_false, clean hok] at hm
    exact List.mem_append_left _ hm
  | operand he g es rest f hg _ hp hok ht =>
    subst ht
    refine .inr ⟨_, _, _, _, es, he,
      by simp only [takeFault_trace, (he.stage hg).trace, emitted_trace, he.start.trace], fun a' b' hm => ?_⟩
    subst hp
    exact List.mem_append_left _ (hm.resolve_right (clean hok a' b'))

end Sys2Proof.Machine
end

