-- ==== Sys2Proof/Laws/Decode.lean ====
section
/-! SUPPORT. Lemmas of the decoder's parts: the text of `PRINT`, the reserved bit of `INIT`, and that bytes after a
command do not change how it decodes. -/

namespace Sys2Proof

theorem textWf_iff (text : List Byte) : textWf text = true ↔ 0#8 ∉ text := by
  induction text with
  | nil => simp [textWf]
  | cons b bs ih =>
    have hc : (b = 0#8) ↔ (0#8 = b) := eq_comm
    simp [textWf, ih, hc]

/-- A terminated text is read back, whatever follows it. -/
theorem textOf_append {text : List Byte} (h : textWf text = true) (rest : List Byte) :
    textOf (text ++ 0#8 :: rest) = some text := by
  induction text with
  | nil => rfl
  | cons b bs ih =>
    simp only [textWf, bne_iff_ne, ne_eq, Bool.and_eq_true] at h
    simp [textOf, h.1, ih h.2]

/-- What a text that was read looks like in the stream. -/
theorem textOf_some {bytes text : List Byte} (h : textOf bytes = some text) :
    textWf text = true ∧ ∃ tail, bytes = text ++ 0#8 :: tail := by
  induction bytes generalizing text with
  | nil => cases h
  | cons b bs ih =>
    by_cases hb : b = 0#8
    · simp only [textOf, hb, if_true, Option.some.injEq] at h
      exact ⟨h ▸ rfl, bs, by simp [hb, ← h]⟩
    · simp only [textOf, hb, if_false, Option.map_eq_some_iff] at h
      obtain ⟨text', ht, rfl⟩ := h
      obtain ⟨hw, tail, rfl⟩ := ih ht
      exact ⟨by simp [textWf, hb, hw], tail, rfl⟩

theorem textOf_none {bytes : List Byte} : textOf bytes = none ↔ 0#8 ∉ bytes := by
  induction bytes with
  | nil => simp [textOf]
  | cons b bs ih =>
    by_cases hb : b = 0#8
    · simp [textOf, hb]
    · simp [textOf, hb, ih, Ne.symm hb]

/-- Bit 7 of a 7-bit address put in a byte is clear. -/
theorem addr_bit7 (a : BusAddr) : (a.setWidth 8).getLsbD 7 = false := by
  simp

/-- A bus address survives the trip through its byte. -/
theorem addr_roundTrip (a : BusAddr) : (a.setWidth 8).setWidth 7 = a := by
  simp

/-- A byte with bit 7 clear is its low seven bits. -/
theorem byte_of_addr {b : Byte} (h : b.getLsbD 7 = false) : (b.setWidth 7).setWidth 8 = b := by
  revert b
  decide

/-- A command decodes the same with any bytes after it. -/
theorem decode_append {bytes : List Byte} {i : Instr} (h : decode bytes = .command i) (rest : List Byte) :
    decode (bytes ++ rest) = .command i := by
  cases bytes with
  | nil => cases h
  | cons op tail =>
    simp only [decode, List.cons_append, decodeAt] at h ⊢
    split at h
    · rcases tail with _ | ⟨a, _ | ⟨c, _ | ⟨r, _ | ⟨f, tail⟩⟩⟩⟩ <;> simp_all [decodeInit]
    · exact h
    · exact h
    · rcases tail with _ | ⟨r, _ | ⟨c, tail⟩⟩ <;> simp_all [decodeSetcursor]
    any_goals exact h
    · rcases tail with _ | ⟨n, _ | ⟨a, _ | ⟨b, _ | ⟨c, _ | ⟨d, _ | ⟨e, _ | ⟨f, _ | ⟨g, _ | ⟨h', tail⟩⟩⟩⟩⟩⟩⟩⟩⟩ <;>
        simp_all [decodeMkchar]
    · unfold decodePrint at h ⊢
      cases ht : textOf tail with
      | none => rw [ht] at h; cases h
      | some text =>
        rw [ht] at h
        obtain ⟨hw, tl, rfl⟩ := textOf_some ht
        rw [List.append_assoc, List.cons_append, textOf_append hw]
        exact h
    · rcases tail with _ | ⟨v, tail⟩ <;> simp_all [decodeSendcmd]
    · rcases tail with _ | ⟨v, tail⟩ <;> simp_all [decodeSendchr]

end Sys2Proof
end

