-- ==== Sys2Proof/Laws/PerInstr.lean ====
section
/-! SUPPORT. Facts of the commands as syntax, one lemma per constructor. -/

namespace Sys2Proof.Laws.EncodedLength

open Sys2Proof

/-- The encoding of a command is as long as its format says, and no encoding is empty (30_encoding.md R60). -/
def Statement (i : Instr) : Prop := (encode i).length = lengthOf i ∧ 1 ≤ lengthOf i

theorem init (addr : BusAddr) (cols rows font : Byte) : Statement (.init addr cols rows font) := ⟨rfl, by simp [lengthOf]⟩
theorem clear : Statement .clear := ⟨rfl, by simp [lengthOf]⟩
theorem home : Statement .home := ⟨rfl, by simp [lengthOf]⟩
theorem setcursor (row col : Byte) : Statement (.setcursor row col) := ⟨rfl, by simp [lengthOf]⟩
theorem dispoff : Statement .dispoff := ⟨rfl, by simp [lengthOf]⟩
theorem dispon : Statement .dispon := ⟨rfl, by simp [lengthOf]⟩
theorem curoff : Statement .curoff := ⟨rfl, by simp [lengthOf]⟩
theorem curon : Statement .curon := ⟨rfl, by simp [lengthOf]⟩
theorem blnkoff : Statement .blnkoff := ⟨rfl, by simp [lengthOf]⟩
theorem blnkon : Statement .blnkon := ⟨rfl, by simp [lengthOf]⟩
theorem scrl : Statement .scrl := ⟨rfl, by simp [lengthOf]⟩
theorem scrr : Statement .scrr := ⟨rfl, by simp [lengthOf]⟩
theorem rtl : Statement .rtl := ⟨rfl, by simp [lengthOf]⟩
theorem ltr : Statement .ltr := ⟨rfl, by simp [lengthOf]⟩
theorem ascroff : Statement .ascroff := ⟨rfl, by simp [lengthOf]⟩
theorem ascron : Statement .ascron := ⟨rfl, by simp [lengthOf]⟩
theorem bloff : Statement .bloff := ⟨rfl, by simp [lengthOf]⟩
theorem blon : Statement .blon := ⟨rfl, by simp [lengthOf]⟩
theorem mkchar (slot p0 p1 p2 p3 p4 p5 p6 p7 : Byte) : Statement (.mkchar slot p0 p1 p2 p3 p4 p5 p6 p7) := ⟨rfl, by simp [lengthOf]⟩
theorem print (text : List Byte) : Statement (.print text) := by
  simp [Statement, encode, operandBytes, lengthOf]
theorem sendcmd (v : Byte) : Statement (.sendcmd v) := ⟨rfl, by simp [lengthOf]⟩
theorem sendchr (v : Byte) : Statement (.sendchr v) := ⟨rfl, by simp [lengthOf]⟩

end Sys2Proof.Laws.EncodedLength
end

