-- ==== Sys2Proof/Laws/Relate.lean ====
section
/-! SUPPORT. Two runs side by side: a relation on states that the primitives of the block keep is kept by every
command. It serves what the block never reads (10_state.md R11, R25). -/

namespace Sys2Proof.Machine

/-- A relation between states that agree on everything a rule reads, kept by every primitive update. -/
structure Blind (R : State → State → Prop) : Prop where
  reads : ∀ {s t}, R s t → t.addr = s.addr ∧ t.rows = s.rows ∧ t.bl = s.bl ∧ t.func = s.func ∧ t.ctrl = s.ctrl
    ∧ t.mode = s.mode ∧ t.inited = s.inited ∧ t.cfg = s.cfg ∧ t.sink = s.sink
  event : ∀ {s t} (e : Event), R s t → R (s.record e) (t.record e)
  bus : ∀ {s t} (p : Option Byte) (k : Sink), R s t → R { s with port := p, sink := k } { t with port := p, sink := k }
  putCtrl : ∀ {s t} (v : Byte), R s t → R (s.putCtrl v) (t.putCtrl v)
  putMode : ∀ {s t} (v : Byte), R s t → R (s.putMode v) (t.putMode v)
  putBl : ∀ {s t} (v : Byte), R s t → R (s.putBl v) (t.putBl v)
  putCursor : ∀ {s t} (row col : Byte), R s t → R (s.putCursor row col) (t.putCursor row col)
  putInited : ∀ {s t}, R s t → R s.putInited t.putInited
  advance : ∀ {s t} (n : Nat), R s t → R (s.advance n) (t.advance n)
  takeFault : ∀ {s t} (f : SeqFault), R s t → R (s.takeFault f) (t.takeFault f)
  violation : ∀ {s t} (site : Site), R s t → R (s.recordViolation site) (t.recordViolation site)
  initStart : ∀ {s t} (addr : BusAddr) (cols rows font : Byte), R s t →
    R (s.initStart addr cols rows font) (t.initStart addr cols rows font)

/-- Two micro-operations ended alike. -/
inductive SameEnd (R : State → State → Prop) : Micro → Micro → Prop where
  | done {s t : State} (h : R s t) : SameEnd R (.done s) (.done t)
  | raised {s t : State} (f : SeqFault) (h : R s t) : SameEnd R (.raised f s) (.raised f t)
  | stuck (r : Fault) : SameEnd R (.stuck r) (.stuck r)

/-- An operation that ends alike from related states. -/
def Respects (R : State → State → Prop) (op : State → Micro) : Prop := ∀ s t, R s t → SameEnd R (op s) (op t)

section
variable {R : State → State → Prop} (hR : Blind R)

theorem sameEnd_andThen {m m' : Micro} {f : State → Micro} (h : SameEnd R m m') (hf : Respects R f) :
    SameEnd R (m.andThen f) (m'.andThen f) := by
  cases h with
  | done h => exact hf _ _ h
  | raised f h => exact .raised f h
  | stuck r => exact .stuck r

theorem respects_runSeq {ops : List (State → Micro)} (h : ∀ op ∈ ops, Respects R op) : Respects R (runSeq ops) := by
  induction ops with
  | nil => exact fun s t hst => .done hst
  | cons op ops ih =>
    exact fun s t hst => sameEnd_andThen (h op (by simp) s t hst) (ih fun o ho => h o (by simp [ho]))

theorem respects_commit {f : State → State} (hf : ∀ s t, R s t → R (f s) (f t)) : Respects R (commit f) :=
  fun s t h => .done (hf s t h)

theorem sameEnd_read {α : Type} (r : Reg) {v v' : Option α} {k k' : α → Micro} (hv : v' = v)
    (hk : ∀ x, SameEnd R (k x) (k' x)) : SameEnd R (readReg r v k) (readReg r v' k') := by
  subst hv
  cases v' with
  | none => exact .stuck _
  | some x => exact hk x

include hR

theorem respects_busSend (a : BusAddr) (b : Byte) : Respects R (busSend a b) := by
  intro s t h
  have hs := (hR.reads h).2.2.2.2.2.2.2.2
  unfold busSend busWrite
  rw [hs]
  cases s.sink.answer with
  | success => exact .done (hR.bus _ _ (hR.event _ h))
  | failure => exact .raised _ (hR.bus _ _ (hR.event _ h))

theorem respects_transmit (v : Byte) : Respects R (transmit v) := by
  intro s t h
  obtain ⟨ha, -, hb, -⟩ := hR.reads h
  exact sameEnd_read _ hb fun bl => sameEnd_read _ ha fun a => respects_busSend hR a _ s t h

theorem respects_delay (site : Site) : Respects R (delay site) := by
  intro s t h
  have hc := (hR.reads h).2.2.2.2.2.2.2.1
  unfold delay
  rw [hc]
  split
  · exact .raised _ (hR.violation _ (hR.event _ h))
  · exact .done (hR.event _ h)

theorem respects_writeNibble (v : Byte) : Respects R (writeNibble v) := by
  intro s t h
  have hc := (hR.reads h).2.2.2.2.2.2.2.1
  unfold writeNibble
  rw [hc]
  refine respects_runSeq (fun op hop => ?_) s t h
  simp only [List.mem_cons, List.not_mem_nil, or_false] at hop
  obtain rfl | rfl | rfl | rfl := hop
  · exact respects_transmit hR _
  · exact respects_delay hR _
  · exact respects_transmit hR _
  · exact respects_delay hR _

theorem respects_writeByte (v m : Byte) : Respects R (writeByte v m) := by
  refine respects_runSeq fun op hop => ?_
  simp only [List.mem_cons, List.not_mem_nil, or_false] at hop
  obtain rfl | rfl := hop <;> exact respects_writeNibble hR _

theorem respects_sendCharacter (v : Byte) : Respects R (sendCharacter v) := by
  intro s t h
  unfold sendCharacter
  rw [(hR.reads h).2.2.2.2.2.2.2.1]
  exact respects_writeByte hR _ _ s t h

/-- A command byte that depends on the configuration alone. -/
theorem respects_sendCommand (c : Config → Byte) : Respects R (fun s => sendCommand (c s.cfg) s) := by
  intro s t h
  show SameEnd R (sendCommand _ s) (sendCommand _ t)
  rw [(hR.reads h).2.2.2.2.2.2.2.1]
  exact respects_writeByte hR _ _ s t h

theorem respects_setCursorOp (row col : Byte) : Respects R (setCursorOp row col) := by
  intro s t h
  obtain ⟨-, hr, -, -, -, -, -, hc, -⟩ := hR.reads h
  refine sameEnd_read _ hr fun rows => ?_
  rw [hc]
  cases rowOffset s.cfg.k row with
  | none => exact .raised _ h
  | some offset =>
    show SameEnd R (if _ then _ else _) (if _ then _ else _)
    split
    · exact .raised _ h
    · refine respects_runSeq (fun op hop => ?_) s t h
      simp only [List.mem_cons, List.not_mem_nil, or_false] at hop
      obtain rfl | rfl := hop
      · exact respects_writeByte hR _ _
      · exact respects_commit fun _ _ => hR.putCursor _ _

theorem respects_clearOp : Respects R clearOp := by
  intro s t h
  unfold clearOp
  rw [(hR.reads h).2.2.2.2.2.2.2.1]
  refine respects_runSeq (fun op hop => ?_) s t h
  simp only [List.mem_cons, List.not_mem_nil, or_false] at hop
  obtain rfl | rfl | rfl := hop
  · exact respects_writeByte hR _ _
  · exact respects_delay hR _
  · exact respects_setCursorOp hR _ _

theorem respects_homeOp : Respects R homeOp := by
  intro s t h
  unfold homeOp
  rw [(hR.reads h).2.2.2.2.2.2.2.1]
  refine respects_runSeq (fun op hop => ?_) s t h
  simp only [List.mem_cons, List.not_mem_nil, or_false] at hop
  obtain rfl | rfl := hop
  · exact respects_writeByte hR _ _
  · exact respects_delay hR _

theorem respects_toggleCtrl (change : Config → Byte → Byte) : Respects R (fun s => toggleCtrl (change s.cfg) s) := by
  intro s t h
  obtain ⟨-, -, -, -, hv, -, -, hc, -⟩ := hR.reads h
  show SameEnd R (toggleCtrl _ s) (toggleCtrl _ t)
  unfold toggleCtrl
  rw [hc]
  refine sameEnd_read _ hv fun old => respects_runSeq (fun op hop => ?_) s t h
  simp only [List.mem_cons, List.not_mem_nil, or_false] at hop
  obtain rfl | rfl := hop
  · exact respects_writeByte hR _ _
  · exact respects_commit fun _ _ => hR.putCtrl _

theorem respects_toggleMode (change : Config → Byte → Byte) : Respects R (fun s => toggleMode (change s.cfg) s) := by
  intro s t h
  obtain ⟨-, -, -, -, -, hv, -, hc, -⟩ := hR.reads h
  show SameEnd R (toggleMode _ s) (toggleMode _ t)
  unfold toggleMode
  rw [hc]
  refine sameEnd_read _ hv fun old => respects_runSeq (fun op hop => ?_) s t h
  simp only [List.mem_cons, List.not_mem_nil, or_false] at hop
  obtain rfl | rfl := hop
  · exact respects_writeByte hR _ _
  · exact respects_commit fun _ _ => hR.putMode _

theorem respects_setBacklight (new : Config → Byte) : Respects R (fun s => setBacklight (new s.cfg) s) := by
  intro s t h
  obtain ⟨ha, -, -, -, -, -, -, hc, -⟩ := hR.reads h
  show SameEnd R (setBacklight _ s) (setBacklight _ t)
  rw [hc]
  refine sameEnd_read _ ha fun a => respects_runSeq (fun op hop => ?_) s t h
  simp only [List.mem_cons, List.not_mem_nil, or_false] at hop
  obtain rfl | rfl := hop
  · exact respects_busSend hR _ _
  · exact respects_commit fun _ _ => hR.putBl _

theorem respects_text (text : List Byte) : Respects R (runSeq (text.map sendCharacter)) := by
  refine respects_runSeq fun op hop => ?_
  obtain ⟨b, -, rfl⟩ := List.mem_map.mp hop
  exact respects_sendCharacter hR b

theorem respects_mkchar (slot : Byte) (rest : List Byte) : Respects R (fun s =>
    runSeq (checkSlot slot :: sendCommand (cgramByte s.cfg.k (cgramAddress slot)) :: rest.map sendCharacter) s) := by
  intro s t h
  have hc := (hR.reads h).2.2.2.2.2.2.2.1
  show SameEnd R (runSeq _ s) (runSeq _ t)
  rw [hc]
  refine respects_runSeq (fun op hop => ?_) s t h
  simp only [List.mem_cons, List.mem_map] at hop
  obtain rfl | rfl | ⟨b, -, rfl⟩ := hop
  · intro s t h
    unfold checkSlot
    rw [(hR.reads h).2.2.2.2.2.2.2.1]
    split
    · exact .raised _ h
    · exact .done h
  · exact respects_writeByte hR _ _
  · exact respects_sendCharacter hR b

theorem respects_initSteps : Respects R initSteps := by
  intro s t h
  unfold initSteps
  rw [(hR.reads h).2.2.2.2.2.2.2.1]
  refine respects_runSeq (fun op hop => ?_) s t h
  simp only [List.mem_cons, List.not_mem_nil, or_false] at hop
  obtain rfl | rfl | rfl | rfl | rfl | rfl | rfl | rfl | rfl := hop
  · intro s t h
    unfold initRecovery
    rw [(hR.reads h).2.2.2.2.2.2.2.1]
    refine respects_runSeq (fun op hop => ?_) s t h
    simp only [List.mem_cons, List.not_mem_nil, or_false] at hop
    obtain rfl | rfl | rfl | rfl | rfl | rfl | rfl | rfl | rfl | rfl := hop <;>
      first | exact respects_delay hR _ | exact respects_transmit hR _ | exact respects_writeNibble hR _
  · intro s t h
    obtain ⟨-, -, -, hf, -, -, -, hc, -⟩ := hR.reads h
    unfold initFunctionSet
    rw [hc]
    exact sameEnd_read _ hf fun func => respects_writeByte hR _ _ s t h
  · exact respects_writeByte hR _ _
  · exact respects_commit fun _ _ => hR.putCtrl _
  · exact respects_clearOp hR
  · exact respects_writeByte hR _ _
  · exact respects_commit fun _ _ => hR.putMode _
  · exact respects_homeOp hR
  · exact respects_commit fun _ _ => hR.putInited

omit hR in
/-- The two outcomes of related ends, after `finish`. -/
theorem finish_related (hR : Blind R) {m m' : Micro} (n : Nat) (h : SameEnd R m m') {t : State}
    (ht : finish n m = .next t) : ∃ t', finish n m' = .next t' ∧ R t t' := by
  cases h with
  | done h => cases ht; exact ⟨_, rfl, hR.advance n h⟩
  | raised f h => cases ht; exact ⟨_, rfl, hR.takeFault f h⟩
  | stuck r => cases ht

theorem sessionCommand_related {i : Instr} {body body' : State → Micro} {s s' t : State} (h : R s s')
    (hb : SameEnd R (body s) (body' s')) (ht : sessionCommand i body s = .next t) :
    ∃ t', sessionCommand i body' s' = .next t' ∧ R t t' := by
  unfold sessionCommand at ht ⊢
  rw [(hR.reads h).2.2.2.2.2.2.1]
  split at ht
  · next hi => rw [if_pos hi]; exact finish_related hR _ hb ht
  · next hi => rw [if_neg hi]; cases ht; exact ⟨_, rfl, hR.takeFault _ h⟩

/-- A command takes related states to related states. -/
theorem exec_related {i : Instr} {s s' t : State} (h : R s s') (ht : exec i s = .next t) :
    ∃ t', exec i s' = .next t' ∧ R t t' := by
  have hc := (hR.reads h).2.2.2.2.2.2.2.1
  cases i with
  | init addr cols rows font =>
    exact finish_related hR _ (respects_initSteps hR _ _ (hR.initStart addr cols rows font h)) ht
  | clear => exact sessionCommand_related hR h (respects_clearOp hR _ _ h) ht
  | home => exact sessionCommand_related hR h (respects_homeOp hR _ _ h) ht
  | setcursor row col => exact sessionCommand_related hR h (respects_setCursorOp hR row col _ _ h) ht
  | dispoff => exact sessionCommand_related hR h (respects_toggleCtrl hR (fun c => clearFlag c.k.displayOn) _ _ h) ht
  | dispon => exact sessionCommand_related hR h (respects_toggleCtrl hR (fun c => setFlag c.k.displayOn) _ _ h) ht
  | curoff => exact sessionCommand_related hR h (respects_toggleCtrl hR (fun c => clearFlag c.k.cursorOn) _ _ h) ht
  | curon => exact sessionCommand_related hR h (respects_toggleCtrl hR (fun c => setFlag c.k.cursorOn) _ _ h) ht
  | blnkoff => exact sessionCommand_related hR h (respects_toggleCtrl hR (fun c => clearFlag c.k.blinkOn) _ _ h) ht
  | blnkon => exact sessionCommand_related hR h (respects_toggleCtrl hR (fun c => setFlag c.k.blinkOn) _ _ h) ht
  | scrl =>
    exact sessionCommand_related hR h (respects_sendCommand hR (fun c => scrollByte c.k c.k.moveLeft) _ _ h) ht
  | scrr =>
    exact sessionCommand_related hR h (respects_sendCommand hR (fun c => scrollByte c.k c.k.moveRight) _ _ h) ht
  | rtl => exact sessionCommand_related hR h (respects_toggleMode hR (fun c => clearFlag c.k.entryLeft) _ _ h) ht
  | ltr => exact sessionCommand_related hR h (respects_toggleMode hR (fun c => setFlag c.k.entryLeft) _ _ h) ht
  | ascroff => exact sessionCommand_related hR h (respects_toggleMode hR (fun c => clearFlag c.k.autoscroll) _ _ h) ht
  | ascron => exact sessionCommand_related hR h (respects_toggleMode hR (fun c => setFlag c.k.autoscroll) _ _ h) ht
  | bloff => exact sessionCommand_related hR h (respects_setBacklight hR (fun c => c.k.backlightOff) _ _ h) ht
  | blon => exact sessionCommand_related hR h (respects_setBacklight hR (fun c => c.k.backlightOn) _ _ h) ht
  | mkchar slot p0 p1 p2 p3 p4 p5 p6 p7 =>
    exact sessionCommand_related hR h (respects_mkchar hR slot [p0, p1, p2, p3, p4, p5, p6, p7] _ _ h) ht
  | print text => exact sessionCommand_related hR h (respects_text hR text _ _ h) ht
  | sendcmd v => exact sessionCommand_related hR h (respects_writeByte hR v 0 _ _ h) ht
  | sendchr v => exact sessionCommand_related hR h (respects_sendCharacter hR v _ _ h) ht

end

end Sys2Proof.Machine
end

