-- ==== Sys2Proof/Laws/Step.lean ====
section
/-! SUPPORT. What one step can do, said once, and runs of several steps. -/

namespace Sys2Proof.Machine

/-- How a step came to the next state `t`. -/
inductive StepCase (s t : State) : Prop where
  /-- A halted or finished block stays as it is. -/
  | still (ht : t = s)
  | illegal (hh : s.halt = false) (op : Byte) (hd : decode (s.cmd.drop s.cp) = .illegalEncoding op)
      (ht : t = s.takeFault (.illegalEncoding op))
  | truncated (hh : s.halt = false) (op : Byte) (hd : decode (s.cmd.drop s.cp) = .truncatedCommand op)
      (ht : t = s.takeFault (.truncatedCommand op))
  | command (hh : s.halt = false) (i : Instr) (hd : decode (s.cmd.drop s.cp) = .command i) (h : exec i s = .next t)

/-- A block with a table `K` that is not well-formed gives no step (00_scope.md R8). -/
theorem step_ill_formed {s : State} (hk : constantsWf s.cfg.k = false) : step s = .refused .illFormedConstants := by
  simp [step, sequencer, configured, hk]

/-- A halted block stays as it is (10_state.md R20). -/
theorem step_halted {s : State} (hk : constantsWf s.cfg.k = true) (hh : s.halt = true) : step s = .next s := by
  simp [step, sequencer, configured, hk, hh]

/-- A block that is not halted does what the bytes at `cp` say (30_encoding.md R61, R62). -/
theorem step_running {s : State} (hk : constantsWf s.cfg.k = true) (hh : s.halt = false) :
    step s = match decode (s.cmd.drop s.cp) with
      | .command i => exec i s
      | .endOfStream => .next s
      | .illegalEncoding op => .next (s.takeFault (.illegalEncoding op))
      | .truncatedCommand op => .next (s.takeFault (.truncatedCommand op)) :=
  (if_neg (by rw [hh]; exact Bool.false_ne_true) : step s = configured s _).trans (if_pos hk)

/-- The inversion lemma of `step` at a next state. -/
theorem step_next {s t : State} (h : step s = .next t) : constantsWf s.cfg.k = true ∧ StepCase s t := by
  cases hk : constantsWf s.cfg.k with
  | false => rw [step_ill_formed hk] at h; cases h
  | true =>
    refine ⟨rfl, ?_⟩
    cases hh : s.halt with
    | true => rw [step_halted hk hh] at h; cases h; exact .still rfl
    | false =>
      rw [step_running hk hh] at h
      split at h
      · next i hd => exact .command hh i hd h
      · cases h; exact .still rfl
      · next op hd => cases h; exact .illegal hh op hd rfl
      · next op hd => cases h; exact .truncated hh op hd rfl

/-- The first step of a run. -/
theorem run_succ (M : Host.Core) (n : Nat) (s : M.State) : M.run (n + 1) s =
    match M.step s with
    | .next t => M.run n t
    | .fault r => .fault r
    | .refused r => .refused r := rfl

/-- A run goes on from the state its first step answers. -/
theorem core_run_step {s t : State} (h : step s = .next t) (n : Nat) :
    Host.Core.run core (n + 1) s = Host.Core.run core n t := by
  have hs : core.step s = .next t := h
  exact (run_succ core n s).trans (by rw [hs])

/-- A halted block stays as it is in every run (10_state.md R20). -/
theorem run_halted {s u : State} (hh : s.halt = true) (n : Nat) (h : Host.Core.run core n s = .next u) : u = s := by
  induction n with
  | zero => cases h; rfl
  | succ n ih =>
    cases hk : constantsWf s.cfg.k with
    | true =>
      rw [core_run_step (step_halted hk hh)] at h
      exact ih h
    | false =>
      have hstep : core.step s = .refused .illFormedConstants := step_ill_formed hk
      have hrun := (run_succ core n s).symm.trans h
      rw [hstep] at hrun
      cases hrun

/-- What every step keeps, a run keeps. -/
theorem core_run_invariant {P : State → Prop} (hstep : ∀ s, P s → ∃ t, step s = .next t ∧ P t) (n : Nat) :
    ∀ s, P s → ∃ t, Host.Core.run core n s = .next t ∧ P t := by
  induction n with
  | zero => exact fun s hs => ⟨s, rfl, hs⟩
  | succ n ih =>
    intro s hs
    obtain ⟨t, ht, hp⟩ := hstep s hs
    obtain ⟨u, hu, hq⟩ := ih t hp
    exact ⟨u, by rw [core_run_step ht]; exact hu, hq⟩

end Sys2Proof.Machine
end

