-- ==== Sys2Proof/Machine/Assembler.lean ====
section
/-! DEFINITION. The assembly notation (30_encoding.md R66) and the second names of the commands (R67),
as a function from text to the command stream. The block itself never sees text.
DESIGN CHOICE where the two rules leave the notation open: assumption log 12 lists each point. -/

namespace Sys2Proof.Machine

/-- The names R64 and R67 give a command. -/
inductive Mnemonic where
  | init | clear | home | setcursor | dispoff | dispon | curoff | curon | blnkoff | blnkon | scrl | scrr
  | rtl | ltr | ascroff | ascron | bloff | blon | mkchar | print | sendcmd | sendchr
deriving DecidableEq, Repr

/-- Each mnemonic with its spelling (30_encoding.md R64). -/
def mnemonicTable : List (String × Mnemonic) :=
  [("INIT", .init), ("CLEAR", .clear), ("HOME", .home), ("SETCURSOR", .setcursor),
   ("DISPOFF", .dispoff), ("DISPON", .dispon), ("CUROFF", .curoff), ("CURON", .curon),
   ("BLNKOFF", .blnkoff), ("BLNKON", .blnkon), ("SCRL", .scrl), ("SCRR", .scrr),
   ("RTL", .rtl), ("LTR", .ltr), ("ASCROFF", .ascroff), ("ASCRON", .ascron),
   ("BLOFF", .bloff), ("BLON", .blon), ("MKCHAR", .mkchar), ("PRINT", .print),
   ("SENDCMD", .sendcmd), ("SENDCHR", .sendchr)]

/-- DOC0's own names, accepted as second names (30_encoding.md R67). -/
def apiNameTable : List (String × Mnemonic) :=
  [("init", .init), ("clear", .clear), ("returnHome", .home), ("setCursor", .setcursor),
   ("turnOnBacklight", .blon), ("turnOffBacklight", .bloff), ("createChar", .mkchar),
   ("print", .print), ("sendCommand", .sendcmd), ("sendCharacter", .sendchr)]

/-- The command a name stands for. -/
def lookupName (name : List Char) : Option Mnemonic :=
  ((mnemonicTable ++ apiNameTable).find? fun row => row.1.toList == name).map (·.2)

/-- Blanks between the parts of a line. -/
def isBlank (c : Char) : Bool := c == ' ' || c == '\t' || c == '\r'

/-- The characters of a name. -/
def isLetter (c : Char) : Bool := c.isAlpha

/-- Remove leading blanks. -/
def skipBlanks (cs : List Char) : List Char := cs.dropWhile isBlank

/-- Remove leading and trailing blanks. -/
def trimBlanks (cs : List Char) : List Char := (skipBlanks (skipBlanks cs).reverse).reverse

/-- The value of a digit in base 16, either case. -/
def digitValue (c : Char) : Option Nat :=
  let n := c.toNat
  if 48 ≤ n ∧ n ≤ 57 then some (n - 48)
  else if 97 ≤ n ∧ n ≤ 102 then some (n - 87)
  else if 65 ≤ n ∧ n ≤ 70 then some (n - 55)
  else none

/-- The number the digits write in a base; at least one digit is asked for by the caller. -/
def digits (base : Nat) : Nat → List Char → Option Nat
  | acc, [] => some acc
  | acc, c :: cs =>
    match digitValue c with
    | some d => if d < base then digits base (acc * base + d) cs else none
    | none => none

/-- A number, "decimal (`16`) or hexadecimal with `0x` (`0x27`)" (30_encoding.md R66). -/
def parseNumber : List Char → Option Nat
  | '0' :: 'x' :: c :: cs => digits 16 0 (c :: cs)
  | c :: cs => digits 10 0 (c :: cs)
  | [] => none

/-- A number that fits a byte (30_encoding.md R66). -/
def parseByte (cs : List Char) : Option Byte :=
  match parseNumber (trimBlanks cs) with
  | some n => if n < 256 then some (BitVec.ofNat 8 n) else none
  | none => none

/-- The parts of a list between commas. -/
def splitCommas : List Char → List (List Char)
  | [] => [[]]
  | c :: cs =>
    match splitCommas cs with
    | [] => [[c]]
    | part :: parts => if c == ',' then [] :: part :: parts else (c :: part) :: parts

/-- The operand bytes of a command other than `PRINT`; a blank list has none. -/
def parseOperands (cs : List Char) : Option (List Byte) :=
  if trimBlanks cs = [] then some [] else (splitCommas cs).mapM parseByte

/-- The characters before a comment (30_encoding.md R66). -/
def dropComment (cs : List Char) : List Char := cs.takeWhile (· != ';')

/-- The bytes of a quoted string after its opening quote, and the characters after its closing quote:
`\xNN`, `\\` and `\"` are escapes, every other ASCII character stands for its code, and the byte zero
is not allowed (30_encoding.md R66).
DESIGN CHOICE where R66 is silent (assumption log 12): a backslash followed by anything but `x`, a backslash or a
quote is rejected, and so is a character outside ASCII. -/
def parseQuoted : List Char → Option (List Byte × List Char)
  | [] => none
  | '"' :: cs => some ([], cs)
  | '\\' :: 'x' :: a :: b :: cs =>
    match digits 16 0 [a, b], parseQuoted cs with
    | some n, some (text, rest) => if n = 0 then none else some (BitVec.ofNat 8 n :: text, rest)
    | _, _ => none
  | '\\' :: '\\' :: cs => (parseQuoted cs).map fun r => (0x5C :: r.1, r.2)
  | '\\' :: '"' :: cs => (parseQuoted cs).map fun r => (0x22 :: r.1, r.2)
  | '\\' :: _ => none
  | c :: cs =>
    if 0 < c.toNat ∧ c.toNat < 128 then (parseQuoted cs).map fun r => (BitVec.ofNat 8 c.toNat :: r.1, r.2)
    else none

/-- The one quoted string of `PRINT`, with nothing but a comment after it. -/
def parseText (cs : List Char) : Option (List Byte) :=
  match skipBlanks cs with
  | '"' :: body =>
    match parseQuoted body with
    | some (text, rest) => if trimBlanks (dropComment rest) = [] then some text else none
    | none => none
  | _ => none

/-- The command with a name and its operand bytes; the number of operands must be right and `addr` must be
0 to 127 (30_encoding.md R66). -/
def buildInstr : Mnemonic → List Byte → Option Instr
  | .init, [addr, cols, rows, font] => if addr.ult 0x80 then some (.init (addr.setWidth 7) cols rows font) else none
  | .clear, [] => some .clear
  | .home, [] => some .home
  | .setcursor, [row, col] => some (.setcursor row col)
  | .dispoff, [] => some .dispoff
  | .dispon, [] => some .dispon
  | .curoff, [] => some .curoff
  | .curon, [] => some .curon
  | .blnkoff, [] => some .blnkoff
  | .blnkon, [] => some .blnkon
  | .scrl, [] => some .scrl
  | .scrr, [] => some .scrr
  | .rtl, [] => some .rtl
  | .ltr, [] => some .ltr
  | .ascroff, [] => some .ascroff
  | .ascron, [] => some .ascron
  | .bloff, [] => some .bloff
  | .blon, [] => some .blon
  | .mkchar, [slot, p0, p1, p2, p3, p4, p5, p6, p7] => some (.mkchar slot p0 p1 p2 p3 p4 p5 p6 p7)
  | .sendcmd, [v] => some (.sendcmd v)
  | .sendchr, [v] => some (.sendchr v)
  | _, _ => none

/-- A name ends at a blank, a comment or the end of the line. -/
def nameEnds : List Char → Bool
  | [] => true
  | c :: _ => isBlank c || c == ';'

/-- One line: nothing (blank or comment), a command, or an error (`none`) (30_encoding.md R66). -/
def assembleLine (line : List Char) : Option (List Instr) :=
  let cs := skipBlanks line
  if trimBlanks (dropComment cs) = [] then some []
  else if nameEnds (cs.dropWhile isLetter) = false then none
  else
    match lookupName (cs.takeWhile isLetter) with
    | none => none
    | some .print => (parseText (cs.dropWhile isLetter)).map fun text => [.print text]
    | some m =>
      match parseOperands (dropComment (cs.dropWhile isLetter)) with
      | some bytes => (buildInstr m bytes).map fun i => [i]
      | none => none

/-- The lines of a text. -/
def splitLines : List Char → List (List Char)
  | [] => [[]]
  | c :: cs =>
    match splitLines cs with
    | [] => [[c]]
    | line :: lines => if c == '\n' then [] :: line :: lines else (c :: line) :: lines

/-- The commands of a text, in line order. -/
def assembleText (text : List Char) : Option (List Instr) :=
  ((splitLines text).mapM assembleLine).map List.flatten

/-- The assembled stream of a text (30_encoding.md R66). -/
def assemble (text : List Char) : Option (List Byte) := (assembleText text).map encodeProgram

end Sys2Proof.Machine
end

