-- ==== Sys2Proof/Tests/Slice0.lean ====
section
/-! SUPPORT. Tests. Expected values are those of 95_test_vectors.md (cited by their numbers V, P) or are written
out from the spec's rules; then one witness for each statement that has hypotheses. -/

namespace Sys2Proof.Tests

open Sys2Proof Sys2Proof.Machine

/-! ### Well-formedness: the check refuses a text that holds the terminator (30_encoding.md R60, R63) -/

theorem test_wf_refuses_zero_in_text : (Instr.print [0x41, 0x00]).wf = false := by decide

theorem test_wf_accepts_text : (Instr.print [0x41, 0xFF]).wf = true ∧ (Instr.print []).wf = true := by decide

/-! ### Decoding: one word for each constructor, written out from 30_encoding.md R60 and R64 -/

theorem test_decode_init : decode [0x01, 0x27, 0x10, 0x02, 0x00] = .command (.init 0x27 16 2 0) := by decide
theorem test_decode_clear : decode [0x02, 0xFF] = .command .clear := by decide
theorem test_decode_home : decode [0x03] = .command .home := by decide
theorem test_decode_setcursor : decode [0x04, 0x01, 0x05] = .command (.setcursor 1 5) := by decide
theorem test_decode_dispoff : decode [0x10] = .command .dispoff := by decide
theorem test_decode_dispon : decode [0x11] = .command .dispon := by decide
theorem test_decode_curoff : decode [0x12] = .command .curoff := by decide
theorem test_decode_curon : decode [0x13] = .command .curon := by decide
theorem test_decode_blnkoff : decode [0x14] = .command .blnkoff := by decide
theorem test_decode_blnkon : decode [0x15] = .command .blnkon := by decide
theorem test_decode_scrl : decode [0x16] = .command .scrl := by decide
theorem test_decode_scrr : decode [0x17] = .command .scrr := by decide
theorem test_decode_rtl : decode [0x18] = .command .rtl := by decide
theorem test_decode_ltr : decode [0x19] = .command .ltr := by decide
theorem test_decode_ascroff : decode [0x1A] = .command .ascroff := by decide
theorem test_decode_ascron : decode [0x1B] = .command .ascron := by decide
theorem test_decode_bloff : decode [0x1C] = .command .bloff := by decide
theorem test_decode_blon : decode [0x1D] = .command .blon := by decide
theorem test_decode_mkchar : decode [0x20, 0x0B, 0x00, 0x0A, 0x1F, 0x1F, 0x0E, 0x04, 0x00, 0x81]
    = .command (.mkchar 11 0x00 0x0A 0x1F 0x1F 0x0E 0x04 0x00 0x81) := by decide
theorem test_decode_print : decode [0x21, 0x48, 0x69, 0x21, 0x00, 0x02] = .command (.print [0x48, 0x69, 0x21]) := by decide
theorem test_decode_sendcmd : decode [0x22, 0x28] = .command (.sendcmd 0x28) := by decide
theorem test_decode_sendchr : decode [0x23, 0x00] = .command (.sendchr 0x00) := by decide

/-- V72, V73, V79a. -/
theorem test_decode_reserved : decode [0x00] = .illegalEncoding 0x00 ∧ decode [0x05] = .illegalEncoding 0x05 ∧
    decode [0xFF] = .illegalEncoding 0xFF := by decide

/-- V74 to V77, V79b: truncation comes before the reserved bit. -/
theorem test_decode_truncated : decode [0x01, 0x27, 0x10] = .truncatedCommand 0x01 ∧
    decode [0x01, 0xA7, 0x10, 0x02, 0x00] = .illegalEncoding 0x01 ∧
    decode [0x01, 0xA7, 0x10] = .truncatedCommand 0x01 ∧ decode [0x04, 0x01] = .truncatedCommand 0x04 ∧
    decode [0x21, 0x41, 0x42] = .truncatedCommand 0x21 := by decide

/-- A table word: bit 0 is the least significant bit of the first byte. -/
theorem test_table_word : decodeTableWord 40 0x0002102701 = some (.init 0x27 16 2 0) ∧
    decodeTableWord 24 0x050104 = some (.setcursor 1 5) ∧ decodeTableWord 8 0x21 = some (.print []) ∧
    decodeTableWord 8 0x00 = none := by decide

/-! ### The assembly notation (30_encoding.md R66, R67) -/

/-- P1 of the vectors, and second names. -/
theorem test_assemble_program : assemble "INIT 0x27, 16, 2, 0 ; start\nBLON\n\nsetCursor 0, 3\nPRINT \"Hi!\"".toList
    = some [0x01, 0x27, 0x10, 0x02, 0x00, 0x1D, 0x04, 0x00, 0x03, 0x21, 0x48, 0x69, 0x21, 0x00] := by decide

theorem test_assemble_rejects : assemble "INIT 128, 16, 2, 0".toList = none ∧ assemble "SETCURSOR 1".toList = none ∧
    assemble "SENDCMD 256".toList = none ∧ assemble "PRINT \"\\x00\"".toList = none := by decide

/-! ### Small states -/

/-- State S0 of the vectors, its trace cut off and the given stream after the `INIT`. -/
def s0 (stream : List Byte) : State :=
  { State.reset with
    addr := some 0x27, cols := some 16, rows := some 2, crow := some 0, ccol := some 0, bl := some 0x00,
    func := some 0x08, ctrl := some 0x04, mode := some 0x02, cp := 5, inited := true, port := some 0x20,
    cmd := [0x01, 0x27, 0x10, 0x02, 0x00] ++ stream }

/-- State S4: four rows. -/
def s4 (stream : List Byte) : State := { s0 stream with cols := some 20, rows := some 4 }

/-- The reset state with a stream. -/
def fresh (stream : List Byte) : State := { State.reset with cmd := stream }

/-- The `n`-th bus write fails. -/
def failing (n : Nat) (s : State) : State :=
  { s with sink := { script := List.replicate n .success ++ [.failure], rest := .success } }

/-- The bytes of the successful bus writes. -/
def busBytes : List Event → List Byte
  | [] => []
  | .w _ b :: es => b :: busBytes es
  | .wf _ _ :: es => busBytes es
  | .d _ _ :: es => busBytes es

/-- A view of the next state. -/
def look {α : Type} (o : Host.Outcome State Fault Refusal) (f : State → α) : Option α :=
  match o with
  | .next t => some (f t)
  | .fault _ => none
  | .refused _ => none

/-! ### One step of each command -/

/-- V10. -/
theorem test_init : look (step (fresh [0x01, 0x27, 0x10, 0x02, 0x00])) (fun t =>
    (busBytes t.trace, t.trace.length, t.func, t.ctrl, t.mode, t.cp, t.inited, t.port))
    = some ([0x00, 0x30, 0x34, 0x30, 0x34, 0x30, 0x24, 0x20, 0x24, 0x20, 0x84, 0x80, 0x04, 0x00, 0xC4, 0xC0, 0x04, 0x00,
        0x14, 0x10, 0x84, 0x80, 0x04, 0x00, 0x04, 0x00, 0x64, 0x60, 0x04, 0x00, 0x24, 0x20], 69, some 0x08, some 0x04,
        some 0x02, 5, true, some 0x20) := by rfl

/-- V16: no row. -/
theorem test_init_no_rows : look (step (fresh [0x01, 0x27, 0x10, 0x00, 0x00])) (fun t =>
    (t.trace.length, t.halt, t.faultCode, t.fcp, t.cp, t.inited, t.rows, t.ctrl, t.mode, t.crow, t.port))
    = some (44, true, 2, some 0, 0, false, some 0, some 0x04, none, none, some 0x10) := by rfl

/-- V27. -/
theorem test_clear : look (step (s0 [0x02])) (fun t => (busBytes t.trace, t.trace.length, t.crow, t.ccol, t.cp))
    = some ([0x04, 0x00, 0x14, 0x10, 0x84, 0x80, 0x04, 0x00], 17, some 0, some 0, 6) := by decide

/-- V26. -/
theorem test_home : look (step (s0 [0x03])) (fun t => (busBytes t.trace, t.trace.getLast?, t.cp))
    = some ([0x04, 0x00, 0x24, 0x20], some (.d .sHome 2000), 6) := by decide

/-- V35: the last cell of a 20x4 display. -/
theorem test_setcursor : look (step (s4 [0x04, 0x03, 0x13])) (fun t => (busBytes t.trace, t.crow, t.ccol, t.cp))
    = some ([0xE4, 0xE0, 0x74, 0x70], some 3, some 19, 8) := by decide

/-- V36 and V38: a row beyond `ROWS`, and a column that wraps. -/
theorem test_setcursor_edges : look (step (s0 [0x04, 0x02, 0x00])) (fun t => (t.trace, t.faultCode, t.fcp, t.cp))
      = some ([], 2, some 5, 5) ∧
    look (step (s0 [0x04, 0x01, 0xFF])) (fun t => (busBytes t.trace, t.ccol)) = some ([0xB4, 0xB0, 0xF4, 0xF0], some 0xFF) := by
  decide

/-- V40. -/
theorem test_dispoff : look (step (s0 [0x10])) (fun t => (busBytes t.trace, t.ctrl)) = some ([0x04, 0x00, 0x84, 0x80], some 0x00) := by
  decide

/-- V41. -/
theorem test_dispon : look (step (s0 [0x11])) (fun t => (busBytes t.trace, t.ctrl)) = some ([0x04, 0x00, 0xC4, 0xC0], some 0x04) := by
  decide

/-- V42. -/
theorem test_curon : look (step (s0 [0x13])) (fun t => (busBytes t.trace, t.ctrl)) = some ([0x04, 0x00, 0xE4, 0xE0], some 0x06) := by
  decide

/-- V45. -/
theorem test_curoff : look (step { s0 [0x12] with ctrl := some 0x07 }) (fun t => (busBytes t.trace, t.ctrl))
    = some ([0x04, 0x00, 0xD4, 0xD0], some 0x05) := by decide

/-- V43. -/
theorem test_blnkon : look (step { s0 [0x15] with ctrl := some 0x06 }) (fun t => (busBytes t.trace, t.ctrl))
    = some ([0x04, 0x00, 0xF4, 0xF0], some 0x07) := by decide

/-- V46. -/
theorem test_blnkoff : look (step { s0 [0x14] with ctrl := some 0x07 }) (fun t => (busBytes t.trace, t.ctrl))
    = some ([0x04, 0x00, 0xE4, 0xE0], some 0x06) := by decide

/-- V47. -/
theorem test_scrl : look (step (s0 [0x16])) (fun t => (busBytes t.trace, t.ctrl, t.mode))
    = some ([0x14, 0x10, 0x84, 0x80], some 0x04, some 0x02) := by decide

/-- V48. -/
theorem test_scrr : look (step (s0 [0x17])) (fun t => busBytes t.trace) = some [0x14, 0x10, 0xC4, 0xC0] := by decide

/-- V49. -/
theorem test_rtl : look (step (s0 [0x18])) (fun t => (busBytes t.trace, t.mode)) = some ([0x04, 0x00, 0x44, 0x40], some 0x00) := by
  decide

/-- V50. -/
theorem test_ltr : look (step (s0 [0x19])) (fun t => (busBytes t.trace, t.mode)) = some ([0x04, 0x00, 0x64, 0x60], some 0x02) := by
  decide

/-- V51. -/
theorem test_ascron : look (step (s0 [0x1B])) (fun t => (busBytes t.trace, t.mode)) = some ([0x04, 0x00, 0x74, 0x70], some 0x03) := by
  decide

/-- V53. -/
theorem test_ascroff : look (step { s0 [0x1A] with mode := some 0x03 }) (fun t => (busBytes t.trace, t.mode))
    = some ([0x04, 0x00, 0x64, 0x60], some 0x02) := by decide

/-- V54. -/
theorem test_blon : look (step (s0 [0x1D])) (fun t => (t.trace, t.bl, t.port, t.cp)) = some ([.w 0x27 0x08], some 0x08, some 0x08, 6) := by
  decide

/-- V86: the write fails, `BL` stays. -/
theorem test_blon_failure : look (step (failing 0 (s0 [0x1D]))) (fun t => (t.trace, t.bl, t.port, t.fcp, t.faultCode))
    = some ([.wf 0x27 0x08], some 0x00, none, some 5, 1) := by decide

/-- V57. -/
theorem test_bloff : look (step (s0 [0x1C])) (fun t => (t.trace, t.bl, t.port)) = some ([.w 0x27 0x00], some 0x00, some 0x00) := by
  decide

/-- V61: slot 11 is slot 3 under `mask`. -/
theorem test_mkchar : look (step (s0 [0x20, 11, 0x00, 0x0A, 0x1F, 0x1F, 0x0E, 0x04, 0x00, 0x00])) (fun t =>
    (busBytes t.trace, t.cp))
    = some ([0x54, 0x50, 0x84, 0x80, 0x05, 0x01, 0x05, 0x01, 0x05, 0x01, 0xA5, 0xA1, 0x15, 0x11, 0xF5, 0xF1, 0x15, 0x11,
        0xF5, 0xF1, 0x05, 0x01, 0xE5, 0xE1, 0x05, 0x01, 0x45, 0x41, 0x05, 0x01, 0x05, 0x01, 0x05, 0x01, 0x05, 0x01], 15) := by
  decide

/-- The configuration with `SLOT_POLICY = reject`. -/
def rejecting : Config := { defaultConfig with slotPolicy := .reject }

/-- V62 and V63: under `reject` slot 8 faults and slot 7 runs. -/
theorem test_mkchar_reject :
    look (step { s0 [0x20, 8, 0, 0, 0, 0, 0, 0, 0, 0] with cfg := rejecting }) (fun t => (t.trace, t.faultCode, t.fcp, t.cp))
      = some ([], 3, some 5, 5) ∧
    look (step { s0 [0x20, 7, 0, 0, 0, 0, 0, 0, 0, 0] with cfg := rejecting }) (fun t =>
      ((busBytes t.trace).take 4, t.halt)) = some ([0x74, 0x70, 0x84, 0x80], false) := by decide

/-- V25: with the backlight on. -/
theorem test_print : look (step { s0 [0x21, 0x41, 0x00] with bl := some 0x08 }) (fun t => (busBytes t.trace, t.cp, t.crow, t.ccol))
    = some ([0x4D, 0x49, 0x1D, 0x19], 8, some 0, some 0) := by decide

/-- V24 and V79b: an empty text, and one that does not end. -/
theorem test_print_edges : look (step (s0 [0x21, 0x00])) (fun t => (t.trace, t.cp)) = some ([], 7) ∧
    look (step (s0 [0x21, 0x41, 0x42])) (fun t => (t.trace, t.faultCode, t.cp)) = some ([], 6, 5) := by decide

/-- V20. -/
theorem test_sendcmd : look (step (s0 [0x22, 0x28])) (fun t => (t.trace, t.func, t.cp))
    = some ([.w 0x27 0x24, .d .sEn 2, .w 0x27 0x20, .d .sSettle 50, .w 0x27 0x84, .d .sEn 2, .w 0x27 0x80, .d .sSettle 50],
        some 0x08, 7) := by decide

/-- V21 and V22. -/
theorem test_sendchr : look (step (s0 [0x23, 0x41])) (fun t => (busBytes t.trace, t.port)) = some ([0x45, 0x41, 0x15, 0x11], some 0x11) ∧
    look (step (s0 [0x23, 0x00])) (fun t => busBytes t.trace) = some [0x05, 0x01, 0x05, 0x01] := by decide

/-- V85: a toggle that fails at its third write keeps its register. -/
theorem test_failed_toggle : look (step (failing 2 (s0 [0x13]))) (fun t => (t.trace, t.ctrl, t.faultCode, t.fcp, t.cp, t.port))
    = some ([.w 0x27 0x04, .d .sEn 2, .w 0x27 0x00, .d .sSettle 50, .wf 0x27 0xE4], some 0x04, 1, some 5, 5, none) := by rfl

/-- V70, V71, V78. -/
theorem test_not_initialized : look (step (fresh [0x02])) (fun t => (t.trace, t.faultCode, t.addr)) = some ([], 4, none) ∧
    look (step (fresh [0x1D])) (fun t => t.faultCode) = some 4 ∧
    look (step (fresh [0x04, 0x09, 0x00])) (fun t => t.faultCode) = some 4 := by decide

/-- A delay table with one entry below its floor. -/
def hasty (s : State) (dly : DelayTable) : State := { s with cfg := { defaultConfig with dly := dly } }

/-- V90 and V99 (c): the first wait is too short, whatever the sink. -/
theorem test_timing_first : look (step (failing 0 (hasty (fresh [0x01, 0x27, 0x10, 0x02, 0x00]) { defaultDelays with pwr := 99999 })))
    (fun t => (t.trace, t.faultCode, t.tvViol, t.tvSite, t.port, t.ctrl, t.addr))
    = some ([.d .sPwr 99999], 7, true, some 1, none, none, some 0x27) := by rfl

/-- V95 and V98: inside a nibble, and at the very last event. -/
theorem test_timing_later :
    look (step (hasty (fresh [0x01, 0x27, 0x10, 0x02, 0x00]) { defaultDelays with en := 1 })) (fun t =>
      (t.trace.length, t.tvSite, t.port)) = some (7, some 6, some 0x34) ∧
    look (step (hasty (fresh [0x01, 0x27, 0x10, 0x02, 0x00]) { defaultDelays with home := 1999 })) (fun t =>
      (t.trace.length, t.tvSite, t.mode, t.crow, t.inited)) = some (69, some 9, some 0x02, some 0, false) := by decide

/-- V79: the empty stream is finished at once. -/
theorem test_empty_stream : step (fresh []) = .next (fresh []) := rfl

/-! ### The facts the witnesses share -/

theorem s0_open (stream : List Byte) : (s0 stream).Open 0x27 0x00 := ⟨rfl, rfl, rfl⟩

theorem s0_delays (stream : List Byte) : (s0 stream).DelaysMeetFloors := by
  intro site
  cases site <;> exact Nat.le_refl _

theorem s0_sink (stream : List Byte) : (s0 stream).SinkClean := ⟨rfl, by simp [s0, State.reset]⟩

theorem s4_premises (stream : List Byte) :
    (s4 stream).Open 0x27 0x00 ∧ (s4 stream).DelaysMeetFloors ∧ (s4 stream).SinkClean :=
  ⟨⟨rfl, rfl, rfl⟩, s0_delays stream, s0_sink stream⟩

theorem s0_inv : (s0 [0x1D]).Inv where
  wf := by decide
  backlight := by decide
  ctrlBits := by decide
  modeBits := by decide
  funcBits := by decide
  cursorRow := by
    intro _ r hr
    cases hr
    exact ⟨by decide, 2, rfl, by decide⟩
  session := fun _ => ⟨rfl, rfl, rfl, rfl, rfl, rfl, rfl, rfl, 2, rfl, by decide⟩
  unwritten := by decide
  faultHalt := by decide
  faultEntry := ⟨by decide, by decide⟩
  validator := ⟨by decide, by decide⟩
  pointer := by decide
  portLines := by decide
  noFailedWrite := by
    intro _ a b h
    cases h

/-! ### Witnesses: encoding -/

theorem witness_DecodeOfEncode : (Instr.init 127 255 255 255).wf = true ∧ (Instr.print []).wf = true ∧
    (Instr.print [0xFF]).wf = true := by decide

theorem witness_EncodeOfDecode : decode [0x21, 0x41, 0x00, 0x05] = .command (.print [0x41]) := by decide

theorem witness_StreamsHaveOneReading : ∃ p q : List Instr, (∀ i ∈ p, i.wf = true) ∧ (∀ i ∈ q, i.wf = true) ∧
    encodeProgram p = encodeProgram q ∧ p ≠ [] :=
  ⟨[.print [0x21], .clear], [.print [0x21], .clear], by decide, by decide, rfl, by decide⟩

theorem witness_DecodeFollowsTheFormats :
    (∀ op ∈ [(0x00 : Byte), 0x05, 0x0F, 0x1E, 0x1F, 0x24, 0xFF], op ∉ [(0x01 : Byte), 0x02, 0x03, 0x04, 0x10, 0x11, 0x12,
      0x13, 0x14, 0x15, 0x16, 0x17, 0x18, 0x19, 0x1A, 0x1B, 0x1C, 0x1D, 0x20, 0x21, 0x22, 0x23]) ∧
    (0x00 : Byte) ∉ [(0x41 : Byte)] ∧
    ((0x01 : Byte), 5) ∈ [((0x01 : Byte), 5), (0x04, 3), (0x20, 10), (0x22, 2), (0x23, 2)] ∧
    [(0x27 : Byte), 0x10, 0x02].length + 1 < 5 ∧ ([] : List Byte).length + 1 < 2 := by decide

theorem witness_ReservedEncodingsHalt :
    (∀ op ∈ [(0x00 : Byte), 0x05, 0x0F, 0x1E, 0x1F, 0x24, 0xFF], constantsWf (s0 [op]).cfg.k = true ∧ (s0 [op]).halt = false ∧
      (s0 [op]).cmd.drop (s0 [op]).cp = op :: [] ∧
      (op = 0x00 ∨ (0x05 ≤ op.toNat ∧ op.toNat ≤ 0x0F) ∨ op = 0x1E ∨ op = 0x1F ∨ 0x24 ≤ op.toNat)) ∧
    (fresh [0x01, 0x80, 0, 0, 0]).cmd.drop (fresh [0x01, 0x80, 0, 0, 0]).cp = 0x01 :: 0x80 :: 0 :: 0 :: 0 :: [] ∧
    (0x80 : Byte).getLsbD 7 = true := by decide

/-! ### Witnesses: the step -/

theorem witness_StepRunsTheDecodedCommand : constantsWf (s0 [0x02]).cfg.k = true ∧ (s0 [0x02]).halt = false ∧
    decode ((s0 [0x02]).cmd.drop (s0 [0x02]).cp) = .command .clear := by decide

theorem witness_TruncatedCommandHalts : constantsWf (s0 [0x22]).cfg.k = true ∧ (s0 [0x22]).halt = false ∧
    (s0 [0x22]).cmd.drop (s0 [0x22]).cp = 0x22 :: [] ∧
    ((0x22 : Byte), 2) ∈ [((0x01 : Byte), 5), (0x04, 3), (0x20, 10), (0x22, 2), (0x23, 2)] ∧ ([] : List Byte).length + 1 < 2 ∧
    (s0 [0x21, 0x41]).cmd.drop (s0 [0x21, 0x41]).cp = 0x21 :: [0x41] ∧ (0x00 : Byte) ∉ [(0x41 : Byte)] := by decide

/-- A halted block. -/
def halted : State := (s0 [0x02]).takeFault (.invalidRowIndex 9)

theorem witness_HaltStaysUntilReset : halted.halt = true ∧ (∃ t, exec .home halted = .next t) ∧ ∃ u, step halted = .next u :=
  ⟨rfl, ⟨_, rfl⟩, _, rfl⟩

/-- A table that R8 refuses: the strobe bit is the backlight bit. -/
def clashing : Constants := { defaultConstants with en := 0x08 }

theorem witness_StepWithoutACommand : constantsWf clashing = false ∧ halted.halt = true ∧ constantsWf halted.cfg.k = true ∧
    (s0 []).Finished ∧ constantsWf (s0 []).cfg.k = true :=
  ⟨by decide, rfl, by decide, ⟨rfl, rfl⟩, by decide⟩

theorem witness_PlacedWordRuns : constantsWf State.reset.cfg.k = true ∧
    decodeTableWord 40 0x0002102701 = some (.init 0x27 16 2 0) := by decide

/-! ### Witnesses: the ports -/

theorem witness_BusWriteRecordsTheAnswer : (s0 []).sink.answer = .success ∧ (failing 0 (s0 [])).sink.answer = .failure := by
  decide

theorem witness_TransmitOrsTheBacklight : (s0 []).addr = some 0x27 ∧ (s0 []).bl = some 0x00 ∧
    (s0 []).sink.answer = .success ∧ (failing 0 (s0 [])).sink.answer = .failure ∧ (failing 0 (s0 [])).addr = some 0x27 ∧
    (failing 0 (s0 [])).bl = some 0x00 := by decide

theorem witness_DelayChecksItsFloor : (∀ site, floorOf site ≤ delayOf (s0 []).cfg.dly site) ∧
    delayOf (hasty (s0 []) { defaultDelays with clr := 1999 }).cfg.dly .sClr < floorOf .sClr :=
  ⟨s0_delays [], by decide⟩

theorem witness_FourWriteProperty : ∃ t, constantsWf (s0 []).cfg.k = true ∧ (s0 []).addr = some 0x27 ∧
    (s0 []).bl = some 0x00 ∧ (s0 []).cfg.k.registerSelect = 0x01 ∧ writeByte 0x28 0x01 (s0 []) = .done t :=
  ⟨_, by decide, rfl, rfl, rfl, rfl⟩

/-! ### Witnesses: completions -/

theorem witness_SendsComplete : (s0 [0x22, 0x28]).Open 0x27 0x00 ∧ (s0 [0x22, 0x28]).DelaysMeetFloors ∧
    (s0 [0x22, 0x28]).SinkClean := ⟨s0_open _, s0_delays _, s0_sink _⟩

theorem witness_PrintCompletes : (s0 [0x21, 0x00]).Open 0x27 0x00 ∧ (s0 [0x21, 0x00]).DelaysMeetFloors ∧
    (s0 [0x21, 0x00]).SinkClean := ⟨s0_open _, s0_delays _, s0_sink _⟩

theorem witness_InitCompletes : (1 : Byte) ≠ 0 ∧ (255 : Byte) ≠ 0 ∧ State.reset.DelaysMeetFloors ∧ State.reset.SinkClean :=
  ⟨by decide, by decide, s0_delays [], s0_sink []⟩

theorem witness_InitSequenceAndCounts : ∃ t, constantsWf State.reset.cfg.k = true ∧
    State.reset.cfg.k.initForce8 &&& State.reset.cfg.k.en = 0 ∧ State.reset.cfg.k.initSet4 &&& State.reset.cfg.k.en = 0 ∧
    exec (.init 0x27 16 2 0) State.reset = .next t ∧ t.inited = true ∧ t.func = some 0x08 ∧
    State.reset.cfg.dly = defaultDelays := ⟨_, by decide, by decide, by decide, rfl, rfl, rfl, rfl⟩

theorem witness_InitStepDelaysInOrder : ∃ t, exec (.init 0x27 16 2 0) State.reset = .next t ∧ t.inited = true := ⟨_, rfl, rfl⟩

theorem witness_ClearAndHomeComplete : (s0 [0x02]).Open 0x27 0x00 ∧ (s0 [0x02]).DelaysMeetFloors ∧ (s0 [0x02]).SinkClean ∧
    (s0 [0x02]).rows = some 2 ∧ (2 : Byte) ≠ 0 := ⟨s0_open _, s0_delays _, s0_sink _, rfl, by decide⟩

theorem witness_SetcursorCompletes : (s4 []).Open 0x27 0x00 ∧ (s4 []).DelaysMeetFloors ∧ (s4 []).SinkClean ∧
    (s4 []).rows = some 4 ∧ (∀ p ∈ [((0 : Byte), (0x00 : Byte)), (1, 0x40), (2, 0x14), (3, 0x54)], p.1.toNat < (4 : Byte).toNat ∧
      p ∈ [((0 : Byte), (s4 []).cfg.k.rowOff0), (1, (s4 []).cfg.k.rowOff1), (2, (s4 []).cfg.k.rowOff2),
        (3, (s4 []).cfg.k.rowOff3)]) :=
  ⟨(s4_premises _).1, (s4_premises _).2.1, (s4_premises _).2.2, rfl, by simp [s4, s0, State.reset, defaultConfig, defaultConstants]⟩

theorem witness_CtrlTogglesComplete : (s0 []).Open 0x27 0x00 ∧ (s0 []).DelaysMeetFloors ∧ (s0 []).SinkClean ∧
    (s0 []).ctrl = some 0x04 ∧ (Instr.curon, (0x06 : Byte)) ∈ [(Instr.dispon, (0x04 : Byte) ||| (s0 []).cfg.k.displayOn),
      (.curon, 0x04 ||| (s0 []).cfg.k.cursorOn)] :=
  ⟨s0_open _, s0_delays _, s0_sink _, rfl, by decide⟩

theorem witness_ModeTogglesComplete : (s0 []).Open 0x27 0x00 ∧ (s0 []).DelaysMeetFloors ∧ (s0 []).SinkClean ∧
    (s0 []).mode = some 0x02 ∧ (Instr.rtl, (0x00 : Byte)) ∈ [(Instr.ltr, (0x02 : Byte) ||| (s0 []).cfg.k.entryLeft),
      (.rtl, 0x02 &&& ~~~(s0 []).cfg.k.entryLeft)] :=
  ⟨s0_open _, s0_delays _, s0_sink _, rfl, by decide⟩

theorem witness_ScrollsComplete : (s0 [0x16]).Open 0x27 0x00 ∧ (s0 [0x16]).DelaysMeetFloors ∧ (s0 [0x16]).SinkClean :=
  ⟨s0_open _, s0_delays _, s0_sink _⟩

theorem witness_BacklightCommandsWriteOnce : (s0 []).inited = true ∧ (s0 []).addr = some 0x27 ∧
    (Instr.blon, (0x08 : Byte)) ∈ [(Instr.blon, (s0 []).cfg.k.backlightOn), (.bloff, (s0 []).cfg.k.backlightOff)] ∧
    (s0 []).sink.answer = .success ∧ (failing 0 (s0 [])).sink.answer = .failure := by decide

theorem witness_MkcharCompletes : (s0 []).Open 0x27 0x00 ∧ (s0 []).DelaysMeetFloors ∧ (s0 []).SinkClean ∧
    (s0 []).cfg.slotPolicy = .mask ∧ (7 : Byte).toNat ≤ 7 := ⟨s0_open _, s0_delays _, s0_sink _, rfl, by decide⟩

/-! ### Witnesses: faults -/

theorem witness_NotInitializedBeforeAnything : State.reset.inited = false ∧
    ∀ addr cols rows font, Instr.setcursor 9 0 ≠ .init addr cols rows font := ⟨rfl, by simp⟩

/-- Row 4 on a session of five rows, and row 2 on a session of two (90_conflicts.md C4). -/
theorem witness_RowOutOfRangeHalts : (s0 []).inited = true ∧ (s0 []).rows = some 2 ∧
    (4 ≤ (2 : Byte).toNat ∨ (2 : Byte).toNat ≤ (2 : Byte).toNat) ∧ (4 ≤ (4 : Byte).toNat ∨ (5 : Byte).toNat ≤ (4 : Byte).toNat) := by
  decide

theorem witness_SlotPolicyDecides : ∃ t u, (s0 []).inited = true ∧ rejecting.slotPolicy = .reject ∧ 7 < (8 : Byte).toNat ∧
    (s0 []).faultCode ≠ 3 ∧ exec (.mkchar 8 0 0 0 0 0 0 0 0) { s0 [] with cfg := rejecting } = .next t ∧ t.faultCode = 3 ∧
    (s0 [0x03]).cfg.slotPolicy = .mask ∧ step (s0 [0x03]) = .next u :=
  ⟨_, _, rfl, rfl, by decide, by decide, rfl, rfl, rfl, rfl⟩

theorem witness_InitWithoutRowsHalts : State.reset.DelaysMeetFloors ∧ State.reset.SinkClean := ⟨s0_delays [], s0_sink []⟩

theorem witness_InitFaultLeavesNoSession : ∃ t u, exec (.init 0x27 16 2 0) State.reset = .next t ∧ t.inited = true ∧
    exec (.init 0x27 16 0 0) State.reset = .next u ∧ u.inited = false := ⟨_, _, rfl, rfl, rfl, rfl⟩

theorem witness_EveryCommandCompletesOrTakesOneFault : ∃ t u, exec .blon (s0 []) = .next t ∧ t.halt = false ∧
    exec .blon (failing 0 (s0 [])) = .next u ∧ u.halt = true := ⟨_, _, rfl, rfl, rfl, rfl⟩

theorem witness_FailedWriteIsTheLastEvent : ∃ t, exec .curon (failing 2 (s0 [])) = .next t ∧ Event.wf 0x27 0xE4 ∈ t.trace :=
  ⟨_, rfl, by decide⟩

theorem witness_ShortDelayIsTheLastEvent : ∃ t,
    exec .home (hasty (s0 []) { defaultDelays with home := 1999 }) = .next t ∧ Event.d .sHome 1999 ∈ t.trace ∧
      1999 < floorOf .sHome := ⟨_, rfl, by decide, by decide⟩

theorem witness_ShortPowerUpWaitHaltsInit : (hasty (s0 []) { defaultDelays with pwr := 99999 }).cfg.dly.pwr < 100000 := by decide

theorem witness_ValidatorNeverFires : ∃ t, (s0 [0x03]).DelaysMeetFloors ∧ (s0 [0x03]).tvViol = false ∧
    (∀ site us, Event.d site us ∈ (s0 [0x03]).trace → floorOf site ≤ us ∧ us = floorOf site) ∧
    step (s0 [0x03]) = .next t ∧ (∀ site, (s0 [0x03]).faultValue ≠ some (.timingViolation site)) ∧
    (s0 [0x03]).cfg.dly = defaultDelays :=
  ⟨_, s0_delays _, rfl, (by intro _ _ h; cases h), rfl, by simp [s0, State.reset], rfl⟩

theorem witness_AbortedCommandKeepsRegisters : ∃ t, (∀ addr cols rows font, Instr.curon ≠ .init addr cols rows font) ∧
    exec .curon (failing 2 (s0 [])) = .next t ∧ (failing 2 (s0 [])).halt = false ∧ t.halt = true :=
  ⟨_, by simp, rfl, rfl, rfl⟩

/-- A session whose registers hold nothing: no run reaches it (10_state.md R12). -/
def hollow : State := { State.reset with inited := true }

theorem witness_UnwrittenRegisterStops : hollow.inited = true ∧ hollow.bl = none ∧ hollow.addr = none ∧ hollow.rows = none ∧
    hollow.ctrl = none ∧ hollow.mode = none ∧ { s0 [] with addr := none }.bl ≠ none ∧ { s0 [] with addr := none }.addr = none := by
  decide

/-! ### Witnesses: frames -/

theorem witness_OnlyInitWritesGeometry : ∃ t, (∀ addr cols rows font, Instr.clear ≠ .init addr cols rows font) ∧
    exec .clear (s0 []) = .next t := ⟨_, by simp, rfl⟩

theorem witness_InputsNeverChange : ∃ t u, exec .clear (s0 []) = .next t ∧ step (s0 [0x02]) = .next u := ⟨_, _, rfl, rfl⟩

theorem witness_SendingCommandsFrame : ∃ t, exec (.sendcmd 0x28) (s0 []) = .next t := ⟨_, rfl⟩

theorem witness_TogglesFrame : ∃ t u, exec .curon (s0 []) = .next t ∧ exec .rtl (s0 []) = .next u ∧
    (Instr.curon, (0x02 : Byte)) ∈ [(Instr.curon, (s0 []).cfg.k.cursorOn)] ∧
    (Instr.rtl, (0x02 : Byte)) ∈ [(Instr.rtl, (s0 []).cfg.k.entryLeft)] := ⟨_, _, rfl, rfl, by decide, by decide⟩

theorem witness_BacklightAndCursorFrame : ∃ t u, exec .blon (s0 []) = .next t ∧ exec .clear (s0 []) = .next u :=
  ⟨_, _, rfl, rfl⟩

theorem witness_ShadowPositionIsNeverRead : ∃ t, exec (.setcursor 1 5) (s0 []) = .next t ∧ t.crow = some 1 := ⟨_, rfl, rfl⟩

theorem witness_TraceIsNeverRead : ∃ t, exec .blon (s0 []) = .next t ∧ t.trace = [.w 0x27 0x08] := ⟨_, rfl, rfl⟩

/-! ### Witnesses: whole-machine rules -/

theorem witness_TraceAndPointerOnlyGrow : ∃ t, step (s0 [0x1D]) = .next t ∧ t.cp = 6 := ⟨_, rfl, rfl⟩

theorem witness_BacklightRidesOnEveryByte : ∃ t, constantsWf (s0 []).cfg.k = true ∧
    (∀ addr cols rows font, Instr.home ≠ .init addr cols rows font) ∧ Instr.home ≠ .blon ∧ Instr.home ≠ .bloff ∧
    { s0 [] with bl := some 0x08 }.addr = some 0x27 ∧ (0x08 : Byte) = (s0 []).cfg.k.backlightOn ∧
    exec .home { s0 [] with bl := some 0x08 } = .next t := ⟨_, by decide, by simp, by simp, by simp, rfl, rfl, rfl⟩

theorem witness_RegisterSelectTellsDataFromCommands : ∃ t u, constantsWf (s0 []).cfg.k = true ∧ (s0 []).bl = some 0x00 ∧
    (0x00 : Byte) = (s0 []).cfg.k.backlightOff ∧ exec (.sendchr 0x41) (s0 []) = .next t ∧ exec .curon (s0 []) = .next u :=
  ⟨_, _, by decide, rfl, rfl, rfl, rfl⟩

theorem witness_ReadWriteLineStaysLow : ∃ t, (s0 [0x1D]).Inv ∧ (s0 [0x1D]).cfg.k = defaultConstants ∧ (s0 [0x1D]).trace = [] ∧
    step (s0 [0x1D]) = .next t := ⟨_, s0_inv, rfl, rfl, rfl⟩

theorem witness_StrobesStayPaired : ∃ t, (s0 [0x1D]).Inv ∧ (s0 [0x1D]).cfg.k = defaultConstants ∧
    strobesPaired 0x04 (s0 [0x1D]).trace ∧ step (s0 [0x1D]) = .next t ∧ t.halt = false :=
  ⟨_, s0_inv, rfl, trivial, rfl, rfl⟩

theorem witness_ToggleShadowsWhatItSent : ∃ t u, exec .curon (s0 []) = .next t ∧ exec .rtl (s0 []) = .next u ∧
    (s0 []).halt = false ∧ t.halt = false ∧ u.halt = false := ⟨_, _, rfl, rfl, rfl, rfl, rfl⟩

theorem witness_ClearTwiceRepeatsItsEvents : ∃ t u, exec .clear (s0 []) = .next t ∧ exec .clear t = .next u ∧
    (s0 []).halt = false ∧ u.halt = false := ⟨_, _, rfl, rfl, rfl, rfl⟩

theorem witness_RequestedTimePerCommand : ∃ t, defaultConfig.dly = defaultDelays ∧ (s0 []).cfg.dly = defaultDelays ∧
    exec .clear (s0 []) = .next t ∧ (s0 []).halt = false ∧ t.halt = false := ⟨_, rfl, rfl, rfl, rfl, rfl⟩

/-! ### Witnesses: the invariant -/

theorem witness_ResetAndInitValues : ∃ t, State.reset.cfg.k = defaultConstants ∧
    exec (.init 0x3F 8 1 1) State.reset = .next t ∧ t.inited = true := ⟨_, rfl, rfl, rfl⟩

theorem witness_LaunchMeetsInvariant : constantsWf defaultConfig.k = true := by decide

theorem witness_StepKeepsInvariant : ∃ t, (s0 [0x1D]).Inv ∧ step (s0 [0x1D]) = .next t ∧ t.bl = some 0x08 :=
  ⟨_, s0_inv, rfl, rfl⟩

theorem witness_InvariantStateNeverStops : (s0 [0x1D]).Inv := s0_inv

theorem witness_ReachableStatesKeepRegisterRanges : defaultConfig.k = defaultConstants := rfl

end Sys2Proof.Tests
end

/-! Steps with no command to run (family 00_scope.md). -/

namespace Sys2Proof.Machine

/-- A finished block has nothing to fetch and stays as it is (00_scope.md R9). -/
theorem step_finished {s : State} (hk : constantsWf s.cfg.k = true) (hf : s.Finished) : step s = .next s := by
  obtain ⟨hh, hcp⟩ := hf
  have hend : decode (s.cmd.drop s.cp) = .endOfStream := by rw [hcp, List.drop_length]; rfl
  rw [step_running hk hh, hend]

/-- A state that one step leaves as it is, every run leaves as it is. -/
theorem run_of_step_self {s : State} (h : step s = .next s) (n : Nat) : Host.Core.run core n s = .next s := by
  obtain ⟨t, ht, rfl⟩ := core_run_invariant (P := (· = s)) (fun u hu => ⟨s, hu ▸ h, rfl⟩) n s rfl
  exact ht

/-- Settles O10: an ill-formed `K` is refused at the first step, and a halted or finished block is a fixed point of
`step`, hence of every run. -/
theorem stepWithoutACommand : Obligations.StepWithoutACommand := by
  refine ⟨by decide, fun s hk => step_ill_formed hk, fun s n hk hstop => run_of_step_self ?_ n⟩
  cases hstop with
  | inl hhalt => exact step_halted hk hhalt
  | inr hfin => exact step_finished hk hfin

end Sys2Proof.Machine

/-! The invariant of 10_state.md R27 and what every command keeps (family 10_state.md). -/

namespace Sys2Proof.Machine

/-! ### The register ranges of R27 -/

/-- The clauses of `State.Inv` about the session and flag registers and `cp`. They do not mention `HALT`, the fault
registers or the bus, so they hold also in the middle of a command and just before a fault entry. -/
structure State.SoundRegisters (s : State) : Prop where
  wf : constantsWf s.cfg.k = true
  backlight : ∀ b, s.bl = some b → b = s.cfg.k.backlightOff ∨ b = s.cfg.k.backlightOn
  ctrlBits : ∀ b, s.ctrl = some b → b &&& ~~~(s.cfg.k.displayOn ||| s.cfg.k.cursorOn ||| s.cfg.k.blinkOn) = 0
  modeBits : ∀ b, s.mode = some b → b &&& ~~~(s.cfg.k.entryLeft ||| s.cfg.k.autoscroll) = 0
  funcBits : ∀ b, s.func = some b → b &&& ~~~(s.cfg.k.line2 ||| s.cfg.k.dots10) = 0
  cursorRow : s.inited = true → ∀ r, s.crow = some r → r.ult 4 = true ∧ ∃ n, s.rows = some n ∧ r.ult n = true
  session : s.inited = true →
    s.addr.isSome ∧ s.cols.isSome ∧ s.bl.isSome ∧ s.func.isSome ∧ s.ctrl.isSome ∧ s.mode.isSome
      ∧ s.crow.isSome ∧ s.ccol.isSome ∧ ∃ n, s.rows = some n ∧ n ≠ 0
  pointer : s.cp ≤ s.cmd.length

theorem State.Inv.soundRegisters {s : State} (h : s.Inv) : s.SoundRegisters :=
  ⟨h.wf, h.backlight, h.ctrlBits, h.modeBits, h.funcBits, h.cursorRow, h.session, h.pointer⟩

namespace State.SoundRegisters

variable {s : State}

theorem emitted (h : s.SoundRegisters) (es : List Event) : (s.emitted es).SoundRegisters := { h with }

theorem recordViolation (h : s.SoundRegisters) (site : Site) : (s.recordViolation site).SoundRegisters := { h with }

theorem takeFault (h : s.SoundRegisters) (f : SeqFault) : (s.takeFault f).SoundRegisters := { h with }

theorem advance (h : s.SoundRegisters) {n : Nat} (hn : s.cp + n ≤ s.cmd.length) : (s.advance n).SoundRegisters :=
  { h with pointer := hn }

theorem putCtrl (h : s.SoundRegisters) {v : Byte}
    (hv : v &&& ~~~(s.cfg.k.displayOn ||| s.cfg.k.cursorOn ||| s.cfg.k.blinkOn) = 0) :
    (s.putCtrl v).SoundRegisters :=
  { h with
    ctrlBits := by rintro _ ⟨⟩; exact hv
    session := fun hi => by have := h.session hi; simp_all }

theorem putMode (h : s.SoundRegisters) {v : Byte} (hv : v &&& ~~~(s.cfg.k.entryLeft ||| s.cfg.k.autoscroll) = 0) :
    (s.putMode v).SoundRegisters :=
  { h with
    modeBits := by rintro _ ⟨⟩; exact hv
    session := fun hi => by have := h.session hi; simp_all }

theorem putBl (h : s.SoundRegisters) {v : Byte} (hv : v = s.cfg.k.backlightOff ∨ v = s.cfg.k.backlightOn) :
    (s.putBl v).SoundRegisters :=
  { h with
    backlight := by rintro _ ⟨⟩; exact hv
    session := fun hi => by have := h.session hi; simp_all }

theorem putCursor (h : s.SoundRegisters) {row : Byte}
    (hrow : s.inited = true → row.ult 4 = true ∧ ∃ n, s.rows = some n ∧ row.ult n = true) (col : Byte) :
    (s.putCursor row col).SoundRegisters :=
  { h with
    cursorRow := by rintro hi _ ⟨⟩; exact hrow hi
    session := fun hi => by have := h.session hi; simp_all }

/-- The start of `INIT` closes the session and writes values inside the ranges (41_init.md R101, R102). -/
theorem initStart (h : s.SoundRegisters) (addr : BusAddr) (cols rows font : Byte) :
    (s.initStart addr cols rows font).SoundRegisters :=
  { h with
    backlight := by rintro _ ⟨⟩; exact .inl rfl
    funcBits := by rintro _ ⟨⟩; exact resolve_inside (constantsWf_lines h.wf) rows font
    cursorRow := nofun
    session := nofun }

end State.SoundRegisters

/-! ### What a command leaves in the registers of R27 -/

/-- The rows with an offset are the rows 0 to 3 (00_scope.md R8). -/
theorem rowOffset_some_lt {k : Constants} {row offset : Byte} (h : rowOffset k row = some offset) :
    row.ult 4 = true := by
  unfold rowOffset at h
  split_ifs at h with h0 h1 h2 h3
  · subst h0; decide
  · subst h1; decide
  · subst h2; decide
  · subst h3; decide

theorem rowBeyond_eq_false {row rows : Byte} : rowBeyond row rows = false ↔ row.ult rows = true := by
  simp [rowBeyond, BitVec.ule, BitVec.ult]

variable {s u : State} {i : Instr} {st : List (State → State)} {plan : List Event} {put g : State → State}

/-- The final register write of a command commutes with its events. -/
theorem Effect.put_emitted (he : Effect s i u st plan put) (es : List Event) :
    put (u.emitted es) = (put u).emitted es := by
  cases he <;> rfl

theorem initStages_sound {k : Constants} (h : u.SoundRegisters) (hk : u.cfg.k = k) (hi : u.inited = false)
    (hg : g ∈ initStages k) : (g u).SoundRegisters := by
  subst hk
  have h1 := h.putCtrl (flag_inside_three u.cfg.k.displayOn u.cfg.k.cursorOn u.cfg.k.blinkOn).1
  have h2 := h1.putCursor (row := 0) (fun ho => by rw [putCtrl_inited, hi] at ho; cases ho) 0
  have h3 := h2.putMode (flag_inside u.cfg.k.entryLeft u.cfg.k.autoscroll).1
  simp only [initStages, List.mem_cons, List.not_mem_nil, or_false] at hg
  obtain rfl | rfl | rfl | rfl := hg
  · exact h
  · exact h1
  · exact h2
  · exact h3

/-- Wherever a command stops, the registers are inside their ranges. -/
theorem Effect.stage_sound (he : Effect s i u st plan put) (hg : g ∈ st) (hs : s.SoundRegisters) (es : List Event) :
    (g (u.emitted es)).SoundRegisters := by
  cases he with
  | init addr cols rows font => exact initStages_sound ((hs.initStart addr cols rows font).emitted es) rfl rfl hg
  | _ => rw [List.mem_singleton.mp hg]; exact hs.emitted es

/-- A session opens with every register written and the cursor in row 0 of a display that has one
(41_init.md R109, R112). -/
theorem initPut_sound {addr : BusAddr} {cols rows font : Byte} (hs : s.SoundRegisters) (hrows : rows ≠ 0) :
    (initPut s.cfg.k (s.initStart addr cols rows font)).SoundRegisters :=
  { initStages_sound (hs.initStart addr cols rows font) rfl rfl (mem_initStages s.cfg.k).2.2.2 with
    cursorRow := by
      rintro - _ ⟨⟩
      exact ⟨rfl, rows, rfl, rowBeyond_eq_false.mp ((rowBeyond_zero rows).mpr hrows)⟩
    session := fun _ => ⟨rfl, rfl, rfl, rfl, rfl, rfl, rfl, rfl, rows, rfl, hrows⟩ }

/-- A command that runs to its end leaves the registers inside their ranges (10_state.md R27 a to d). -/
theorem Effect.put_sound (he : Effect s i u st plan put) (hs : s.SoundRegisters) (hno : ∀ f, ¬ OperandFault s i f) :
    (put u).SoundRegisters := by
  obtain ⟨hdisp, hcur, hblink⟩ := flag_inside_three s.cfg.k.displayOn s.cfg.k.cursorOn s.cfg.k.blinkOn
  obtain ⟨hleft, hauto⟩ := flag_inside s.cfg.k.entryLeft s.cfg.k.autoscroll
  cases he with
  | init addr cols rows font =>
    refine initPut_sound hs fun h0 => hno (.invalidRowIndex 0) (.initRow ?_)
    rw [h0]; rfl
  | clear ho =>
    obtain ⟨-, -, -, -, -, -, -, -, n, hn, hne⟩ := hs.session ho.inited
    exact hs.putCursor (fun _ => ⟨rfl, n, hn, rowBeyond_eq_false.mp ((rowBeyond_zero n).mpr hne)⟩) 0
  | setcursor ho hrows hoff hrow =>
    exact hs.putCursor (fun _ => ⟨rowOffset_some_lt hoff, _, hrows, rowBeyond_eq_false.mp hrow⟩) _
  | dispoff _ hc | curoff _ hc | blnkoff _ hc => exact hs.putCtrl (clear_inside (hs.ctrlBits _ hc))
  | dispon _ hc => exact hs.putCtrl (or_and_zero (hs.ctrlBits _ hc) hdisp)
  | curon _ hc => exact hs.putCtrl (or_and_zero (hs.ctrlBits _ hc) hcur)
  | blnkon _ hc => exact hs.putCtrl (or_and_zero (hs.ctrlBits _ hc) hblink)
  | rtl _ hm | ascroff _ hm => exact hs.putMode (clear_inside (hs.modeBits _ hm))
  | ltr _ hm => exact hs.putMode (or_and_zero (hs.modeBits _ hm) hleft)
  | ascron _ hm => exact hs.putMode (or_and_zero (hs.modeBits _ hm) hauto)
  | bloff => exact hs.putBl (.inl rfl)
  | blon => exact hs.putBl (.inr rfl)
  | home | scrl | scrr | mkchar | print | printNothing | sendcmd | sendchr => exact hs

/-- A command that runs to its end leaves a session open. -/
theorem Effect.put_inited (he : Effect s i u st plan put) : (put u).inited = true := by
  cases he with
  | init => rfl
  | bloff hi | blon hi | printNothing hi => exact hi
  | _ => exact State.Open.inited (s := s) ‹_›

/-! ### The last byte of a command on the port -/

/-- The lines of a byte that ends a transfer while `BL` holds `bl` (10_state.md R27 h). -/
def LinesAtRest (k : Constants) (bl p : Byte) : Prop :=
  p &&& k.en = 0 ∧ p &&& k.rwLine = 0 ∧ p &&& k.backlightOn = bl

theorem linesAtRest_backlight {k : Constants} (f : LineFacts k) :
    LinesAtRest k k.backlightOff k.backlightOff ∧ LinesAtRest k k.backlightOn k.backlightOn := by
  refine ⟨?_, ?_, ?_, BitVec.and_self⟩
  · rw [f.off]; exact ⟨BitVec.zero_and, BitVec.zero_and, BitVec.zero_and⟩
  · rw [BitVec.and_comm]; exact f.enBl
  · rw [BitVec.and_comm]; exact f.rwBl

/-- A command that ran to its end put nothing on the port, or last a byte whose lines are at rest under the `BL` it
leaves. -/
theorem Effect.last_byte (he : Effect s i u st plan put) (hs : s.SoundRegisters) (p : Option Byte) :
    (portAfter p plan = p ∧ (put u).bl = s.bl) ∨
      ∃ b bl, portAfter p plan = some b ∧ (put u).bl = some bl ∧ LinesAtRest s.cfg.k bl b := by
  have f := constantsWf_lines hs.wf
  have transfer : ∀ {bl m : Byte}, s.bl = some bl → (m = 0 ∨ m = s.cfg.k.registerSelect) → ∀ x : Byte,
      LinesAtRest s.cfg.k bl (((x &&& 0xF0) ||| m) &&& ~~~s.cfg.k.en ||| bl) :=
    fun hbl hm _ => lines_of_last f (hs.backlight _ hbl) hm
  cases he with
  | init => exact .inr ⟨_, _, rfl, rfl, lines_of_last (x := s.cfg.k.returnHome <<< 4) f (.inl rfl) (.inl rfl)⟩
  | clear ho | home ho | setcursor ho | dispoff ho | dispon ho | curoff ho | curon ho | blnkoff ho | blnkon ho
  | scrl ho | scrr ho | rtl ho | ltr ho | ascroff ho | ascron ho | sendcmd ho =>
    exact .inr ⟨_, _, rfl, ho.bl, transfer ho.bl (.inl rfl) _⟩
  | sendchr ho => exact .inr ⟨_, _, rfl, ho.bl, transfer ho.bl (.inr rfl) _⟩
  | bloff => exact .inr ⟨_, _, rfl, rfl, (linesAtRest_backlight f).1⟩
  | blon => exact .inr ⟨_, _, rfl, rfl, (linesAtRest_backlight f).2⟩
  | print ho bytes =>
    obtain h | ⟨v, hv⟩ := portAfter_textEvents s.cfg _ _ bytes p
    · exact .inl ⟨h, rfl⟩
    · exact .inr ⟨_, _, hv, ho.bl, transfer ho.bl (.inr rfl) _⟩
  | mkchar ho =>
    rw [portAfter_append]
    exact .inr ⟨_, _, rfl, ho.bl, transfer ho.bl (.inr rfl) _⟩
  | printNothing => exact .inl ⟨rfl, rfl⟩

/-! ### The two ends of a command -/

/-- The state `v` lies inside a command started in `s`: `cp`, the stream and the parameters are as they were, the
trace is extended, and the registers are still inside their ranges. -/
structure Within (s v : State) : Prop where
  cp : v.cp = s.cp
  cmd : v.cmd = s.cmd
  cfg : v.cfg = s.cfg
  trace : s.trace <+: v.trace
  sound : s.SoundRegisters → v.SoundRegisters

/-- A command started in `s` has come to `v` and takes the fault `f` there: the validator's registers are written
exactly for a timing violation (60_exceptions.md R176, R178). -/
structure StoppedAt (f : SeqFault) (s v : State) : Prop extends Within s v where
  validator : (∃ site, f = .timingViolation site ∧ v.tvViol = true ∧ v.tvSite = some (siteNumber site)) ∨
    ((∀ site, f ≠ .timingViolation site) ∧ v.tvViol = s.tvViol ∧ v.tvSite = s.tvSite)

/-- A fault taken before the command did anything. -/
theorem StoppedAt.at_once (s : State) {f : SeqFault} (hf : ∀ site, f ≠ .timingViolation site) : StoppedAt f s s :=
  ⟨⟨rfl, rfl, rfl, ⟨[], List.append_nil _⟩, id⟩, .inr ⟨hf, rfl, rfl⟩⟩

/-- Where a command can stop is inside it. -/
theorem Effect.within (he : Effect s i u st plan put) (hg : g ∈ st) (es : List Event) :
    Within s (g (u.emitted es)) where
  cp := ((he.stage hg).cp _).trans he.start.cp
  cmd := ((he.stage hg).cmd _).trans he.start.cmd
  cfg := ((he.stage hg).cfg _).trans he.start.cfg
  trace := ⟨es, by rw [(he.stage hg).trace, emitted_trace, he.start.trace]⟩
  sound := fun hs => he.stage_sound hg hs es

/-- A fault other than a timing violation inside the plan of a command. -/
theorem Effect.stoppedAt (he : Effect s i u st plan put) (hg : g ∈ st) (es : List Event) {f : SeqFault}
    (hf : ∀ site, f ≠ .timingViolation site) : StoppedAt f s (g (u.emitted es)) :=
  { he.within hg es with
    validator := .inr ⟨hf, ((he.stage hg).tvViol _).trans he.start.tvViol,
      ((he.stage hg).tvSite _).trans he.start.tvSite⟩ }

/-- A timing violation at the state a command has come to. -/
theorem Within.violation {v : State} (h : Within s v) (site : Site) :
    StoppedAt (.timingViolation site) s (v.recordViolation site) :=
  { h with validator := .inl ⟨site, rfl, rfl, rfl⟩, sound := fun hs => (h.sound hs).recordViolation site }

theorem OperandFault.ne_timing {f : SeqFault} (h : OperandFault s i f) (site : Site) : f ≠ .timingViolation site := by
  cases h <;> nofun

/-- How a command that answers the next state `t` ended: it ran its whole effect, or took one fault. -/
inductive Ending (i : Instr) (s t : State) : Prop where
  | whole {u : State} {stages : List (State → State)} {plan : List Event} {put : State → State}
      (he : Effect s i u stages plan put) (hno : ∀ f, ¬ OperandFault s i f) (hok : ∀ e ∈ plan, e.accepted)
      (ht : t = (put (u.emitted plan)).advance (lengthOf i))
  | stopped {f : SeqFault} {v : State} (hv : StoppedAt f s v) (ht : t = v.takeFault f)

theorem exec_ending {t : State} (h : exec i s = .next t) : Ending i s t := by
  cases exec_next h with
  | notInitialized _ _ ht => exact .stopped (.at_once s (by simp)) ht
  | operandFirst _ _ hf ht => exact .stopped (.at_once s hf.ne_timing) ht
  | ran he hno hok ht => exact .whole he hno hok ht
  | busFailed he g es rest a b hg _ _ _ ht => exact .stopped (he.stoppedAt hg _ (by simp)) ht
  | operand he g es rest f hg hf _ _ ht => exact .stopped (he.stoppedAt hg es hf.ne_timing) ht
  | tooShort he g es rest site hg _ _ _ ht => exact .stopped ((he.within hg _).violation site) ht

/-! ### Both ends keep the invariant -/

/-- In a block that is not halted the validator has recorded nothing (10_state.md R27 f). -/
theorem State.Inv.tvViol_false (h : s.Inv) (hh : s.halt = false) : s.tvViol = false := by
  cases hv : s.tvViol with
  | false => rfl
  | true => exact absurd (h.validator.1 hv).1 (by simp [hh])

/-- The fault entry of a stopped command makes a state that meets the invariant. -/
theorem StoppedAt.inv {f : SeqFault} {v : State} (hv : StoppedAt f s v) (hs : s.Inv) (hh : s.halt = false) :
    (v.takeFault f).Inv :=
  { (hv.sound hs.soundRegisters).takeFault f with
    unwritten := nofun
    faultHalt := by cases f <;> simp [SeqFault.code]
    faultEntry := ⟨fun _ => ⟨rfl, f, rfl, rfl⟩, nofun⟩
    validator := by
      obtain ⟨site, rfl, hviol, hsite⟩ | ⟨-, hviol, hsite⟩ := hv.validator
      · exact ⟨fun _ => ⟨rfl, rfl⟩, by simp [hviol, hsite]⟩
      · exact ⟨fun h => by simp [hviol, hs.tvViol_false hh] at h, by simpa [hviol, hsite] using hs.validator.2⟩
    portLines := nofun
    noFailedWrite := nofun }

/-- A command that runs to its end keeps the invariant (10_state.md R27). -/
theorem Effect.completes_inv (he : Effect s i u st plan put) (hs : s.Inv) (hh : s.halt = false)
    (hno : ∀ f, ¬ OperandFault s i f) (hok : ∀ e ∈ plan, e.accepted)
    (hlen : s.cp + lengthOf i ≤ s.cmd.length) : ((put (u.emitted plan)).advance (lengthOf i)).Inv := by
  have hw := he.put
  have hu := he.start
  have hput := (he.put_sound hs.soundRegisters hno).emitted plan
  have hin : (put (u.emitted plan)).inited = true := by rw [he.put_emitted]; exact he.put_inited
  rw [← he.put_emitted] at hput
  refine { hput.advance (n := lengthOf i) ?_ with
    unwritten := ?_, faultHalt := ?_, faultEntry := ?_, validator := ?_, portLines := ?_, noFailedWrite := ?_ }
  · simpa [hw.cp, hu.cp, hw.cmd, hu.cmd] using hlen
  · intro hi
    exact absurd (hin.symm.trans hi) (by decide)
  · simpa [hw.faultCode, hw.halt, hu.faultCode, hu.halt] using hs.faultHalt
  · have := hs.faultEntry.2 hh
    simp [hw.halt, hw.fcp, hw.faultValue, hu.halt, hu.fcp, hu.faultValue, hh, this]
  · have := hs.validator
    simpa [hw.tvViol, hw.halt, hw.faultCode, hw.tvSite, hu.tvViol, hu.halt, hu.faultCode, hu.tvSite] using this
  · intro _ p hp
    have hport : portAfter s.port plan = some p := by simpa [hw.port, hu.port] using hp
    have hbl : ((put (u.emitted plan)).advance (lengthOf i)).bl = (put u).bl := by rw [he.put_emitted]; rfl
    have hcfg : ((put (u.emitted plan)).advance (lengthOf i)).cfg = s.cfg := by simp [hw.cfg, hu.cfg]
    rw [hbl, hcfg]
    obtain ⟨hsame, hkept⟩ | ⟨b, bl, hb, hnew, hen, hrw, hon⟩ := he.last_byte hs.soundRegisters s.port
    · rw [hkept]
      exact hs.portLines hh p (hsame ▸ hport)
    · obtain rfl : b = p := by simpa [hb] using hport
      exact ⟨hen, hrw, by rw [hnew, hon]⟩
  · intro _ a b hm
    have hm' : Event.wf a b ∈ s.trace ++ plan := by simpa [hw.trace, hu.trace] using hm
    obtain h | h := List.mem_append.mp hm'
    · exact hs.noFailedWrite hh a b h
    · exact hok _ h

/-- A command that has room in the stream keeps the invariant, however it ends. -/
theorem exec_keeps_inv {t : State} (hs : s.Inv) (hh : s.halt = false) (hlen : s.cp + lengthOf i ≤ s.cmd.length)
    (h : exec i s = .next t) : t.Inv := by
  cases exec_ending h with
  | whole he hno hok ht => rw [ht]; exact he.completes_inv hs hh hno hok hlen
  | stopped hv ht => rw [ht]; exact hv.inv hs hh

end Sys2Proof.Machine

namespace Sys2Proof

/-- A command that was decoded lies inside the bytes it was decoded from (30_encoding.md R61). -/
theorem lengthOf_le_of_decode {bytes : List Byte} {i : Instr} (h : decode bytes = .command i) :
    lengthOf i ≤ bytes.length := by
  cases bytes with
  | nil => cases h
  | cons op tail =>
    change decodeAt op tail = _ at h
    unfold decodeAt at h
    split at h
    case h_1 =>
      unfold decodeInit at h
      split at h
      · split_ifs at h
        cases h; simp [lengthOf]
      · cases h
    case h_4 => unfold decodeSetcursor at h; split at h <;> cases h; simp [lengthOf]
    case h_19 => unfold decodeMkchar at h; split at h <;> cases h; simp [lengthOf]
    case h_20 =>
      unfold decodePrint at h
      split at h <;> cases h
      next ht =>
        obtain ⟨-, rest, rfl⟩ := textOf_some ht
        simp only [lengthOf, List.length_cons, List.length_append]
        omega
    case h_21 => unfold decodeSendcmd at h; split at h <;> cases h; simp [lengthOf]
    case h_22 => unfold decodeSendchr at h; split at h <;> cases h; simp [lengthOf]
    case h_23 => cases h
    all_goals cases h; simp [lengthOf]

end Sys2Proof

namespace Sys2Proof.Machine

/-- Settles O57: a step changes nothing, or is a command or a fault entry, and both ends of a command keep the
invariant. -/
theorem stepKeepsInvariant : Obligations.StepKeepsInvariant := by
  intro s t hs h
  obtain ⟨-, hcase⟩ := step_next h
  cases hcase with
  | still ht => rw [ht]; exact hs
  | illegal hh op _ ht => rw [ht]; exact (StoppedAt.at_once s (by simp)).inv hs hh
  | truncated hh op _ ht => rw [ht]; exact (StoppedAt.at_once s (by simp)).inv hs hh
  | command hh i hd h =>
    have hlen := lengthOf_le_of_decode hd
    rw [List.length_drop] at hlen
    have := hs.pointer
    exact exec_keeps_inv hs hh (by omega) h


/-- A body that runs or stops inside its plan ends the command with a next state. -/
theorem BodyRun.answers {bad : SeqFault → Prop} {good : Prop} {stages : List (State → State)} {plan : List Event}
    {put : State → State} {u : State} {m : Micro} (h : BodyRun bad good stages plan put u m) (n : Nat) :
    ∃ t, finish n m = .next t := by
  cases h <;> exact ⟨_, rfl⟩

/-- Where an open session has its registers written, no command reads a register that holds no value
(10_state.md R12). -/
theorem exec_answers {s : State} (hs : s.SoundRegisters) (i : Instr) : ∃ t, exec i s = .next t := by
  have hr := exec_cases i s
  generalize exec i s = o at hr
  cases hr with
  | notInitialized | operand => exact ⟨_, rfl⟩
  | ran he hbody => exact hbody.answers _
  | unwritten r hi hnone =>
    obtain ⟨ha, -, hb, -, hc, hm, -, -, n, hn, -⟩ := hs.session hi
    obtain h | h | h | h | h := hnone <;> simp [h] at ha hb hc hm hn

/-- Settles O58: the invariant excludes a refused table `K`, and an open session has written what a command reads. -/
theorem invariantStateNeverStops : Obligations.InvariantStateNeverStops := by
  intro s hs
  cases hh : s.halt with
  | true => exact ⟨s, step_halted hs.wf hh⟩
  | false =>
    rw [step_running hs.wf hh]
    split
    · exact exec_answers hs.soundRegisters _
    all_goals exact ⟨_, rfl⟩

/-- Every launch with a well-formed `K` meets the invariant (70_reset_and_hazards.md R203). -/
theorem launch_inv {cfg : Config} (hk : constantsWf cfg.k = true) (cmd : List Byte) (sink : Sink) :
    (State.launch cfg cmd sink).Inv where
  wf := hk
  backlight := nofun
  ctrlBits := nofun
  modeBits := nofun
  funcBits := nofun
  cursorRow := nofun
  session := nofun
  unwritten := fun _ _ => ⟨rfl, rfl, rfl, rfl, rfl, rfl, rfl, rfl, rfl, rfl, rfl⟩
  faultHalt := ⟨fun _ => rfl, fun _ => rfl⟩
  faultEntry := ⟨nofun, fun _ => ⟨rfl, rfl⟩⟩
  validator := ⟨nofun, rfl⟩
  pointer := Nat.zero_le _
  portLines := nofun
  noFailedWrite := fun _ _ _ => List.not_mem_nil

/-! ### What every command leaves alone -/

section
variable {i : Instr} {s t : State}

/-- A command that runs its whole effect completes (30_encoding.md R62). -/
theorem Effect.completed {u : State} {st : List (State → State)} {plan : List Event} {put : State → State}
    (he : Effect s i u st plan put) : Completed i s ((put (u.emitted plan)).advance (lengthOf i)) where
  cp := by simp [he.put.cp, he.start.cp]
  halt := by simp [he.put.halt, he.start.halt]
  faultCode := by simp [he.put.faultCode, he.start.faultCode]
  fcp := by simp [he.put.fcp, he.start.fcp]
  faultValue := by simp [he.put.faultValue, he.start.faultValue]
  tvViol := by simp [he.put.tvViol, he.start.tvViol]
  tvSite := by simp [he.put.tvSite, he.start.tvSite]

theorem StoppedAt.tookFault {f : SeqFault} {v : State} (h : StoppedAt f s v) : TookFault f s (v.takeFault f) :=
  ⟨h.cp, rfl, rfl, congrArg some h.cp, rfl, h.validator⟩

/-- Every command that answers a next state completed or took one fault (60_exceptions.md R176). -/
theorem exec_ended (h : exec i s = .next t) : Ended i s t := by
  cases exec_ending h with
  | whole he _ _ ht => rw [ht]; exact .inl he.completed
  | @stopped f v hv ht => rw [ht]; exact .inr ⟨f, hv.tookFault⟩

/-- No command changes the stream or the parameters (20_memory.md R40). -/
theorem exec_keeps_cmd_cfg (h : exec i s = .next t) : t.cmd = s.cmd ∧ t.cfg = s.cfg := by
  cases exec_ending h with
  | whole he _ _ ht => rw [ht]; simp [he.put.cmd, he.put.cfg, he.start.cmd, he.start.cfg]
  | stopped hv ht => rw [ht]; exact ⟨hv.cmd, hv.cfg⟩

theorem exec_keepsInputs (h : exec i s = .next t) : KeepsInputs s t := by
  obtain ⟨hcmd, hcfg⟩ := exec_keeps_cmd_cfg h
  exact ⟨fun n => congrArg (·[n]?) hcmd, congrArg List.length hcmd, hcfg⟩

/-- A command only appends to the trace (10_state.md R25). -/
theorem exec_trace_grows (h : exec i s = .next t) : s.trace <+: t.trace := by
  cases exec_ending h with
  | @whole u _ plan put he _ _ ht => exact ⟨plan, by rw [ht]; simp [he.put.trace, he.start.trace]⟩
  | stopped hv ht => rw [ht]; exact hv.trace

/-- A command that leaves the block running ran its whole effect. -/
theorem exec_unfaulted (h : exec i s = .next t) (ht : t.halt = false) :
    ∃ u st plan put, Effect s i u st plan put ∧ t = (put (u.emitted plan)).advance (lengthOf i) := by
  cases exec_ending h with
  | whole he _ _ ht => exact ⟨_, _, _, _, he, ht⟩
  | stopped hv hstop => subst hstop; cases ht

theorem step_keeps_cfg (h : step s = .next t) : t.cfg = s.cfg := by
  cases (step_next h).2 with
  | still ht | illegal _ _ _ ht | truncated _ _ _ ht => subst ht; rfl
  | command _ _ _ h => exact (exec_keeps_cmd_cfg h).2

/-- A command other than `INIT` does not write `INITED` at its end (10_state.md R19). -/
theorem Effect.put_keeps_inited {u : State} {st : List (State → State)} {plan : List Event} {put : State → State}
    (he : Effect s i u st plan put) (hinit : ∀ addr cols rows font, i ≠ .init addr cols rows font) (v : State) :
    (put v).inited = v.inited := by
  cases he with
  | init => exact absurd rfl (hinit _ _ _ _)
  | _ => rfl

end

/-- Settles O40: a command other than `INIT` ends with a register write that spares these registers, or stops before it. -/
theorem onlyInitWritesGeometry : Obligations.OnlyInitWritesGeometry := by
  intro i s t hinit h
  obtain ⟨u, st, plan, put, he, rfl, -, rfl⟩ | ⟨ha, hc, hr, hf, -, -, -, -, -, hi, -⟩ := exec_plain_next hinit h
  · have hw := he.put
    exact ⟨⟨hw.addr _, hw.cols _, hw.rows _, hw.func _⟩, he.put_keeps_inited hinit _⟩
  · exact ⟨⟨ha, hc, hr, hf⟩, hi⟩

/-- The commands whose effect is bus events and no register write (40_transport.md R90 to R92,
42_display_control.md R121, R130, R131, R139). -/
inductive SendsOnly : Instr → Prop where
  | sendcmd (v : Byte) : SendsOnly (.sendcmd v)
  | sendchr (v : Byte) : SendsOnly (.sendchr v)
  | print (text : List Byte) : SendsOnly (.print text)
  | home : SendsOnly .home
  | scrl : SendsOnly .scrl
  | scrr : SendsOnly .scrr
  | mkchar (slot p0 p1 p2 p3 p4 p5 p6 p7 : Byte) : SendsOnly (.mkchar slot p0 p1 p2 p3 p4 p5 p6 p7)

theorem SendsOnly.not_init {i : Instr} (h : SendsOnly i) (addr : BusAddr) (cols rows font : Byte) :
    i ≠ .init addr cols rows font := by
  cases h <;> simp

theorem SendsOnly.put_eq_id {i : Instr} (h : SendsOnly i) {s u : State} {st : List (State → State)}
    {plan : List Event} {put : State → State} (he : Effect s i u st plan put) : put = id := by
  cases h <;> cases he <;> rfl

/-- A command that only sends leaves every register but `TRACE`, `PORT`, `cp` and those of a fault. -/
theorem SendsOnly.frame {i : Instr} (hi : SendsOnly i) {s t : State} (h : exec i s = .next t) :
    KeepsCursor s t ∧ t.bl = s.bl ∧ t.ctrl = s.ctrl ∧ t.mode = s.mode := by
  obtain ⟨u, st, plan, put, he, rfl, -, rfl⟩ | ⟨-, -, -, -, hr, hc, hb, hct, hm, -, -⟩ :=
    exec_plain_next hi.not_init h
  · rw [hi.put_eq_id he]
    exact ⟨⟨rfl, rfl⟩, rfl, rfl, rfl⟩
  · exact ⟨⟨hr, hc⟩, hb, hct, hm⟩

/-- Settles O42: the named commands are those that only send. -/
theorem sendingCommandsFrame : Obligations.SendingCommandsFrame := by
  intro i s t hi h
  have hsend : SendsOnly i := by
    obtain ⟨v, rfl⟩ | ⟨v, rfl⟩ | ⟨text, rfl⟩ | rfl | rfl | rfl | ⟨slot, p0, p1, p2, p3, p4, p5, p6, p7, rfl⟩ := hi
    · exact .sendcmd v
    · exact .sendchr v
    · exact .print text
    · exact .home
    · exact .scrl
    · exact .scrr
    · exact .mkchar ..
  obtain ⟨hgeo, hin⟩ := onlyInitWritesGeometry i s t hsend.not_init h
  obtain ⟨hcur, hbl, hctrl, hmode⟩ := hsend.frame h
  exact ⟨hgeo, hcur, exec_keepsInputs h, hbl, hctrl, hmode, hin, exec_ended h⟩

/-- Settles O9: a command completes with `HALT` as it was or takes a fault that sets it, and a halted block stays as it is. -/
theorem haltStaysUntilReset : Obligations.HaltStaysUntilReset := by
  refine ⟨rfl, fun _ _ => rfl, fun i s t h hh => ?_, fun s t h hh => ?_, fun _ => rfl⟩
  · obtain hc | ⟨f, hf⟩ := exec_ended h
    · exact hc.halt.trans hh
    · exact hf.halt
  · rw [step_halted (step_next h).1 hh] at h
    cases h
    exact ⟨hh, rfl, rfl⟩

/-- Settles O47: a fault entry leaves `TRACE` and `cp`, and a command appends its events and moves `cp` forward or not. -/
theorem traceAndPointerOnlyGrow : Obligations.TraceAndPointerOnlyGrow := by
  intro s t h
  cases (step_next h).2 with
  | still ht | illegal _ _ _ ht | truncated _ _ _ ht => rw [ht]; exact ⟨⟨[], List.append_nil _⟩, le_rfl⟩
  | command _ i _ h =>
    refine ⟨exec_trace_grows h, ?_⟩
    obtain hc | ⟨f, hf⟩ := exec_ended h
    · rw [hc.cp]; omega
    · exact hf.cp.ge

/-! ### What no command reads -/

/-- The state with `COLS`, `CROW` and `CCOL` forgotten. -/
def State.forgetPosition (s : State) : State := { s with cols := none, crow := none, ccol := none }

/-- Two states that differ at most in `COLS`, `CROW` and `CCOL` stay so (10_state.md R11). -/
theorem blind_forgetPosition : Blind fun s t => t.forgetPosition = s.forgetPosition where
  reads h := ⟨(congrArg State.addr h :), (congrArg State.rows h :), (congrArg State.bl h :), (congrArg State.func h :),
    (congrArg State.ctrl h :), (congrArg State.mode h :), (congrArg State.inited h :), (congrArg State.cfg h :),
    (congrArg State.sink h :)⟩
  event e h := congrArg (State.record e) h
  bus p k h := congrArg (fun x : State => { x with port := p, sink := k }) h
  putCtrl v h := congrArg (State.putCtrl v) h
  putMode v h := congrArg (State.putMode v) h
  putBl v h := congrArg (State.putBl v) h
  putCursor _ _ h := h
  putInited h := congrArg State.putInited h
  advance n h := congrArg (State.advance n) h
  takeFault f h := congrArg (State.takeFault f) h
  violation site h := congrArg (State.recordViolation site) h
  initStart addr cols rows font h :=
    (congrArg (fun x => (State.initStart addr cols rows font x).forgetPosition) h :)

/-- Settles O45: what a command leaves in the three registers is all that tells the two runs apart. -/
theorem shadowPositionIsNeverRead : Obligations.ShadowPositionIsNeverRead := by
  intro i s t c r x h
  exact exec_related blind_forgetPosition (s := s) (s' := { s with cols := c, crow := r, ccol := x }) rfl h

/-- `t` is `s` with the head `new` of its trace in place of `old`. -/
def SwapsHead (old new : List Event) (s t : State) : Prop :=
  ∃ es, s.trace = old ++ es ∧ t = { s with trace := new ++ es }

/-- An update that neither reads nor writes the trace keeps the swap. -/
theorem SwapsHead.map {old new : List Event} {s t : State} {f : State → State} (h : SwapsHead old new s t)
    (htrace : ∀ v, (f v).trace = v.trace) (hf : ∀ v es, f { v with trace := es } = { f v with trace := es }) :
    SwapsHead old new (f s) (f t) := by
  obtain ⟨es, hs, rfl⟩ := h
  exact ⟨es, by rw [htrace, hs], hf s _⟩

/-- Two states that differ at most in the head of their traces stay so (10_state.md R25). -/
theorem blind_swapsHead (old new : List Event) : Blind (SwapsHead old new) where
  reads := by
    rintro s t ⟨es, -, rfl⟩
    exact ⟨rfl, rfl, rfl, rfl, rfl, rfl, rfl, rfl, rfl⟩
  event := by
    rintro s t e ⟨es, hs, rfl⟩
    exact ⟨es ++ [e], by simp [State.record, hs], by simp [State.record]⟩
  bus p k h := h.map (f := fun x => { x with port := p, sink := k }) (fun _ => rfl) fun _ _ => rfl
  putCtrl v h := h.map (f := State.putCtrl v) (fun _ => rfl) fun _ _ => rfl
  putMode v h := h.map (f := State.putMode v) (fun _ => rfl) fun _ _ => rfl
  putBl v h := h.map (f := State.putBl v) (fun _ => rfl) fun _ _ => rfl
  putCursor row col h := h.map (f := State.putCursor row col) (fun _ => rfl) fun _ _ => rfl
  putInited h := h.map (f := State.putInited) (fun _ => rfl) fun _ _ => rfl
  advance n h := h.map (f := State.advance n) (fun _ => rfl) fun _ _ => rfl
  takeFault f h := h.map (f := State.takeFault f) (fun _ => rfl) fun _ _ => rfl
  violation site h := h.map (f := State.recordViolation site) (fun _ => rfl) fun _ _ => rfl
  initStart addr cols rows font h :=
    h.map (f := State.initStart addr cols rows font) (fun _ => rfl) fun _ _ => rfl

/-- Settles O46: from the same state with another trace a command comes to the same state with the same events
appended. -/
theorem traceIsNeverRead : Obligations.TraceIsNeverRead := by
  intro i s t older h
  have hswap : SwapsHead s.trace older s { s with trace := older } := ⟨[], by simp, by simp⟩
  obtain ⟨t', ht', es, htrace, rfl⟩ := exec_related (blind_swapsHead s.trace older) hswap h
  exact ⟨es, htrace, ht'⟩

/-! ### The values of a toggle, of `INIT` and of the reset -/

/-- A toggle of `CTRL` that runs to its end sends the value it writes (42_display_control.md R136). -/
theorem Effect.ctrl_toggle {i : Instr} {s u : State} {st : List (State → State)} {plan : List Event}
    {put : State → State} (he : Effect s i u st plan put)
    (hi : i ∈ [Instr.dispon, .dispoff, .curon, .curoff, .blnkon, .blnkoff]) :
    ∃ a bl new, s.Open a bl ∧ u = s ∧ plan = commandEvents s.cfg a bl (s.cfg.k.displayControl ||| new) ∧
      put = State.putCtrl new := by
  cases he with
  | dispon ho | dispoff ho | curon ho | curoff ho | blnkon ho | blnkoff ho => exact ⟨_, _, _, ho, rfl, rfl, rfl⟩
  | _ => simp at hi

/-- A toggle of `MODE` that runs to its end sends the value it writes (42_display_control.md R136). -/
theorem Effect.mode_toggle {i : Instr} {s u : State} {st : List (State → State)} {plan : List Event}
    {put : State → State} (he : Effect s i u st plan put) (hi : i ∈ [Instr.ltr, .rtl, .ascron, .ascroff]) :
    ∃ a bl new, s.Open a bl ∧ u = s ∧ plan = commandEvents s.cfg a bl (s.cfg.k.entryModeSet ||| new) ∧
      put = State.putMode new := by
  cases he with
  | ltr ho | rtl ho | ascron ho | ascroff ho => exact ⟨_, _, _, ho, rfl, rfl, rfl⟩
  | _ => simp at hi

/-- Settles O52: a toggle without fault ran its whole effect, whose events carry the value it writes. -/
theorem toggleShadowsWhatItSent : Obligations.ToggleShadowsWhatItSent := by
  intro i s t h _ hh
  obtain ⟨u, st, plan, put, he, rfl⟩ := exec_unfaulted h hh
  constructor
  · intro hi
    obtain ⟨a, bl, new, ho, rfl, rfl, rfl⟩ := he.ctrl_toggle hi
    exact ⟨a, bl, new, ho.addr, ho.bl, rfl, rfl⟩
  · intro hi
    obtain ⟨a, bl, new, ho, rfl, rfl, rfl⟩ := he.mode_toggle hi
    exact ⟨a, bl, new, ho.addr, ho.bl, rfl, rfl⟩

/-- `resolve` with the default `K` (41_init.md R102). -/
theorem resolve_default (rows font : Byte) : resolve defaultConstants rows font =
    (if 1 < rows.toNat then 0x08 else 0x00) ||| (if font ≠ 0 ∧ rows = 1 then 0x04 else 0x00) := by
  simp [resolve, defaultConstants, BitVec.ult]

/-- The last byte of a successful `INIT`: the low nibble of `RETURNHOME`, strobe and backlight off (41_init.md R111). -/
theorem portAfter_initEvents (c : Config) (a : BusAddr) (func : Byte) (p : Option Byte) :
    portAfter p (initEvents c a func) =
      some ((((c.k.returnHome <<< 4) &&& 0xF0) ||| 0) &&& ~~~c.k.en ||| c.k.backlightOff) := rfl

/-- Settles O55: the reset state by its definition, a successful `INIT` by its whole effect. -/
theorem resetAndInitValues : Obligations.ResetAndInitValues := by
  refine ⟨by decide, fun s t addr cols rows font hk h hi => ?_⟩
  obtain ⟨-, -, rfl⟩ := exec_init_open h hi
  refine ⟨rfl, rfl, rfl, ?_, ?_, ?_, ?_, rfl, rfl, ?_, rfl⟩
  · show some s.cfg.k.backlightOff = _
    rw [hk]; rfl
  · show some (resolve s.cfg.k rows font) = _
    rw [hk, resolve_default]
  · show some s.cfg.k.displayOn = _
    rw [hk]; rfl
  · show some s.cfg.k.entryLeft = _
    rw [hk]; rfl
  · show portAfter s.port (initEvents s.cfg addr (resolve s.cfg.k rows font)) = _
    rw [portAfter_initEvents, hk]; rfl

/-! ### Reading a register that holds no value (10_state.md R12) -/

section
variable {s : State}

/-- A byte transfer stops at its first bus write when that write stops. -/
theorem writeByte_stuck {r : Fault} (h : ∀ x, transmit x s = .stuck r) (v m : Byte) : writeByte v m s = .stuck r := by
  simp [writeByte, writeNibble, runSeq, h, Micro.andThen]

theorem transmit_without_bl (hb : s.bl = none) (x : Byte) : transmit x s = .stuck (.unwrittenRegister .bl) := by
  simp [transmit, readReg, hb]

theorem transmit_without_addr (hb : s.bl ≠ none) (ha : s.addr = none) (x : Byte) :
    transmit x s = .stuck (.unwrittenRegister .addr) := by
  obtain ⟨bl, hbl⟩ := Option.ne_none_iff_exists'.mp hb
  simp [transmit, readReg, hbl, ha]

theorem sessionCommand_stuck {i : Instr} {body : State → Micro} {r : Fault} (hi : s.inited = true)
    (h : body s = .stuck r) : sessionCommand i body s = .fault r := by
  simp [sessionCommand, hi, h, finish]

end

/-- Settles O39: in an open session the first read of a register that holds no value ends the step. -/
theorem unwrittenRegisterStops : Obligations.UnwrittenRegisterStops := by
  intro s v row col hi
  refine ⟨fun hb => ?_, fun hb ha => ?_, fun ha => ?_, fun hr => ?_, fun hc => ?_, fun hm => ?_⟩
  · exact sessionCommand_stuck hi (writeByte_stuck (transmit_without_bl hb) v 0)
  · exact sessionCommand_stuck hi (writeByte_stuck (transmit_without_addr hb ha) v 0)
  · exact sessionCommand_stuck hi (by simp [setBacklight, readReg, ha])
  · exact sessionCommand_stuck hi (by simp [setCursorOp, readReg, hr])
  · exact sessionCommand_stuck hi (by simp [toggleCtrl, readReg, hc])
  · exact sessionCommand_stuck hi (by simp [toggleMode, readReg, hm])

/-! ### Whole runs -/

/-- Every state of a run from a launch meets the invariant and has the parameters of the launch. -/
theorem run_launch_inv {cfg : Config} (hk : constantsWf cfg.k = true) (cmd : List Byte) (sink : Sink) (n : Nat) :
    ∃ t, Host.Core.run core n (State.launch cfg cmd sink) = .next t ∧ t.Inv ∧ t.cfg = cfg := by
  refine core_run_invariant (P := fun t => t.Inv ∧ t.cfg = cfg) (fun s hs => ?_) n _ ⟨launch_inv hk cmd sink, rfl⟩
  obtain ⟨t, ht⟩ := invariantStateNeverStops s hs.1
  exact ⟨t, ht, stepKeepsInvariant s t hs.1 ht, (step_keeps_cfg ht).trans hs.2⟩

/-- While the block is not halted `CROW` is a row of the display: before the first session it holds no value
(10_state.md R27 c, assumption log 8). -/
theorem State.Inv.cursorRow_running {s : State} (h : s.Inv) (hh : s.halt = false) {r : Byte} (hr : s.crow = some r) :
    r.toNat < 4 ∧ ∃ m, s.rows = some m ∧ r.toNat < m.toNat := by
  cases hi : s.inited with
  | true =>
    obtain ⟨h4, m, hm, hlt⟩ := h.cursorRow hi r hr
    exact ⟨by simpa [BitVec.ult] using h4, m, hm, by simpa [BitVec.ult] using hlt⟩
  | false =>
    obtain ⟨-, -, -, hnone, -⟩ := h.unwritten hi hh
    rw [hnone] at hr; cases hr

/-- Settles O59: the clauses of the invariant read with the bytes of the default `K`. -/
theorem reachableStatesKeepRegisterRanges : Obligations.ReachableStatesKeepRegisterRanges := by
  intro cfg cmd sink n hk
  obtain ⟨t, hrun, hinv, hcfg⟩ := run_launch_inv (cfg := cfg) (by rw [hk]; decide) cmd sink n
  have hkt : t.cfg.k = defaultConstants := by rw [hcfg, hk]
  refine ⟨t, hrun, ?_, ?_, ?_, ?_, fun hh r hr => hinv.cursorRow_running hh hr, hinv.faultHalt, hinv.validator.1,
    hinv.pointer, ?_⟩
  · cases hb : t.bl with
    | none => exact .inl rfl
    | some b =>
      have := hinv.backlight b hb
      rw [hkt] at this
      exact .inr (this.imp (congrArg some) (congrArg some))
  · have := hinv.ctrlBits
    rw [hkt] at this; exact this
  · have := hinv.modeBits
    rw [hkt] at this; exact this
  · have := hinv.funcBits
    rw [hkt] at this; exact this
  · have := hinv.portLines
    rw [hkt] at this; exact this

/-- Settles O60 by evaluating the run: `INIT` with four rows, a cursor in row 3, and a second `INIT` with one row. -/
theorem faultedReinitLeavesOldCursorRow : Obligations.FaultedReinitLeavesOldCursorRow :=
  ⟨_, rfl, rfl, rfl, rfl, rfl⟩

end Sys2Proof.Machine

/-! The bus port and the command stream (family 20_memory.md). -/

namespace Sys2Proof.Machine

/-- A fault entry writes neither the stream nor a parameter (60_exceptions.md R176). -/
theorem takeFault_keepsInputs (f : SeqFault) (s : State) : KeepsInputs s (s.takeFault f) :=
  ⟨fun _ => rfl, rfl, rfl⟩

theorem step_keepsInputs {s t : State} (h : step s = .next t) : KeepsInputs s t := by
  cases (step_next h).2 with
  | still ht => rw [ht]; exact ⟨fun _ => rfl, rfl, rfl⟩
  | illegal _ _ _ ht | truncated _ _ _ ht => rw [ht]; exact takeFault_keepsInputs _ s
  | command _ _ _ h => exact exec_keepsInputs h

/-- Settles O41: a command keeps the inputs however it ends, and a step is a command, a fault entry or no change. -/
theorem inputsNeverChange : Obligations.InputsNeverChange :=
  ⟨fun _ _ _ => exec_keepsInputs, fun _ _ => step_keepsInputs⟩

/-- `BusWrite` on an accepted write (20_memory.md R44). -/
theorem busWrite_success {a : BusAddr} {b : Byte} {s : State} (h : s.sink.answer = .success) :
    busWrite a b s = (.success, { s.record (.w a b) with port := some b, sink := s.sink.after 1 }) := by
  simp [busWrite, h]

/-- `BusWrite` on a failed write: the port holds no value after it (20_memory.md R44, 10_state.md R24). -/
theorem busWrite_failure {a : BusAddr} {b : Byte} {s : State} (h : s.sink.answer = .failure) :
    busWrite a b s = (.failure, { s.record (.wf a b) with port := none, sink := s.sink.after 1 }) := by
  simp [busWrite, h]

/-- Settles O12: the sink's answer selects the case of `busWrite`, and recording an event appends it to the trace. -/
theorem busWriteRecordsTheAnswer : Obligations.BusWriteRecordsTheAnswer :=
  fun _ _ _ => ⟨busWrite_success, busWrite_failure⟩

end Sys2Proof.Machine

/-! Decoding, encoding and the bytes on the bus (family 30_encoding.md). -/

namespace Sys2Proof

/-! ### What the decoder answers in each format (30_encoding.md R60, R61) -/

section
variable {op : Byte} {rest : List Byte}

theorem decode_init (a c r f : Byte) (tail : List Byte) : decode (0x01 :: a :: c :: r :: f :: tail) =
    if a.getLsbD 7 then .illegalEncoding 0x01 else .command (.init (a.setWidth 7) c r f) := rfl

theorem decode_print_text {text : List Byte} (h : textWf text = true) (tail : List Byte) :
    decode (0x21 :: (text ++ 0x00 :: tail)) = .command (.print text) := by
  show decodePrint 0x21 (text ++ 0#8 :: tail) = _
  rw [decodePrint, textOf_append h]

theorem decode_print_unterminated (h : (0x00 : Byte) ∉ rest) : decode (0x21 :: rest) = .truncatedCommand 0x21 := by
  show decodePrint 0x21 rest = _
  rw [decodePrint, textOf_none.mpr h]

theorem decodeInit_short (h : rest.length < 4) : decodeInit op rest = .truncatedCommand op := by
  unfold decodeInit
  split
  · simp only [List.length_cons] at h; omega
  · rfl

theorem decodeSetcursor_short (h : rest.length < 2) : decodeSetcursor op rest = .truncatedCommand op := by
  unfold decodeSetcursor
  split
  · simp only [List.length_cons] at h; omega
  · rfl

theorem decodeMkchar_short (h : rest.length < 9) : decodeMkchar op rest = .truncatedCommand op := by
  unfold decodeMkchar
  split
  · simp only [List.length_cons] at h; omega
  · rfl

/-- A reserved opcode byte (30_encoding.md R65). -/
theorem decode_reserved (h : op ∉ [0x01, 0x02, 0x03, 0x04, 0x10, 0x11, 0x12, 0x13, 0x14, 0x15, 0x16, 0x17, 0x18, 0x19,
    0x1A, 0x1B, 0x1C, 0x1D, 0x20, 0x21, 0x22, 0x23]) : decode (op :: rest) = .illegalEncoding op := by
  show decodeAt op rest = _
  unfold decodeAt
  split
  case h_23 => rfl
  all_goals exact absurd (by decide) h

/-! ### What bytes the decoder reads a command from -/

theorem decodeInit_command {i : Instr} (h : decodeInit op rest = .command i) :
    opcode i = 0x01 ∧ i.wf = true ∧ operandBytes i <+: rest := by
  unfold decodeInit at h
  split at h
  next addr cols rows font tail =>
    split_ifs at h with h7
    cases h
    refine ⟨rfl, rfl, tail, ?_⟩
    show (addr.setWidth 7).setWidth 8 :: cols :: rows :: font :: tail = _
    rw [byte_of_addr (by simpa using h7)]
  next => cases h

theorem decodePrint_command {i : Instr} (h : decodePrint op rest = .command i) :
    opcode i = 0x21 ∧ i.wf = true ∧ operandBytes i <+: rest := by
  unfold decodePrint at h
  split at h <;> cases h
  next ht =>
    obtain ⟨hwf, tail, rfl⟩ := textOf_some ht
    exact ⟨rfl, hwf, tail, by simp [operandBytes]⟩

/-- The inversion lemma of the decoder at a command. -/
theorem decodeAt_command {i : Instr} (h : decodeAt op rest = .command i) :
    opcode i = op ∧ i.wf = true ∧ operandBytes i <+: rest := by
  unfold decodeAt at h
  split at h
  case h_1 => exact decodeInit_command h
  case h_20 => exact decodePrint_command h
  case h_4 | h_19 | h_21 | h_22 =>
    simp only [decodeSetcursor.eq_def, decodeMkchar.eq_def, decodeSendcmd.eq_def, decodeSendchr.eq_def] at h
    split at h <;> cases h
    exact ⟨rfl, rfl, _, rfl⟩
  case h_23 => cases h
  all_goals cases h; exact ⟨rfl, rfl, rest, rfl⟩

end

/-! ### Decoding and encoding undo each other -/

/-- Settles O1: the decoder's equation of each format, read at the encoder's bytes. -/
theorem decodeOfEncode : Obligations.DecodeOfEncode := by
  intro i rest hwf
  cases i with
  | init addr cols rows font =>
    show decode (0x01 :: addr.setWidth 8 :: cols :: rows :: font :: rest) = _
    rw [decode_init, addr_bit7, addr_roundTrip]
    rfl
  | print text =>
    show decode (0x21 :: (text ++ [0x00] ++ rest)) = _
    rw [List.append_assoc]
    exact decode_print_text hwf rest
  | _ => rfl

/-- A command that was decoded is well-formed and its encoding stands at the head of the bytes. -/
theorem wf_and_encode_prefix_of_decode {bytes : List Byte} {i : Instr} (h : decode bytes = .command i) :
    i.wf = true ∧ encode i <+: bytes := by
  cases bytes with
  | nil => cases h
  | cons op rest =>
    obtain ⟨rfl, hwf, tail, rfl⟩ := decodeAt_command h
    exact ⟨hwf, tail, rfl⟩

theorem encode_length (i : Instr) : (encode i).length = lengthOf i := by
  cases i with
  | print text => exact (Laws.EncodedLength.print text).1
  | _ => rfl

/-- Settles O2: the decoder read the encoding at the head of the bytes, and an encoding is as long as its format. -/
theorem encodeOfDecode : Obligations.EncodeOfDecode := by
  intro bytes i h
  obtain ⟨hwf, tail, rfl⟩ := wf_and_encode_prefix_of_decode h
  exact ⟨hwf, by rw [← encode_length, List.drop_left], encode_length i⟩

/-- Settles O3, by induction on the first program: the decoder reads the same first command from both streams, and what
follows it is the stream of the other commands. -/
theorem streamsHaveOneReading : Obligations.StreamsHaveOneReading := by
  intro p
  induction p with
  | nil =>
    intro q _ _ h
    cases q with
    | nil => rfl
    | cons j js => cases h
  | cons i is ih =>
    intro q hp hq h
    cases q with
    | nil => cases h
    | cons j js =>
      have hi := decodeOfEncode i (encodeProgram is) (hp i (by simp))
      have hj := decodeOfEncode j (encodeProgram js) (hq j (by simp))
      have hij : i = j := by
        change encode i ++ encodeProgram is = encode j ++ encodeProgram js at h
        rw [h, hj] at hi
        cases hi; rfl
      subst hij
      rw [ih js (fun k hk => hp k (by simp [hk])) (fun k hk => hq k (by simp [hk])) (List.append_cancel_left h)]

/-- Settles O4: each clause is the decoder's equation of its format. -/
theorem decodeFollowsTheFormats : Obligations.DecodeFollowsTheFormats := by
  refine ⟨fun _ => rfl, fun _ _ => decode_reserved, fun _ => decode_print_unterminated,
    fun text tail h => decode_print_text ((textWf_iff text).mpr h) tail, fun op len rest hop hlen => ?_,
    decode_init, fun _ _ _ => rfl, fun _ _ _ _ _ _ _ _ _ _ => rfl, fun _ _ => ⟨rfl, rfl⟩,
    fun _ => ⟨rfl, rfl, rfl, rfl, rfl, rfl, rfl, rfl, rfl, rfl, rfl, rfl, rfl, rfl, rfl, rfl⟩⟩
  simp only [List.mem_cons, Prod.mk.injEq, List.not_mem_nil, or_false] at hop
  obtain ⟨rfl, rfl⟩ | ⟨rfl, rfl⟩ | ⟨rfl, rfl⟩ | ⟨rfl, rfl⟩ | ⟨rfl, rfl⟩ := hop
  · exact decodeInit_short (by omega)
  · exact decodeSetcursor_short (by omega)
  · exact decodeMkchar_short (by omega)
  all_goals rw [List.length_eq_zero_iff.mp (by omega : rest.length = 0)]; rfl

/-- Settles O5 by running the decoder on the eight words. -/
theorem sampleWordsDecode : Obligations.SampleWordsDecode :=
  ⟨rfl, rfl, rfl, rfl, rfl, rfl, rfl, rfl⟩

end Sys2Proof

namespace Sys2Proof.Machine

/-! ### The step at a decoded command -/

/-- Settles O7: a block that is not halted does what the bytes at `cp` say. -/
theorem stepRunsTheDecodedCommand : Obligations.StepRunsTheDecodedCommand := by
  intro s i hk hh hd
  rw [step_running hk hh, hd]

/-- Bytes placed at the command pointer stand there. -/
theorem placeBytes_drop (s : State) (bytes : List Byte) : (s.placeBytes bytes).cmd.drop (s.placeBytes bytes).cp =
    bytes ++ s.cmd.drop (s.cp + bytes.length) := by
  have hlen : s.cp = (s.cmd.take s.cp ++ List.replicate (s.cp - s.cmd.length) (0x00 : Byte)).length := by
    simp only [List.length_append, List.length_take, List.length_replicate]; omega
  show (s.cmd.take s.cp ++ List.replicate (s.cp - s.cmd.length) (0x00 : Byte) ++ bytes
    ++ s.cmd.drop (s.cp + bytes.length)).drop s.cp = _
  rw [List.append_assoc _ bytes]
  exact List.drop_left' hlen.symm

theorem decode_of_decodeTableWord {nbits w : Nat} {i : Instr} (h : decodeTableWord nbits w = some i) :
    decode (tableBytes nbits w) = .command i := by
  unfold decodeTableWord at h
  split at h <;> cases h
  assumption

/-- Settles O11: the placed word stands at `cp`, and what follows it does not change how it decodes. -/
theorem placedWordRuns : Obligations.PlacedWordRuns := by
  intro s nbits w i hk hw
  refine stepRunsTheDecodedCommand (s.withFetchWord nbits w) i hk rfl ?_
  show decode ((s.placeBytes (tableBytes nbits w)).cmd.drop (s.placeBytes (tableBytes nbits w)).cp) = _
  rw [placeBytes_drop]
  exact decode_append (decode_of_decodeTableWord hw) _

/-! ### The lines of the bytes on the bus (30_encoding.md R69) -/

/-- A byte of a transfer leaves the read/write line low and carries `BL` in its backlight bit. -/
theorem TransferByte.rw_low_and_backlight {c : Config} {a a' : BusAddr} {bl m b : Byte}
    (h : TransferByte c a bl m a' b) (f : LineFacts c.k) (hbl : bl = c.k.backlightOff ∨ bl = c.k.backlightOn)
    (hm : m = 0 ∨ m = c.k.registerSelect) : b &&& c.k.rwLine = 0 ∧ b &&& c.k.backlightOn = bl := by
  have hmode : ∀ e : Byte, c.k.registerSelect &&& e = 0 → m &&& e = 0 := fun e he => by
    obtain rfl | rfl := hm
    · exact BitVec.zero_and
    · exact he
  have hrest : LinesAtRest c.k bl bl := by
    obtain rfl | rfl := hbl
    · exact (linesAtRest_backlight f).1
    · exact (linesAtRest_backlight f).2
  obtain ⟨-, hrw, hon⟩ := hrest
  rw [h.line f.rwData f.enRw (hmode _ (by rw [BitVec.and_comm]; exact f.rwRs)),
    h.line f.blData f.enBl (hmode _ f.rsBl)]
  exact ⟨hrw, hon⟩

theorem mem_clearEvents {c : Config} {a a' : BusAddr} {bl b : Byte} (h : Event.w a' b ∈ clearEvents c a bl) :
    TransferByte c a bl 0 a' b := by
  simp only [clearEvents, commandEvents, delayEvent, List.mem_append, List.mem_singleton, reduceCtorEq, or_false] at h
  exact h.elim mem_byteEvents mem_byteEvents

theorem mem_homeEvents {c : Config} {a a' : BusAddr} {bl b : Byte} (h : Event.w a' b ∈ homeEvents c a bl) :
    TransferByte c a bl 0 a' b := by
  simp only [homeEvents, commandEvents, delayEvent, List.mem_append, List.mem_singleton, reduceCtorEq, or_false] at h
  exact mem_byteEvents h

/-- After its recovery steps `INIT` sends command bytes only, with the backlight off (41_init.md R113). -/
theorem mem_initEvents {c : Config} {a a' : BusAddr} {func b : Byte} (h : Event.w a' b ∈ initEvents c a func) :
    Event.w a' b ∈ recoveryEvents c a c.k.backlightOff ∨ TransferByte c a c.k.backlightOff 0 a' b := by
  simp only [initEvents, commandEvents, List.mem_append] at h
  obtain ((((h | h) | h) | h) | h) | h := h
  · exact .inl h
  · exact .inr (mem_byteEvents h)
  · exact .inr (mem_byteEvents h)
  · exact .inr (mem_clearEvents h)
  · exact .inr (mem_byteEvents h)
  · exact .inr (mem_homeEvents h)

/-- The recovery bytes of the default `K` leave the read/write line low (41_init.md R104 to R106). -/
theorem recovery_rw_low {c : Config} (hk : c.k = defaultConstants) {a a' : BusAddr} {b : Byte}
    (h : Event.w a' b ∈ recoveryEvents c a c.k.backlightOff) : b &&& 0x02 = 0 := by
  simp only [recoveryEvents, nibbleEvents, delayEvent, hk, List.mem_append, List.mem_cons, Event.w.injEq,
    List.not_mem_nil, or_false, reduceCtorEq, false_or] at h
  rcases h with (((⟨-, rfl⟩ | ⟨-, rfl⟩) | ⟨-, rfl⟩ | ⟨-, rfl⟩) | ⟨-, rfl⟩ | ⟨-, rfl⟩) | ⟨-, rfl⟩ | ⟨-, rfl⟩ <;> rfl

section
variable {s u : State} {i : Instr} {st : List (State → State)} {plan : List Event} {put : State → State}

/-- A command other than `INIT` and the backlight commands sends byte transfers only, to `ADDR` and with `BL`. -/
theorem Effect.transferBytes (he : Effect s i u st plan put)
    (hinit : ∀ addr cols rows font, i ≠ .init addr cols rows font) (hon : i ≠ .blon) (hoff : i ≠ .bloff)
    {a' : BusAddr} {b : Byte} (h : Event.w a' b ∈ plan) :
    ∃ a bl m, s.Open a bl ∧ (m = 0 ∨ m = s.cfg.k.registerSelect) ∧ TransferByte s.cfg a bl m a' b := by
  cases he with
  | init => exact absurd rfl (hinit _ _ _ _)
  | blon => exact absurd rfl hon
  | bloff => exact absurd rfl hoff
  | printNothing => cases h
  | clear ho => exact ⟨_, _, _, ho, .inl rfl, mem_clearEvents h⟩
  | home ho => exact ⟨_, _, _, ho, .inl rfl, mem_homeEvents h⟩
  | print ho => exact ⟨_, _, _, ho, .inr rfl, mem_textEvents h⟩
  | sendchr ho => exact ⟨_, _, _, ho, .inr rfl, mem_byteEvents h⟩
  | mkchar ho =>
    obtain h | h := List.mem_append.mp h
    · exact ⟨_, _, _, ho, .inl rfl, mem_byteEvents h⟩
    · exact ⟨_, _, _, ho, .inr rfl, mem_textEvents h⟩
  | setcursor ho | dispoff ho | dispon ho | curoff ho | curon ho | blnkoff ho | blnkon ho | scrl ho | scrr ho | rtl ho
  | ltr ho | ascroff ho | ascron ho | sendcmd ho => exact ⟨_, _, _, ho, .inl rfl, mem_byteEvents h⟩

/-- With the default `K` no command plans a byte with the read/write bit (30_encoding.md R69). -/
theorem Effect.rw_low (he : Effect s i u st plan put) (hk : s.cfg.k = defaultConstants) (hs : s.SoundRegisters)
    {a' : BusAddr} {b : Byte} (h : Event.w a' b ∈ plan) : b &&& 0x02 = 0 := by
  have f := constantsWf_lines hs.wf
  have hrw : s.cfg.k.rwLine = 0x02 := by rw [hk]; rfl
  rw [← hrw]
  cases i with
  | init addr cols rows font =>
    cases he
    obtain h | h := mem_initEvents h
    · rw [hrw]; exact recovery_rw_low hk h
    · exact (h.rw_low_and_backlight f (.inl rfl) (.inl rfl)).1
  | blon | bloff =>
    cases he
    cases List.mem_singleton.mp h
    rw [hk]; rfl
  | _ =>
    obtain ⟨a, bl, m, ho, hmode, hbyte⟩ := he.transferBytes (by simp) (by simp) (by simp) h
    exact (hbyte.rw_low_and_backlight f (hs.backlight bl ho.bl) hmode).1

end

/-- Settles O48: the bytes of such a command are bytes of its transfers. -/
theorem backlightRidesOnEveryByte : Obligations.BacklightRidesOnEveryByte := by
  intro i s t a bl hk hinit hon hoff ha hb hbl h
  obtain ht | ⟨u, st, plan, put, es, he, ht, hes⟩ := exec_next_bytes h
  · exact ⟨[], by rw [ht, List.append_nil], by simp⟩
  · refine ⟨es, ht, fun a' b hm => ?_⟩
    obtain ⟨a₀, bl₀, m, ho, hmode, hbyte⟩ := he.transferBytes hinit hon hoff (hes a' b hm)
    cases ho.addr.symm.trans ha
    cases ho.bl.symm.trans hb
    exact ⟨hbyte.addr, (hbyte.rw_low_and_backlight (constantsWf_lines hk) hbl hmode).2⟩

/-- Settles O50: a step adds the bytes of a command or none. -/
theorem readWriteLineStaysLow : Obligations.ReadWriteLineStaysLow := by
  intro s t hs hk hold h a b hm
  cases (step_next h).2 with
  | still ht | illegal _ _ _ ht | truncated _ _ _ ht => rw [ht] at hm; exact hold a b hm
  | command _ i _ h =>
    obtain ht | ⟨u, st, plan, put, es, he, ht, hes⟩ := exec_next_bytes h
    · rw [ht] at hm; exact hold a b hm
    · rw [ht, List.mem_append, List.mem_append, or_or_or_comm] at hm
      exact hm.elim (hold a b) fun hnew => he.rw_low hk hs.soundRegisters (hes a b hnew)

end Sys2Proof.Machine

/-! The transport of bytes to the controller (family 40_transport.md). -/

namespace Sys2Proof.Machine

/-! ### One bus write -/

section
variable {s t : State} {a : BusAddr} {bl b : Byte}

/-- `transmit` with its two registers written is one bus write to `ADDR` with `BL` ORed in (40_transport.md R80). -/
theorem transmit_eq_busSend (ha : s.addr = some a) (hb : s.bl = some bl) (v : Byte) :
    transmit v s = busSend a (v ||| bl) s := by
  simp [transmit, readReg, ha, hb]

theorem busSend_success (h : s.sink.answer = .success) :
    busSend a b s = .done { s.record (.w a b) with port := some b, sink := s.sink.after 1 } := by
  simp [busSend, busWrite_success h]

theorem busSend_failure (h : s.sink.answer = .failure) :
    busSend a b s =
      .raised (.busTransportFailure b) { s.record (.wf a b) with port := none, sink := s.sink.after 1 } := by
  simp [busSend, busWrite_failure h]

/-- A micro-operation that ended without a fault has run its whole plan. -/
theorem BusRun.eq_emitted {plan : List Event} (h : BusRun plan s (.done t)) : t = s.emitted plan := by
  cases h with
  | ran => rfl

end

/-- Settles O13: the write is the bus write of `BL` ORed in, and the sink's answer selects how it ends. -/
theorem transmitOrsTheBacklight : Obligations.TransmitOrsTheBacklight := by
  intro v s a bl ha hb
  rw [transmit_eq_busSend ha hb]
  exact ⟨busSend_success, busSend_failure⟩

/-! ### The events of one byte (40_transport.md R84) -/

/-- A nibble with the strobe bit clear goes out as it is once the strobe falls (40_transport.md R82). -/
theorem nibbleEvents_of_strobe_clear {c : Config} {v : Byte} (h : v &&& c.k.en = 0) (a : BusAddr) (bl : Byte) :
    nibbleEvents c a bl v =
      [.w a (v ||| c.k.en ||| bl), delayEvent c .sEn, .w a (v ||| bl), delayEvent c .sSettle] := by
  rw [nibbleEvents, and_not_self h]

/-- A data nibble with mode bits `m` has the strobe bit clear (00_scope.md R8). -/
theorem data_mode_strobe_clear {k : Constants} (f : LineFacts k) {m : Byte} (hm : m = 0 ∨ m = k.registerSelect)
    (x : Byte) : ((x &&& 0xF0) ||| m) &&& k.en = 0 := by
  refine or_and_zero (data_and_line f.enData) ?_
  obtain rfl | rfl := hm
  · exact BitVec.zero_and
  · rw [BitVec.and_comm]; exact f.enRs

/-- The requested time of a byte is that of its two strobes (40_transport.md R84). -/
theorem requestedTime_byteEvents (c : Config) (a : BusAddr) (bl v m : Byte) :
    requestedTime (byteEvents c a bl v m) = 2 * (delayOf c.dly .sEn + delayOf c.dly .sSettle) := by
  simp only [byteEvents, nibbleEvents, delayEvent, requestedTime, requestedTime_append]
  omega

/-- Settles O15: a byte transfer without fault has run its plan, and its nibbles carry no strobe bit of their own. -/
theorem fourWriteProperty : Obligations.FourWriteProperty := by
  intro s t a bl v m hk ha hb hm h es
  have clear := data_mode_strobe_clear (constantsWf_lines hk) hm
  have hes : byteEvents s.cfg a bl v m = es := by
    rw [byteEvents, nibbleEvents_of_strobe_clear (clear v), nibbleEvents_of_strobe_clear (clear (v <<< 4))]
    rfl
  have ht : t = s.emitted (byteEvents s.cfg a bl v m) := BusRun.eq_emitted (h ▸ writeByte_run ha hb v m)
  refine ⟨?_, hes ▸ requestedTime_byteEvents s.cfg a bl v m⟩
  rw [ht, hes]
  rfl

/-! ### The sending commands (40_transport.md R90 to R92) -/

/-- Settles O16: with the floors met and every write accepted each of the two does its whole effect. -/
theorem sendsComplete : Obligations.SendsComplete := by
  intro s a bl v ho hd hs
  exact ⟨exec_of_effect (.sendcmd ho v) hd hs nofun nofun, exec_of_effect (.sendchr ho v) hd hs nofun nofun⟩

theorem textEvents_eq_flatMap (c : Config) (a : BusAddr) (bl : Byte) (text : List Byte) :
    textEvents c a bl text = text.flatMap fun b => byteEvents c a bl b c.k.registerSelect := by
  induction text with
  | nil => rfl
  | cons v vs ih => rw [textEvents, ih]; rfl

/-- Settles O17: `PRINT` does its whole effect, whose events are those of the text character by character. -/
theorem printCompletes : Obligations.PrintCompletes := by
  intro s a bl text ho hd hs
  rw [← textEvents_eq_flatMap]
  exact exec_of_effect (.print ho text) hd hs nofun nofun

/-! ### The register-select bit (40_transport.md R85, R86) -/

/-- The commands that send controller commands or a backlight byte and never a character: all but `INIT`, `MKCHAR`,
`PRINT` and `SENDCHR`. -/
def sendsNoCharacter : Instr → Bool
  | .init _ _ _ _ => false
  | .mkchar _ _ _ _ _ _ _ _ _ => false
  | .print _ => false
  | .sendchr _ => false
  | _ => true

/-- The backlight byte has the register-select bit clear (00_scope.md R8). -/
theorem backlight_select_clear {k : Constants} (f : LineFacts k) {bl : Byte}
    (hbl : bl = k.backlightOff ∨ bl = k.backlightOn) : bl &&& k.registerSelect = 0 := by
  obtain rfl | rfl := hbl
  · rw [f.off]; exact BitVec.zero_and
  · rw [BitVec.and_comm]; exact f.rsBl

/-- A byte of a command transfer has the register-select bit clear (40_transport.md R85). -/
theorem TransferByte.select_clear {c : Config} {a a' : BusAddr} {bl b : Byte} (h : TransferByte c a bl 0 a' b)
    (f : LineFacts c.k) (hbl : bl = c.k.backlightOff ∨ bl = c.k.backlightOn) : b &&& c.k.registerSelect = 0 := by
  rw [h.line f.rsData f.enRs BitVec.zero_and]
  exact backlight_select_clear f hbl

section
variable {s u : State} {i : Instr} {st : List (State → State)} {plan : List Event} {put : State → State}
  {a' : BusAddr} {b : Byte}

/-- Every byte of `SENDCHR` and `PRINT` has the register-select bit set (40_transport.md R86). -/
theorem Effect.select_set (he : Effect s i u st plan put) (f : LineFacts s.cfg.k)
    (hi : (∃ v, i = .sendchr v) ∨ ∃ text, i = .print text) (h : Event.w a' b ∈ plan) :
    b &&& s.cfg.k.registerSelect = s.cfg.k.registerSelect := by
  obtain ⟨v, rfl⟩ | ⟨text, rfl⟩ := hi
  · cases he with
    | sendchr => exact (mem_byteEvents h).select f.enRs
  · cases he with
    | print => exact (mem_textEvents h).select f.enRs
    | printNothing => cases h

/-- A command that sends no character sends bytes of command transfers under `BL`, or one backlight byte. -/
theorem Effect.select_clear (he : Effect s i u st plan put) (f : LineFacts s.cfg.k)
    (hbl : ∀ bl, s.bl = some bl → bl = s.cfg.k.backlightOff ∨ bl = s.cfg.k.backlightOn)
    (hi : sendsNoCharacter i = true) (h : Event.w a' b ∈ plan) : b &&& s.cfg.k.registerSelect = 0 := by
  cases he with
  | init | mkchar | print | printNothing | sendchr => cases hi
  | bloff => cases List.mem_singleton.mp h; exact backlight_select_clear f (.inl rfl)
  | blon => cases List.mem_singleton.mp h; exact backlight_select_clear f (.inr rfl)
  | clear ho => exact (mem_clearEvents h).select_clear f (hbl _ ho.bl)
  | home ho => exact (mem_homeEvents h).select_clear f (hbl _ ho.bl)
  | setcursor ho | dispoff ho | dispon ho | curoff ho | curon ho | blnkoff ho | blnkon ho | scrl ho | scrr ho | rtl ho
  | ltr ho | ascroff ho | ascron ho | sendcmd ho => exact (mem_byteEvents h).select_clear f (hbl _ ho.bl)

end

/-- Settles O49: the bytes of a command are bytes of its plan, and the plan's transfers all have the same mode bits. -/
theorem registerSelectTellsDataFromCommands : Obligations.RegisterSelectTellsDataFromCommands := by
  intro i s t bl hk hb hbl h
  have f := constantsWf_lines hk
  obtain ht | ⟨u, st, plan, put, es, he, ht, hes⟩ := exec_next_bytes h
  · exact ⟨[], by rw [ht, List.append_nil], by simp, by simp⟩
  · refine ⟨es, ht, fun hi a b hm => he.select_set f hi (hes a b hm), fun hi a b hm => ?_⟩
    have hnone : sendsNoCharacter i = true := by
      obtain ⟨v, rfl⟩ | rfl | rfl | ⟨row, col, rfl⟩ | hlist := hi
      · rfl
      · rfl
      · rfl
      · rfl
      · exact List.all_eq_true.mp rfl i hlist
    exact he.select_clear f (fun bl' hb' => by cases hb.symm.trans hb'; exact hbl) hnone (hes a b hm)

end Sys2Proof.Machine

/-! The initialization sequence (family 41_init.md). -/

namespace Sys2Proof.Machine

/-! ### An `INIT` that meets no fault (41_init.md R100, R102) -/

/-- `resolve` with its row bound read as a number (41_init.md R102). -/
theorem resolve_eq (k : Constants) (rows font : Byte) : resolve k rows font =
    k.mode4 ||| (if 1 < rows.toNat then k.line2 else k.line1)
      ||| (if font ≠ 0 ∧ rows = 1 then k.dots10 else k.dots8) := by
  simp [resolve, BitVec.ult]

/-- `INIT` with a row to put the cursor in has no operand fault (41_init.md R109). -/
theorem init_no_operandFault {s : State} {addr : BusAddr} {cols rows font : Byte} (hrows : rows ≠ 0) (f : SeqFault) :
    ¬ OperandFault s (.init addr cols rows font) f := by
  rintro ⟨⟩
  next h => rw [(rowBeyond_zero rows).mpr hrows] at h; cases h

/-- Settles O18: with a row, the floors met and every write accepted, `INIT` does its whole effect. -/
theorem initCompletes : Obligations.InitCompletes := by
  intro s addr cols rows font hrows hd hs
  rw [← resolve_eq]
  exact exec_of_effect (.init addr cols rows font) hd hs (init_no_operandFault hrows) nofun

/-! ### An `INIT` with no rows (41_init.md R109, R115) -/

section
variable {s u : State} {p : List Event} {op : State → Micro} {a : BusAddr} {bl func : Byte}

/-- Under the premises P3 and P4 a bus-only statement is followed by the next one. -/
theorem BusRun.runSeq_of_good (h : BusRun p s (op s)) (hd : s.DelaysMeetFloors) (hs : s.SinkClean)
    (ops : List (State → Micro)) : runSeq (op :: ops) s = runSeq ops (s.emitted p) := by
  rw [runSeq, h.of_good hd hs, Micro.andThen]

/-- `clearOp` on a display with no rows sends its first half and then raises (42_display_control.md R120, R122). -/
theorem clearOp_without_rows (ha : s.addr = some a) (hb : s.bl = some bl) (hr : s.rows = some 0)
    (hd : s.DelaysMeetFloors) (hs : s.SinkClean) :
    clearOp s = .raised (.invalidRowIndex 0)
      (s.emitted (commandEvents s.cfg a bl s.cfg.k.clearDisplay ++ [delayEvent s.cfg .sClr])) := by
  rw [clearOp, (sendCommand_run ha hb _).runSeq_of_good hd hs,
    (delay_run .sClr (s.emitted _)).runSeq_of_good hd (hs.emitted _), emitted_emitted, runSeq,
    setCursorOp_bad (s := s.emitted _) hr (.inr rfl)]
  rfl

/-- The events of an `INIT` up to the first half of its step 7 (41_init.md R103 to R109). -/
def noRowsEvents (c : Config) (a : BusAddr) (bl func : Byte) : List Event :=
  recoveryEvents c a bl ++ commandEvents c a bl (c.k.functionSet ||| func)
    ++ commandEvents c a bl (c.k.displayControl ||| c.k.displayOn)
    ++ commandEvents c a bl c.k.clearDisplay ++ [delayEvent c .sClr]

/-- The steps of `INIT` on a display with no rows: steps 1 to 6 run to their end, `CTRL` is written, and step 7 raises at
its cursor (41_init.md R109). -/
theorem initSteps_without_rows (ha : u.addr = some a) (hb : u.bl = some bl) (hf : u.func = some func)
    (hr : u.rows = some 0) (hd : u.DelaysMeetFloors) (hs : u.SinkClean) :
    initSteps u = .raised (.invalidRowIndex 0)
      ((u.emitted (noRowsEvents u.cfg a bl func)).putCtrl u.cfg.k.displayOn) := by
  rw [initSteps, (initRecovery_run ha hb).runSeq_of_good hd hs,
    (initFunctionSet_run (u := u.emitted _) ha hb hf).runSeq_of_good hd (hs.emitted _), emitted_emitted,
    (sendCommand_run (s := u.emitted _) ha hb _).runSeq_of_good hd (hs.emitted _), emitted_emitted]
  simp only [runSeq, commit, Micro.andThen]
  rw [clearOp_without_rows (s := (u.emitted _).putCtrl _) ha hb hr hd (hs.emitted _), putCtrl_emitted,
    emitted_emitted, ← List.append_assoc]
  rfl

end

/-- Settles O31: from the start of `INIT` with no rows the steps raise, and the fault entry ends the command. -/
theorem initWithoutRowsHalts : Obligations.InitWithoutRowsHalts := by
  intro s addr cols font hd hs
  have hsteps := initSteps_without_rows (u := s.initStart addr cols 0 font) rfl rfl rfl rfl hd hs
  exact congrArg (finish 5) hsteps

/-! ### However an `INIT` ends (41_init.md R101, R115) -/

/-- What the session and flag registers hold in `v`, inside or at the end of an `INIT` started in `s`: the operands of
its start, and in the four registers it writes later the new value or the one of `s`. -/
structure InitRegisters (addr : BusAddr) (cols rows font : Byte) (s v : State) : Prop where
  start : v.addr = some addr ∧ v.cols = some cols ∧ v.rows = some rows ∧ v.bl = some s.cfg.k.backlightOff ∧
    v.func = some (resolve s.cfg.k rows font)
  ctrl : v.ctrl = some s.cfg.k.displayOn ∨ v.ctrl = s.ctrl
  mode : v.mode = some s.cfg.k.entryLeft ∨ v.mode = s.mode
  cursor : (v.crow = some 0 ∧ v.ccol = some 0) ∨ (v.crow = s.crow ∧ v.ccol = s.ccol)

section
variable {addr : BusAddr} {cols rows font : Byte} {s t v : State}

theorem InitRegisters.takeFault (h : InitRegisters addr cols rows font s v) (f : SeqFault) :
    InitRegisters addr cols rows font s (v.takeFault f) := { h with }

theorem InitRegisters.recordViolation (h : InitRegisters addr cols rows font s v) (site : Site) :
    InitRegisters addr cols rows font s (v.recordViolation site) := { h with }

/-- Wherever an `INIT` can stop, it has written its start and none, one or more of its later registers. -/
theorem initStages_registers {g : State → State} (hg : g ∈ initStages s.cfg.k) (es : List Event) :
    InitRegisters addr cols rows font s (g ((s.initStart addr cols rows font).emitted es)) := by
  simp only [initStages, List.mem_cons, List.not_mem_nil, or_false] at hg
  obtain rfl | rfl | rfl | rfl := hg
  · exact ⟨⟨rfl, rfl, rfl, rfl, rfl⟩, .inr rfl, .inr rfl, .inr ⟨rfl, rfl⟩⟩
  · exact ⟨⟨rfl, rfl, rfl, rfl, rfl⟩, .inl rfl, .inr rfl, .inr ⟨rfl, rfl⟩⟩
  · exact ⟨⟨rfl, rfl, rfl, rfl, rfl⟩, .inl rfl, .inr rfl, .inl ⟨rfl, rfl⟩⟩
  · exact ⟨⟨rfl, rfl, rfl, rfl, rfl⟩, .inl rfl, .inl rfl, .inl ⟨rfl, rfl⟩⟩

/-- However an `INIT` ends, it has ended at the end of its sequence or at one of its stops (41_init.md R115). -/
theorem exec_init_registers (h : exec (.init addr cols rows font) s = .next t) :
    InitRegisters addr cols rows font s t := by
  cases exec_next h with
  | notInitialized _ hinit _ => exact absurd rfl (hinit _ _ _ _)
  | operandFirst _ hfirst _ _ => cases hfirst
  | ran he _ _ ht => cases he; rw [ht]; exact ⟨⟨rfl, rfl, rfl, rfl, rfl⟩, .inl rfl, .inl rfl, .inl ⟨rfl, rfl⟩⟩
  | busFailed he g _ _ _ _ hg _ _ _ ht => cases he; rw [ht]; exact (initStages_registers hg _).takeFault _
  | tooShort he g _ _ site hg _ _ _ ht =>
    cases he; rw [ht]; exact ((initStages_registers hg _).recordViolation site).takeFault _
  | operand he g _ _ _ hg _ _ _ ht => cases he; rw [ht]; exact (initStages_registers hg _).takeFault _

/-- An `INIT` opens a session and completes, or takes one fault and leaves no session open. -/
theorem exec_init_ending (h : exec (.init addr cols rows font) s = .next t) :
    (t.inited = true ∧ Completed (.init addr cols rows font) s t) ∨ (t.inited = false ∧ ∃ f, TookFault f s t) := by
  cases hi : t.inited with
  | true =>
    obtain ⟨-, -, rfl⟩ := exec_init_open h hi
    exact .inl ⟨rfl, (Effect.init addr cols rows font).completed⟩
  | false =>
    cases exec_ending h with
    | whole he _ _ ht =>
      rw [ht, advance_inited, he.put_emitted, emitted_inited, he.put_inited] at hi
      cases hi
    | @stopped f v hv ht => exact .inr ⟨rfl, f, ht ▸ hv.tookFault⟩

end

/-- Settles O32: the registers an `INIT` leaves, and its two ends. -/
theorem initFaultLeavesNoSession : Obligations.InitFaultLeavesNoSession := by
  intro s t addr cols rows font h
  obtain ⟨⟨haddr, hcols, hrows, hbl, hfunc⟩, hctrl, hmode, hcursor⟩ := exec_init_registers h
  exact ⟨haddr, hcols, hrows, hbl, hfunc, exec_init_ending h, hctrl, hmode, hcursor⟩

/-! ### The events of a successful `INIT` (41_init.md R113) -/

section
variable (c : Config) (a : BusAddr) (bl v func : Byte)

/-- `n(x)` of 41_init.md R113: with the backlight off a nibble goes out with the strobe set, then as it is. -/
theorem nibbleEvents_backlight_off {c : Config} {v : Byte} (f : LineFacts c.k) (hv : v &&& c.k.en = 0) :
    nibbleEvents c a c.k.backlightOff v =
      [.w a (v ||| c.k.en), .d .sEn c.dly.en, .w a v, .d .sSettle c.dly.settle] := by
  simp [nibbleEvents_of_strobe_clear hv, f.off, delayEvent, delayOf]

/-- `c(x)` of 41_init.md R113: a command goes out as its two nibbles. -/
theorem commandEvents_eq_nibbles :
    commandEvents c a bl v = nibbleEvents c a bl (v &&& 0xF0) ++ nibbleEvents c a bl ((v <<< 4) &&& 0xF0) := by
  simp [commandEvents, byteEvents]

/-- The step-level delays of a successful `INIT`, in order (43_timing_validator.md R155). -/
theorem initEvents_stepDelays :
    (initEvents c a func).filter Event.isStepDelay =
      [delayEvent c .sPwr, delayEvent c .sRst, delayEvent c .sI1, delayEvent c .sI2, delayEvent c .sI3,
        delayEvent c .sClr, delayEvent c .sHome] := rfl

/-- How many bus writes and how many delays a successful `INIT` makes (41_init.md R113). -/
theorem initEvents_lengths :
    ((initEvents c a func).filter Event.isWrite).length = 32 ∧
      ((initEvents c a func).filter fun e => !e.isWrite).length = 37 ∧ (initEvents c a func).length = 69 :=
  ⟨rfl, rfl, rfl⟩

/-- Each nibble requests one strobe delay and one settling delay (40_transport.md R82). -/
theorem nibbleEvents_delays : (nibbleEvents c a bl v).count (delayEvent c .sEn) = 1 ∧
    (nibbleEvents c a bl v).count (delayEvent c .sSettle) = 1 := by
  simp [nibbleEvents, delayEvent]

/-- A successful `INIT` sends three nibbles and six commands of two (41_init.md R113). -/
theorem initEvents_nibbleDelays : (initEvents c a func).count (delayEvent c .sEn) = 15 ∧
    (initEvents c a func).count (delayEvent c .sSettle) = 15 := by
  have hn := nibbleEvents_delays c a c.k.backlightOff
  simp only [initEvents, recoveryEvents, clearEvents, homeEvents, commandEvents_eq_nibbles, List.count_append, hn]
  simp [delayEvent]

/-- The requested time of a successful `INIT` (43_timing_validator.md R158). -/
theorem requestedTime_initEvents : requestedTime (initEvents c a func) =
    c.dly.pwr + c.dly.rst + c.dly.i1 + c.dly.i2 + c.dly.i3 + c.dly.clr + c.dly.home
      + 15 * (c.dly.en + c.dly.settle) := by
  simp only [initEvents, recoveryEvents, clearEvents, homeEvents, commandEvents, requestedTime_append,
    requestedTime_byteEvents, requestedTime, nibbleEvents, delayEvent, delayOf]
  omega

end

/-- Settles O19: the trace is extended by the planned events, whose nibbles hold no strobe bit of their own. -/
theorem initSequenceAndCounts : Obligations.InitSequenceAndCounts := by
  intro s t a cols rows font func hk h8 h4 h hi hfunc n c es
  have f := constantsWf_lines hk
  obtain ⟨-, -, rfl⟩ := exec_init_open h hi
  obtain rfl : resolve s.cfg.k rows font = func := Option.some.inj hfunc
  have hn : ∀ x, x &&& s.cfg.k.en = 0 → nibbleEvents s.cfg a s.cfg.k.backlightOff x = n x := fun x hx =>
    nibbleEvents_backlight_off a f hx
  have hc : ∀ x, commandEvents s.cfg a s.cfg.k.backlightOff x = c x := fun x => by
    rw [commandEvents_eq_nibbles, hn _ (data_and_line f.enData), hn _ (data_and_line f.enData)]
  have hes : initEvents s.cfg a (resolve s.cfg.k rows font) = es := by
    simp only [initEvents, recoveryEvents, clearEvents, homeEvents, hc, hn _ h8, hn _ h4, es]
    simp [f.off, delayEvent, delayOf]
  rw [← hes]
  obtain ⟨hw, hd, hlen⟩ := initEvents_lengths s.cfg a (resolve s.cfg.k rows font)
  obtain ⟨hen, hsettle⟩ := initEvents_nibbleDelays s.cfg a (resolve s.cfg.k rows font)
  refine ⟨rfl, hw, hd, hlen, by rw [initEvents_stepDelays]; rfl, hen, hsettle, fun hdly => ?_⟩
  rw [requestedTime_initEvents, hdly]
  rfl

end Sys2Proof.Machine

/-! Display control (family 42_display_control.md). -/

namespace Sys2Proof.Machine

/-! ### Operands read as numbers (42_display_control.md R122, R139) -/

/-- A row is beyond the display when its number is not below `ROWS` (42_display_control.md R122). -/
theorem rowBeyond_iff_le {row rows : Byte} : rowBeyond row rows = true ↔ rows.toNat ≤ row.toNat := by
  simp [rowBeyond, BitVec.ule]

/-- A row from 4 on has no offset (00_scope.md R8). -/
theorem rowOffset_eq_none {k : Constants} {row : Byte} (h : 4 ≤ row.toNat) : rowOffset k row = none := by
  cases hoff : rowOffset k row with
  | none => rfl
  | some offset =>
    have hlt : row.toNat < 4 := by simpa [BitVec.ult] using rowOffset_some_lt hoff
    omega

/-- The row offsets of `K` are those of the rows 0 to 3 (00_scope.md R8). -/
theorem rowOffset_of_mem {k : Constants} {row offset : Byte}
    (h : (row, offset) ∈ [((0 : Byte), k.rowOff0), (1, k.rowOff1), (2, k.rowOff2), (3, k.rowOff3)]) :
    rowOffset k row = some offset := by
  simp only [List.mem_cons, Prod.mk.injEq, List.not_mem_nil, or_false] at h
  obtain ⟨rfl, rfl⟩ | ⟨rfl, rfl⟩ | ⟨rfl, rfl⟩ | ⟨rfl, rfl⟩ := h <;> rfl

theorem slotBeyond_iff_lt {slot : Byte} : slotBeyond slot = true ↔ 7 < slot.toNat := by
  simp [slotBeyond, BitVec.ult]

/-! ### The commands that complete (42_display_control.md R120 to R139) -/

theorem clear_no_operandFault {s : State} {rows : Byte} (hr : s.rows = some rows) (hrows : rows ≠ 0) (f : SeqFault) :
    ¬ OperandFault s .clear f := by
  rintro ⟨⟩
  next hr' hrow =>
    obtain rfl := Option.some.inj (hr.symm.trans hr')
    rw [(rowBeyond_zero rows).mpr hrows] at hrow
    cases hrow

/-- Settles O21: with the floors met and every write accepted each of the two does its whole effect. -/
theorem clearAndHomeComplete : Obligations.ClearAndHomeComplete := by
  intro s a bl rows ho hd hs
  refine ⟨fun hr hrows => ?_, exec_of_effect (.home ho) hd hs nofun nofun⟩
  have haddress : 0 + s.cfg.k.rowOff0 = s.cfg.k.rowOff0 := BitVec.zero_add _
  rw [haddress]
  exact exec_of_effect (.clear ho) hd hs (clear_no_operandFault hr hrows) fun _ => by simp [hr]

/-- `SETCURSOR` on a row with an offset and inside the display has no operand fault (42_display_control.md R122). -/
theorem setcursor_no_operandFault {s : State} {row col rows offset : Byte} (hr : s.rows = some rows)
    (hoff : rowOffset s.cfg.k row = some offset) (hrow : rowBeyond row rows = false) (f : SeqFault) :
    ¬ OperandFault s (.setcursor row col) f := by
  rintro ⟨⟩
  next hr' hbad =>
    obtain rfl := Option.some.inj (hr.symm.trans hr')
    simp [hoff, hrow] at hbad

/-- Settles O22: an accepted row does the whole effect of `SETCURSOR`, whose address is a sum of bytes and so wraps. -/
theorem setcursorCompletes : Obligations.SetcursorCompletes := by
  intro s a bl row col rows offset ho hd hs hr hlt hmem
  have hoff := rowOffset_of_mem hmem
  have hrow : rowBeyond row rows = false := by
    rw [← Bool.not_eq_true, rowBeyond_iff_le]
    omega
  have haddress : BitVec.ofNat 8 ((col.toNat + offset.toNat) % 256) = col + offset :=
    BitVec.eq_of_toNat_eq (by simp)
  rw [haddress]
  exact exec_of_effect (.setcursor ho hr hoff hrow) hd hs (setcursor_no_operandFault hr hoff hrow) nofun

/-- Settles O23: each of the six does its whole effect, which writes the value it has sent. -/
theorem ctrlTogglesComplete : Obligations.CtrlTogglesComplete := by
  intro s a bl old new i ho hd hs hc hi
  simp only [List.mem_cons, Prod.mk.injEq, List.not_mem_nil, or_false] at hi
  obtain ⟨rfl, rfl⟩ | ⟨rfl, rfl⟩ | ⟨rfl, rfl⟩ | ⟨rfl, rfl⟩ | ⟨rfl, rfl⟩ | ⟨rfl, rfl⟩ := hi
  · exact exec_of_effect (.dispon ho hc) hd hs nofun nofun
  · exact exec_of_effect (.dispoff ho hc) hd hs nofun nofun
  · exact exec_of_effect (.curon ho hc) hd hs nofun nofun
  · exact exec_of_effect (.curoff ho hc) hd hs nofun nofun
  · exact exec_of_effect (.blnkon ho hc) hd hs nofun nofun
  · exact exec_of_effect (.blnkoff ho hc) hd hs nofun nofun

/-- Settles O24: each of the four does its whole effect, which writes the value it has sent. -/
theorem modeTogglesComplete : Obligations.ModeTogglesComplete := by
  intro s a bl old new i ho hd hs hm hi
  simp only [List.mem_cons, Prod.mk.injEq, List.not_mem_nil, or_false] at hi
  obtain ⟨rfl, rfl⟩ | ⟨rfl, rfl⟩ | ⟨rfl, rfl⟩ | ⟨rfl, rfl⟩ := hi
  · exact exec_of_effect (.ltr ho hm) hd hs nofun nofun
  · exact exec_of_effect (.rtl ho hm) hd hs nofun nofun
  · exact exec_of_effect (.ascron ho hm) hd hs nofun nofun
  · exact exec_of_effect (.ascroff ho hm) hd hs nofun nofun

/-- Settles O25: each of the two does its whole effect, which writes no register. -/
theorem scrollsComplete : Obligations.ScrollsComplete := by
  intro s a bl ho hd hs
  exact ⟨exec_of_effect (.scrl ho) hd hs nofun nofun, exec_of_effect (.scrr ho) hd hs nofun nofun⟩

/-- Settles O27: a slot its policy lets run raises no operand fault, and the glyph rows go out as a text does. -/
theorem mkcharCompletes : Obligations.MkcharCompletes := by
  intro s a bl slot p0 p1 p2 p3 p4 p5 p6 p7 ho hd hs hslot
  have hrun : ¬ (s.cfg.slotPolicy = .reject ∧ slotBeyond slot = true) := by
    rw [slotBeyond_iff_lt]
    rintro ⟨hpol, hbeyond⟩
    obtain hmask | hle := hslot
    · rw [hpol] at hmask; cases hmask
    · omega
  have hno : ∀ f, ¬ OperandFault s (.mkchar slot p0 p1 p2 p3 p4 p5 p6 p7) f := by
    rintro f ⟨⟩
    exact hrun ⟨‹_›, ‹_›⟩
  rw [← textEvents_eq_flatMap]
  exact exec_of_effect (.mkchar ho hrun) hd hs hno nofun

/-! ### The backlight commands, and a row out of range (42_display_control.md R122, R137, R138) -/

/-- In an open session a command is its body with the end of R62. -/
theorem sessionCommand_inited {s : State} (hi : s.inited = true) (i : Instr) (body : State → Micro) :
    sessionCommand i body s = finish (lengthOf i) (body s) :=
  if_pos hi

/-- A backlight command is one bus write and then the register write (42_display_control.md R137). -/
theorem setBacklight_eq_busSend {s : State} {a : BusAddr} (ha : s.addr = some a) (new : Byte) :
    setBacklight new s = (busSend a (0 ||| new) s).andThen (Sys2Proof.Machine.commit (State.putBl new)) := by
  unfold setBacklight readReg
  rw [ha]
  rfl

/-- Settles O26: the sink's answer to the one bus write selects whether the register write follows. -/
theorem backlightCommandsWriteOnce : Obligations.BacklightCommandsWriteOnce := by
  intro s a new i hi ha hmem
  have hexec : exec i s =
      finish 1 ((busSend a (0 ||| new) s).andThen (Sys2Proof.Machine.commit (State.putBl new))) := by
    rw [← setBacklight_eq_busSend ha]
    simp only [List.mem_cons, Prod.mk.injEq, List.not_mem_nil, or_false] at hmem
    obtain ⟨rfl, rfl⟩ | ⟨rfl, rfl⟩ := hmem <;> exact sessionCommand_inited hi _ _
  rw [hexec]
  constructor
  · intro hanswer
    rw [busSend_success hanswer]
    rfl
  · intro hanswer
    rw [busSend_failure hanswer]
    rfl

/-- Settles O29: a row of 4 or more has no offset and one at or beyond `ROWS` fails the bound, both before any event. -/
theorem rowOutOfRangeHalts : Obligations.RowOutOfRangeHalts := by
  intro s row col rows hi hr hout
  have hbad : rowOffset s.cfg.k row = none ∨ rowBeyond row rows = true :=
    hout.imp rowOffset_eq_none rowBeyond_iff_le.mpr
  refine (sessionCommand_inited hi (.setcursor row col) (setCursorOp row col)).trans ?_
  rw [setCursorOp_bad hr hbad]
  rfl

/-! ### What a command leaves alone (42_display_control.md R136; 60_exceptions.md R176) -/

/-- Settles O38: a command that ran its whole effect leaves `HALT` as it was, so an aborted one stopped before its
register write. -/
theorem abortedCommandKeepsRegisters : Obligations.AbortedCommandKeepsRegisters := by
  intro i s t hinit h hs ht
  obtain ⟨u, st, plan, put, he, rfl, -, rfl⟩ | ⟨ha, hco, hr, hf, hrow, hcol, hb, hc, hm, hi, -⟩ :=
    exec_plain_next hinit h
  · rw [he.completed.halt, hs] at ht
    cases ht
  · exact ⟨⟨ha, hco, hr, hf⟩, ⟨hrow, hcol⟩, hb, hc, hm, hi⟩

/-- The toggles of `CTRL`, each with the flag it names (42_display_control.md R124 to R129). -/
def ctrlToggles (k : Constants) : List (Instr × Byte) :=
  [(.dispon, k.displayOn), (.dispoff, k.displayOn), (.curon, k.cursorOn), (.curoff, k.cursorOn),
    (.blnkon, k.blinkOn), (.blnkoff, k.blinkOn)]

/-- The toggles of `MODE`, each with the flag it names (42_display_control.md R132 to R135). -/
def modeToggles (k : Constants) : List (Instr × Byte) :=
  [(.ltr, k.entryLeft), (.rtl, k.entryLeft), (.ascron, k.autoscroll), (.ascroff, k.autoscroll)]

/-- Setting a flag changes no other bit. -/
theorem or_and_not_self (x flag : Byte) : (x ||| flag) &&& ~~~flag = x &&& ~~~flag := by
  ext n hn
  simp only [BitVec.getElem_and, BitVec.getElem_or, BitVec.getElem_not]
  cases flag[n] <;> simp

/-- Clearing a flag changes no other bit. -/
theorem and_not_and_not_self (x flag : Byte) : (x &&& ~~~flag) &&& ~~~flag = x &&& ~~~flag := by
  rw [BitVec.and_assoc, BitVec.and_self]

section
variable {i : Instr} {flag : Byte} {s t u : State} {st : List (State → State)} {plan : List Event}
  {put : State → State}

theorem ctrlToggles_not_init {k : Constants} (hi : (i, flag) ∈ ctrlToggles k) (addr : BusAddr) (cols rows font : Byte) :
    i ≠ .init addr cols rows font := by
  rintro rfl
  simp [ctrlToggles] at hi

theorem modeToggles_not_init {k : Constants} (hi : (i, flag) ∈ modeToggles k) (addr : BusAddr) (cols rows font : Byte) :
    i ≠ .init addr cols rows font := by
  rintro rfl
  simp [modeToggles] at hi

/-- A toggle of `CTRL` writes the old value with at most its own flag changed (42_display_control.md R136). -/
theorem Effect.ctrl_flag (he : Effect s i u st plan put) (hi : (i, flag) ∈ ctrlToggles s.cfg.k) :
    ∃ old new, s.ctrl = some old ∧ put = State.putCtrl new ∧ new &&& ~~~flag = old &&& ~~~flag := by
  cases he with
  | dispon _ hc | curon _ hc | blnkon _ hc =>
    obtain rfl : flag = _ := by simpa [ctrlToggles] using hi
    exact ⟨_, _, hc, rfl, or_and_not_self _ _⟩
  | dispoff _ hc | curoff _ hc | blnkoff _ hc =>
    obtain rfl : flag = _ := by simpa [ctrlToggles] using hi
    exact ⟨_, _, hc, rfl, and_not_and_not_self _ _⟩
  | _ => simp [ctrlToggles] at hi

/-- A toggle of `MODE` writes the old value with at most its own flag changed (42_display_control.md R136). -/
theorem Effect.mode_flag (he : Effect s i u st plan put) (hi : (i, flag) ∈ modeToggles s.cfg.k) :
    ∃ old new, s.mode = some old ∧ put = State.putMode new ∧ new &&& ~~~flag = old &&& ~~~flag := by
  cases he with
  | ltr _ hm | ascron _ hm =>
    obtain rfl : flag = _ := by simpa [modeToggles] using hi
    exact ⟨_, _, hm, rfl, or_and_not_self _ _⟩
  | rtl _ hm | ascroff _ hm =>
    obtain rfl : flag = _ := by simpa [modeToggles] using hi
    exact ⟨_, _, hm, rfl, and_not_and_not_self _ _⟩
  | _ => simp [modeToggles] at hi

/-- However a toggle of `CTRL` ends, it leaves the other flags and registers. -/
theorem exec_ctrlToggle_frame (h : exec i s = .next t) (hi : (i, flag) ∈ ctrlToggles s.cfg.k) :
    KeepsCursor s t ∧ t.bl = s.bl ∧ t.mode = s.mode ∧
      t.ctrl.map (· &&& ~~~flag) = s.ctrl.map (· &&& ~~~flag) := by
  obtain ⟨u, st, plan, put, he, rfl, -, rfl⟩ | ⟨-, -, -, -, hrow, hcol, hb, hc, hm, -, -⟩ :=
    exec_plain_next (ctrlToggles_not_init hi) h
  · obtain ⟨old, new, hold, rfl, hflag⟩ := he.ctrl_flag hi
    exact ⟨⟨rfl, rfl⟩, rfl, rfl, by simp [hold, hflag]⟩
  · exact ⟨⟨hrow, hcol⟩, hb, hm, by rw [hc]⟩

/-- However a toggle of `MODE` ends, it leaves the other flags and registers. -/
theorem exec_modeToggle_frame (h : exec i s = .next t) (hi : (i, flag) ∈ modeToggles s.cfg.k) :
    KeepsCursor s t ∧ t.bl = s.bl ∧ t.ctrl = s.ctrl ∧
      t.mode.map (· &&& ~~~flag) = s.mode.map (· &&& ~~~flag) := by
  obtain ⟨u, st, plan, put, he, rfl, -, rfl⟩ | ⟨-, -, -, -, hrow, hcol, hb, hc, hm, -, -⟩ :=
    exec_plain_next (modeToggles_not_init hi) h
  · obtain ⟨old, new, hold, rfl, hflag⟩ := he.mode_flag hi
    exact ⟨⟨rfl, rfl⟩, rfl, rfl, by simp [hold, hflag]⟩
  · exact ⟨⟨hrow, hcol⟩, hb, hc, by rw [hm]⟩

/-- However a backlight command ends, it writes no register but `BL` (42_display_control.md R137, R138). -/
theorem exec_backlight_frame (h : exec i s = .next t) (hi : i = .blon ∨ i = .bloff) :
    KeepsCursor s t ∧ t.ctrl = s.ctrl ∧ t.mode = s.mode := by
  obtain ⟨u, st, plan, put, he, rfl, -, rfl⟩ | ⟨-, -, -, -, hrow, hcol, -, hc, hm, -, -⟩ :=
    exec_plain_next (by rintro _ _ _ _ rfl; simp at hi) h
  · obtain rfl | rfl := hi <;> cases he <;> exact ⟨⟨rfl, rfl⟩, rfl, rfl⟩
  · exact ⟨⟨hrow, hcol⟩, hc, hm⟩

/-- However `CLEAR` or `SETCURSOR` ends, it writes no flag register and not `BL` (42_display_control.md R120, R122). -/
theorem exec_cursor_frame (h : exec i s = .next t) (hi : i = .clear ∨ ∃ row col, i = .setcursor row col) :
    t.bl = s.bl ∧ t.ctrl = s.ctrl ∧ t.mode = s.mode := by
  obtain ⟨u, st, plan, put, he, rfl, -, rfl⟩ | ⟨-, -, -, -, -, -, hb, hc, hm, -, -⟩ :=
    exec_plain_next (by rintro _ _ _ _ rfl; simp at hi) h
  · obtain rfl | ⟨row, col, rfl⟩ := hi <;> cases he <;> exact ⟨rfl, rfl, rfl⟩
  · exact ⟨hb, hc, hm⟩

end

/-- Settles O43: a toggle that completes writes its register with at most its flag changed, one that stops writes none. -/
theorem togglesFrame : Obligations.TogglesFrame := by
  intro i flag s t h
  constructor
  · intro hi
    obtain ⟨hgeo, hin⟩ := onlyInitWritesGeometry i s t (ctrlToggles_not_init hi) h
    obtain ⟨hcur, hb, hm, hc⟩ := exec_ctrlToggle_frame h hi
    exact ⟨hgeo, hcur, exec_keepsInputs h, hb, hm, hin, hc, exec_ended h⟩
  · intro hi
    obtain ⟨hgeo, hin⟩ := onlyInitWritesGeometry i s t (modeToggles_not_init hi) h
    obtain ⟨hcur, hb, hc, hm⟩ := exec_modeToggle_frame h hi
    exact ⟨hgeo, hcur, exec_keepsInputs h, hb, hc, hin, hm, exec_ended h⟩

/-- Settles O44: the final register write of each command is the only one it makes, whether it comes to it or not. -/
theorem backlightAndCursorFrame : Obligations.BacklightAndCursorFrame := by
  intro i s t h
  constructor
  · intro hi
    obtain ⟨hgeo, hin⟩ := onlyInitWritesGeometry i s t (by rintro _ _ _ _ rfl; simp at hi) h
    obtain ⟨hcur, hc, hm⟩ := exec_backlight_frame h hi
    exact ⟨hgeo, hcur, exec_keepsInputs h, hc, hm, hin, exec_ended h⟩
  · intro hi
    obtain ⟨hgeo, hin⟩ := onlyInitWritesGeometry i s t (by rintro _ _ _ _ rfl; simp at hi) h
    obtain ⟨hb, hc, hm⟩ := exec_cursor_frame h hi
    exact ⟨hgeo, exec_keepsInputs h, hb, hc, hm, hin, exec_ended h⟩

/-! ### `CLEAR` twice (42_display_control.md R120) -/

/-- A `CLEAR` that leaves the block running has sent its events and homed the cursor. -/
theorem exec_clear_unfaulted {s t : State} (h : exec .clear s = .next t) (ht : t.halt = false) :
    ∃ a bl, s.Open a bl ∧ t = ((s.emitted (clearEvents s.cfg a bl)).putCursor 0 0).advance 1 := by
  obtain ⟨u, st, plan, put, he, ht⟩ := exec_unfaulted h ht
  cases he with
  | clear ho => exact ⟨_, _, ho, ht⟩

/-- A command that leaves the block running started in a running block (10_state.md R20). -/
theorem exec_started_running {i : Instr} {s t : State} (h : exec i s = .next t) (ht : t.halt = false) :
    s.halt = false := by
  obtain hc | ⟨f, hf⟩ := exec_ended h
  · exact hc.halt.symm.trans ht
  · rw [hf.halt] at ht
    cases ht

/-- Settles O53: both runs of `CLEAR` are whole, and the first leaves `ADDR`, `BL` and the parameters that fix the
events of the second. -/
theorem clearTwiceRepeatsItsEvents : Obligations.ClearTwiceRepeatsItsEvents := by
  intro s t u h h' _ hu
  obtain ⟨a, bl, ho, rfl⟩ := exec_clear_unfaulted h (exec_started_running h' hu)
  obtain ⟨a', bl', ho', rfl⟩ := exec_clear_unfaulted h' hu
  obtain rfl : a = a' := Option.some.inj (ho.addr.symm.trans ho'.addr)
  obtain rfl : bl = bl' := Option.some.inj (ho.bl.symm.trans ho'.bl)
  exact ⟨clearEvents s.cfg a bl, rfl, rfl, rfl, rfl, rfl, rfl⟩

end Sys2Proof.Machine

/-! The delays and the timing validator (family 43_timing_validator.md). -/

namespace Sys2Proof.Machine

/-! ### The pairing of strobes (43_timing_validator.md R156) -/

section
variable {s t u : State} {i : Instr} {st : List (State → State)} {plan : List Event} {put : State → State}

/-- A command that leaves the block running has appended its whole plan to the trace. -/
theorem exec_unfaulted_trace (h : exec i s = .next t) (ht : t.halt = false) :
    ∃ u st plan put, Effect s i u st plan put ∧ t.trace = s.trace ++ plan := by
  obtain ⟨u, st, plan, put, he, rfl⟩ := exec_unfaulted h ht
  exact ⟨u, st, plan, put, he, by simp [he.put.trace, he.start.trace]⟩

/-- The backlight byte has the strobe bit clear (00_scope.md R8). -/
theorem backlight_strobe_clear {k : Constants} (f : LineFacts k) {bl : Byte}
    (hbl : bl = k.backlightOff ∨ bl = k.backlightOn) : bl &&& k.en = 0 := by
  obtain ⟨⟨hoff, -⟩, ⟨hon, -⟩⟩ := linesAtRest_backlight f
  obtain rfl | rfl := hbl
  · exact hoff
  · exact hon

/-- A write with the strobe clear asks for no pulse. -/
theorem strobesPaired_write {en b : Byte} (h : b &&& en = 0) (a : BusAddr) {es : List Event}
    (hes : strobesPaired en es) : strobesPaired en (.w a b :: es) :=
  ⟨fun hb => absurd h hb, hes⟩

theorem strobesPaired_delay (en : Byte) (c : Config) (site : Site) : strobesPaired en [delayEvent c site] := trivial

/-- `clearOp` sends two bytes with a delay between them (42_display_control.md R120). -/
theorem strobesPaired_clear (c : Config) (a : BusAddr) {bl : Byte} (h : bl &&& c.k.en = 0) :
    strobesPaired c.k.en (clearEvents c a bl) :=
  strobesPaired_append (strobesPaired_append (strobesPaired_byte c a _ 0 h) (strobesPaired_delay _ c .sClr))
    (strobesPaired_byte c a _ 0 h)

/-- `homeOp` sends one byte and a delay after it (42_display_control.md R121). -/
theorem strobesPaired_home (c : Config) (a : BusAddr) {bl : Byte} (h : bl &&& c.k.en = 0) :
    strobesPaired c.k.en (homeEvents c a bl) :=
  strobesPaired_append (strobesPaired_byte c a _ 0 h) (strobesPaired_delay _ c .sHome)

/-- The recovery steps of `INIT` write two raw bytes and strobe three nibbles (41_init.md R103 to R106). The raw bytes
are the ones that may carry no strobe bit. -/
theorem strobesPaired_recovery (c : Config) (a : BusAddr) {bl : Byte} (h : bl &&& c.k.en = 0)
    (hreset : c.k.resetByte &&& c.k.en = 0) (hforce : c.k.initForce8 &&& c.k.en = 0) :
    strobesPaired c.k.en (recoveryEvents c a bl) := by
  have hnibble := fun v => strobesPaired_nibble c a v h
  have hraw : strobesPaired c.k.en [delayEvent c .sPwr, .w a (c.k.resetByte ||| bl), delayEvent c .sRst,
      .w a (c.k.initForce8 ||| bl), delayEvent c .sI1] :=
    strobesPaired_write (or_and_zero hreset h) a (strobesPaired_write (or_and_zero hforce h) a trivial)
  exact strobesPaired_append (strobesPaired_append (strobesPaired_append (strobesPaired_append
    (strobesPaired_append hraw (hnibble _)) (strobesPaired_delay _ c .sI2)) (hnibble _))
    (strobesPaired_delay _ c .sI3)) (hnibble _)

/-- Every command pairs the strobes of its plan, where the two raw bytes of `INIT` carry no strobe bit. -/
theorem Effect.strobesPaired_plan (he : Effect s i u st plan put) (hs : s.SoundRegisters)
    (hreset : s.cfg.k.resetByte &&& s.cfg.k.en = 0) (hforce : s.cfg.k.initForce8 &&& s.cfg.k.en = 0) :
    strobesPaired s.cfg.k.en plan := by
  have f := constantsWf_lines hs.wf
  have clear : ∀ {a bl}, s.Open a bl → bl &&& s.cfg.k.en = 0 := fun ho =>
    backlight_strobe_clear f (hs.backlight _ ho.bl)
  cases he with
  | init addr cols rows font =>
    have hoff := backlight_strobe_clear f (.inl rfl)
    have hcommand := fun v => strobesPaired_byte s.cfg addr v 0 hoff
    exact strobesPaired_append (strobesPaired_append (strobesPaired_append (strobesPaired_append (strobesPaired_append
      (strobesPaired_recovery s.cfg addr hoff hreset hforce) (hcommand _)) (hcommand _))
      (strobesPaired_clear s.cfg addr hoff)) (hcommand _)) (strobesPaired_home s.cfg addr hoff)
  | clear ho => exact strobesPaired_clear _ _ (clear ho)
  | home ho => exact strobesPaired_home _ _ (clear ho)
  | bloff => exact strobesPaired_write (backlight_strobe_clear f (.inl rfl)) _ trivial
  | blon => exact strobesPaired_write (backlight_strobe_clear f (.inr rfl)) _ trivial
  | mkchar ho =>
    exact strobesPaired_append (strobesPaired_byte _ _ _ _ (clear ho)) (strobesPaired_text _ _ _ (clear ho))
  | print ho => exact strobesPaired_text _ _ _ (clear ho)
  | printNothing => trivial
  | setcursor ho | dispoff ho | dispon ho | curoff ho | curon ho | blnkoff ho | blnkon ho | scrl ho | scrr ho | rtl ho
  | ltr ho | ascroff ho | ascron ho | sendcmd ho | sendchr ho => exact strobesPaired_byte _ _ _ _ (clear ho)

/-- Settles O51: a step without fault appends nothing or the whole plan of a command, whose strobes are paired. -/
theorem strobesStayPaired : Obligations.StrobesStayPaired := by
  intro s t hs hk hold h ht
  cases (step_next h).2 with
  | still heq => exact heq ▸ hold
  | illegal _ _ _ heq | truncated _ _ _ heq => rw [heq] at ht; cases ht
  | command _ i _ h =>
    obtain ⟨u, st, plan, put, he, htrace⟩ := exec_unfaulted_trace h ht
    have hplan := he.strobesPaired_plan hs.soundRegisters (by rw [hk]; rfl) (by rw [hk]; rfl)
    rw [hk] at hplan
    rw [htrace]
    exact strobesPaired_append hold hplan

/-! ### The requests of a command (43_timing_validator.md R152, R155, R158) -/

/-- Settles O20: an `INIT` that opens a session has appended its whole sequence. -/
theorem initStepDelaysInOrder : Obligations.InitStepDelaysInOrder := by
  intro s t addr cols rows font h hi
  obtain ⟨-, -, rfl⟩ := exec_init_open h hi
  exact ⟨_, rfl, initEvents_stepDelays s.cfg addr (resolve s.cfg.k rows font)⟩

/-- With the default `DLY` a byte requests 104 microseconds (43_timing_validator.md R158). -/
theorem requestedTime_byteEvents_default {c : Config} (hd : c.dly = defaultDelays) (a : BusAddr) (bl v m : Byte) :
    requestedTime (byteEvents c a bl v m) = 104 := by
  rw [requestedTime_byteEvents, hd]
  rfl

/-- With the default `DLY` a text requests the time of its characters (43_timing_validator.md R158). -/
theorem requestedTime_textEvents_default {c : Config} (hd : c.dly = defaultDelays) (a : BusAddr) (bl : Byte)
    (text : List Byte) : requestedTime (textEvents c a bl text) = 104 * text.length := by
  induction text with
  | nil => rfl
  | cons v vs ih =>
    rw [textEvents, requestedTime_append, characterEvents, requestedTime_byteEvents_default hd, ih, List.length_cons]
    omega

/-- With the default `DLY` the plan of a command requests the time of R158. -/
theorem Effect.requestedTime_plan (he : Effect s i u st plan put) (hd : s.cfg.dly = defaultDelays) :
    requestedTime plan = commandTime i := by
  have hbyte := requestedTime_byteEvents_default hd
  have hdelay : ∀ site, requestedTime [delayEvent s.cfg site] = delayOf defaultDelays site := fun site => by
    rw [← hd]; rfl
  cases he with
  | init => rw [requestedTime_initEvents, hd]; rfl
  | clear =>
    rw [clearEvents, requestedTime_append, requestedTime_append, commandEvents, commandEvents, hbyte, hbyte, hdelay]
    rfl
  | home => rw [homeEvents, requestedTime_append, commandEvents, hbyte, hdelay]; rfl
  | mkchar => rw [requestedTime_append, commandEvents, hbyte, requestedTime_textEvents_default hd, commandTime]; simp
  | print => exact requestedTime_textEvents_default hd _ _ _
  | bloff | blon | printNothing => rfl
  | setcursor | dispoff | dispon | curoff | curon | blnkoff | blnkon | scrl | scrr | rtl | ltr | ascroff | ascron
  | sendcmd | sendchr => exact hbyte _ _ _ _

/-- Settles O54: a command that leaves the block running has requested the time of its whole plan. -/
theorem requestedTimePerCommand : Obligations.RequestedTimePerCommand := by
  refine ⟨fun c a bl v m hd => ⟨?_, requestedTime_byteEvents_default hd a bl v m⟩, fun i s t hd h _ ht => ?_⟩
  · simp only [nibbleEvents, delayEvent, hd]
    rfl
  · obtain ⟨u, st, plan, put, he, htrace⟩ := exec_unfaulted_trace h ht
    exact ⟨plan, htrace, he.requestedTime_plan hd⟩

/-! ### The validator (43_timing_validator.md R151, R153, R154) -/

/-- Settles O14: the tables are read off, and the check selects how `Delay` ends. -/
theorem delayChecksItsFloor : Obligations.DelayChecksItsFloor := by
  refine ⟨⟨rfl, rfl, rfl, rfl, rfl, rfl, rfl, rfl, rfl⟩, ⟨rfl, rfl, rfl, rfl, rfl, rfl, rfl, rfl, rfl⟩,
    fun site s => ⟨fun hshort => ?_, fun hmeets => ?_⟩⟩
  · exact if_pos hshort
  · exact if_neg (Nat.not_lt.mpr hmeets)

/-- With the floors met a command completes, or takes a fault that is no timing violation. -/
theorem exec_takes_no_violation (hd : s.DelaysMeetFloors) (h : exec i s = .next t) :
    Completed i s t ∨ ∃ f, (∀ site, f ≠ .timingViolation site) ∧ TookFault f s t := by
  have stopped : ∀ {f v}, (∀ site, f ≠ .timingViolation site) → StoppedAt f s v → t = v.takeFault f →
      ∃ f, (∀ site, f ≠ .timingViolation site) ∧ TookFault f s t := fun hf hv ht => ⟨_, hf, ht ▸ hv.tookFault⟩
  cases exec_next h with
  | ran he _ _ ht => exact .inl (ht ▸ he.completed)
  | notInitialized _ _ ht => exact .inr (stopped (by simp) (.at_once s (by simp)) ht)
  | operandFirst _ _ hf ht => exact .inr (stopped hf.ne_timing (.at_once s hf.ne_timing) ht)
  | busFailed he g es rest a b hg _ _ _ ht => exact .inr (stopped (by simp) (he.stoppedAt hg _ (by simp)) ht)
  | operand he g es rest f hg hf _ _ ht => exact .inr (stopped hf.ne_timing (he.stoppedAt hg es hf.ne_timing) ht)
  | tooShort he g es rest site _ _ _ hshort _ =>
    rw [he.start.cfg] at hshort
    exact absurd (hd site) (Nat.not_le.mpr hshort)

/-- With the floors met a step leaves `TV_VIOL` as it was and raises no timing violation. -/
theorem step_raises_no_violation (hd : s.DelaysMeetFloors) (h : step s = .next t) : t.tvViol = s.tvViol ∧
    (t.faultValue = s.faultValue ∨ ∃ f, t.faultValue = some f ∧ ∀ site, f ≠ .timingViolation site) := by
  cases (step_next h).2 with
  | still ht => exact ht ▸ ⟨rfl, .inl rfl⟩
  | illegal _ _ _ ht | truncated _ _ _ ht => exact ht ▸ ⟨rfl, .inr ⟨_, rfl, by simp⟩⟩
  | command _ i _ h =>
    obtain hc | ⟨f, hf, htook⟩ := exec_takes_no_violation hd h
    · exact ⟨hc.tvViol, .inl hc.faultValue⟩
    · obtain ⟨site, heq, -⟩ | ⟨-, hviol, -⟩ := htook.validator
      · exact absurd heq (hf site)
      · exact ⟨hviol, .inr ⟨f, htook.faultValue, hf⟩⟩

/-- However a command ends, the delays it records are those of its plan, each the `DLY` of its site. -/
theorem exec_recorded_delays (h : exec i s = .next t) {site : Site} {us : Nat} (hm : Event.d site us ∈ t.trace) :
    Event.d site us ∈ s.trace ∨ us = delayOf s.cfg.dly site := by
  have planned : ∀ {u st plan put es}, Effect s i u st plan put → t.trace = s.trace ++ es →
      (Event.d site us ∈ es → Event.d site us ∈ plan) → Event.d site us ∈ s.trace ∨ us = delayOf s.cfg.dly site :=
    fun he ht hes => (List.mem_append.mp (ht ▸ hm)).imp_right fun hnew => he.delays (hes hnew)
  cases exec_next h with
  | notInitialized _ _ ht | operandFirst _ _ _ ht => rw [ht] at hm; exact .inl hm
  | ran he _ _ ht => exact planned he (by simp [ht, he.put.trace, he.start.trace]) id
  | busFailed he g es rest a b hg hplan _ _ ht =>
    refine planned he (es := es ++ [.wf a b]) (by simp [ht, (he.stage hg).trace, he.start.trace]) fun hes => ?_
    have hes' : Event.d site us ∈ es := by simpa using hes
    exact hplan ▸ List.mem_append_left _ hes'
  | @tooShort u _ _ _ he g es rest site' hg hplan _ _ ht =>
    refine planned he (es := es ++ [delayEvent u.cfg site']) (by simp [ht, (he.stage hg).trace, he.start.trace])
      fun hes => ?_
    rw [hplan, List.append_cons]
    exact List.mem_append_left _ hes
  | operand he g es rest f hg _ hplan _ ht =>
    exact planned he (es := es) (by simp [ht, (he.stage hg).trace, he.start.trace])
      fun hes => hplan ▸ List.mem_append_left _ hes

/-- Every delay a step records is the `DLY` of its site (43_timing_validator.md R152). -/
theorem step_recorded_delays (h : step s = .next t) {site : Site} {us : Nat} (hm : Event.d site us ∈ t.trace) :
    Event.d site us ∈ s.trace ∨ us = delayOf s.cfg.dly site := by
  cases (step_next h).2 with
  | still ht | illegal _ _ _ ht | truncated _ _ _ ht => rw [ht] at hm; exact .inl hm
  | command _ i _ h => exact exec_recorded_delays h hm

/-- The default `DLY` is the floors themselves (00_scope.md R7). -/
theorem delayOf_defaultDelays (site : Site) : delayOf defaultDelays site = floorOf site := by
  cases site <;> rfl

end

/-- Settles O37: no step changes `DLY`, with the floors met no command stops at the validator, and a new delay of the
trace is the `DLY` of its site. -/
theorem validatorNeverFires : Obligations.ValidatorNeverFires := by
  intro s t hd h
  have hcfg := step_keeps_cfg h
  obtain ⟨hviol, hfault⟩ := step_raises_no_violation hd h
  refine ⟨fun site => hcfg ▸ hd site, fun hv => hviol.trans hv, fun hold site => ?_, fun hold site us hm => ?_,
    fun hdly hold => ⟨hcfg ▸ hdly, fun site us hm => ?_⟩⟩
  · obtain hsame | ⟨f, hf, hno⟩ := hfault
    · exact hsame ▸ hold site
    · rw [hf]
      exact fun heq => hno site (Option.some.inj heq)
  · obtain hm | rfl := step_recorded_delays h hm
    · exact hold site us hm
    · exact hd site
  · obtain hm | rfl := step_recorded_delays h hm
    · exact hold site us hm
    · rw [hdly, delayOf_defaultDelays]

end Sys2Proof.Machine

/-! Faults (family 60_exceptions.md). -/

namespace Sys2Proof.Machine

/-! ### Faults of the decoder (60_exceptions.md R171, R172) -/

/-- At bytes that decode to no command of the opcode map the step is the fault entry and nothing else. -/
theorem step_illegal {s : State} {op : Byte} (hk : constantsWf s.cfg.k = true) (hh : s.halt = false)
    (hd : decode (s.cmd.drop s.cp) = .illegalEncoding op) : step s = .next (s.takeFault (.illegalEncoding op)) := by
  rw [step_running hk hh, hd]

/-- At bytes that end inside a command the step is the fault entry and nothing else. -/
theorem step_truncated {s : State} {op : Byte} (hk : constantsWf s.cfg.k = true) (hh : s.halt = false)
    (hd : decode (s.cmd.drop s.cp) = .truncatedCommand op) : step s = .next (s.takeFault (.truncatedCommand op)) := by
  rw [step_running hk hh, hd]

/-- No opcode byte lies in the reserved ranges (30_encoding.md R64, R65). -/
theorem not_reserved_of_mem_opcodes : ∀ op ∈ [(0x01 : Byte), 0x02, 0x03, 0x04, 0x10, 0x11, 0x12, 0x13, 0x14, 0x15, 0x16,
      0x17, 0x18, 0x19, 0x1A, 0x1B, 0x1C, 0x1D, 0x20, 0x21, 0x22, 0x23],
    ¬ (op = 0x00 ∨ (0x05 ≤ op.toNat ∧ op.toNat ≤ 0x0F) ∨ op = 0x1E ∨ op = 0x1F ∨ 0x24 ≤ op.toNat) := by
  decide

/-- At every byte of the reserved ranges the decoder answers `IllegalEncoding` (30_encoding.md R65). -/
theorem decode_of_reserved_range {op : Byte}
    (h : op = 0x00 ∨ (0x05 ≤ op.toNat ∧ op.toNat ≤ 0x0F) ∨ op = 0x1E ∨ op = 0x1F ∨ 0x24 ≤ op.toNat) (rest : List Byte) :
    decode (op :: rest) = .illegalEncoding op :=
  decode_reserved fun hmem => not_reserved_of_mem_opcodes op hmem h

/-- The number of reserved bytes: 14 below `0x24`, and the 220 bytes from `0x24` on (30_encoding.md R65). -/
theorem reserved_bytes_count :
    ((List.range 256).filter fun n => decode [BitVec.ofNat 8 n] = .illegalEncoding (BitVec.ofNat 8 n)).length = 234 := by
  have hsplit : List.range 256 = List.range 36 ++ (List.range 220).map (36 + ·) :=
    List.range_add (n := 36) (m := 220)
  have hhigh : ∀ n ∈ (List.range 220).map (36 + ·),
      decide (decode [BitVec.ofNat 8 n] = .illegalEncoding (BitVec.ofNat 8 n)) = true := by
    intro n hn
    obtain ⟨m, hm, rfl⟩ := List.mem_map.mp hn
    have hlt : m < 220 := List.mem_range.mp hm
    have hval : 0x24 ≤ (BitVec.ofNat 8 (36 + m)).toNat := by
      rw [BitVec.toNat_ofNat]
      omega
    exact decide_eq_true (decode_of_reserved_range (.inr (.inr (.inr (.inr hval)))) [])
  rw [hsplit, List.filter_append, List.length_append, List.filter_eq_self.mpr hhigh, List.length_map, List.length_range]
  exact congrArg (· + 220) (by decide :
    ((List.range 36).filter fun n => decode [BitVec.ofNat 8 n] = .illegalEncoding (BitVec.ofNat 8 n)).length = 14)

/-- Settles O6: the reserved ranges are outside the opcode map, and `INIT`'s decoder checks bit 7 of its address byte. -/
theorem reservedEncodingsHalt : Obligations.ReservedEncodingsHalt := by
  refine ⟨reserved_bytes_count, fun s op rest hk hh hbytes hop => ?_, fun s a c r f rest hk hh hbytes h7 => ?_⟩
  · exact step_illegal hk hh (hbytes ▸ decode_of_reserved_range hop rest)
  · exact step_illegal hk hh (by rw [hbytes, decode_init, if_pos h7])

/-- Settles O8: the decoder answers `TruncatedCommand` at a short format and at an unterminated `PRINT`. -/
theorem truncatedCommandHalts : Obligations.TruncatedCommandHalts := by
  intro s op rest hk hh hbytes hshort
  obtain ⟨-, -, -, -, hformat, -⟩ := decodeFollowsTheFormats
  refine step_truncated hk hh (hbytes ▸ ?_)
  obtain ⟨len, hop, hlen⟩ | ⟨rfl, hno⟩ := hshort
  · exact hformat op len rest hop hlen
  · exact decode_print_unterminated hno

/-! ### Faults before any event (60_exceptions.md R173, R175, R179) -/

/-- Settles O28: of what a command can answer, everything but `NotInitialized` needs an open session or is an `INIT`. -/
theorem notInitializedBeforeAnything : Obligations.NotInitializedBeforeAnything := by
  intro i s hinit hclosed
  have hr := exec_cases i s
  generalize exec i s = o at hr
  have hno : s.inited ≠ true := by simp [hclosed]
  cases hr with
  | notInitialized => rfl
  | operand hi _ _ | unwritten _ hi _ _ => exact absurd hi hno
  | ran he _ =>
    obtain hi | ⟨addr, cols, rows, font, rfl⟩ := he.inited
    · exact absurd hi hno
    · exact absurd rfl (hinit _ _ _ _)

/-- Under `reject` the slot check raises at a slot above 7 (42_display_control.md R139). -/
theorem checkSlot_rejects {s : State} {slot : Byte} (hpol : s.cfg.slotPolicy = .reject) (hslot : 7 < slot.toNat) :
    checkSlot slot s = .raised (.invalidSlotIndex slot) s :=
  if_pos ⟨hpol, slotBeyond_iff_lt.mpr hslot⟩

section
variable {i : Instr} {s t : State}

/-- `InvalidSlotIndex` is an operand fault of `MKCHAR` alone, under `reject` alone (60_exceptions.md R175). -/
theorem OperandFault.slot_of_code {f : SeqFault} (h : OperandFault s i f) (hcode : f.code = 3) :
    s.cfg.slotPolicy = .reject ∧ ∃ slot p0 p1 p2 p3 p4 p5 p6 p7, i = .mkchar slot p0 p1 p2 p3 p4 p5 p6 p7 ∧
      7 < slot.toNat := by
  cases h with
  | row | clearRow | initRow => exact absurd hcode (by simp [SeqFault.code])
  | slot hpol hslot => exact ⟨hpol, _, _, _, _, _, _, _, _, _, rfl, slotBeyond_iff_lt.mp hslot⟩

/-- A command that brings code 3 into `FAULT` has taken an operand fault with that code. -/
theorem exec_code_three (hs : s.faultCode ≠ 3) (h : exec i s = .next t) (ht : t.faultCode = 3) :
    ∃ f, OperandFault s i f ∧ f.code = 3 := by
  cases exec_next h with
  | ran he _ _ heq =>
    subst heq
    exact absurd (he.completed.faultCode.symm.trans ht) hs
  | operandFirst _ _ hf heq | operand _ _ _ _ _ _ hf _ _ heq =>
    subst heq
    exact ⟨_, hf, ht⟩
  | notInitialized _ _ heq | busFailed _ _ _ _ _ _ _ _ _ _ heq | tooShort _ _ _ _ _ _ _ _ _ heq =>
    subst heq
    exact absurd ht (by simp [SeqFault.code])

end

/-- Settles O30: the slot check stands before the first send, and no other fault has code 3. -/
theorem slotPolicyDecides : Obligations.SlotPolicyDecides := by
  have honly : ∀ (i : Instr) (s t : State), s.faultCode ≠ 3 → exec i s = .next t → t.faultCode = 3 →
      s.cfg.slotPolicy = .reject ∧ ∃ slot p0 p1 p2 p3 p4 p5 p6 p7, i = .mkchar slot p0 p1 p2 p3 p4 p5 p6 p7 ∧
        7 < slot.toNat := by
    intro i s t hs h ht
    obtain ⟨f, hf, hcode⟩ := exec_code_three hs h ht
    exact hf.slot_of_code hcode
  refine ⟨fun s slot p0 p1 p2 p3 p4 p5 p6 p7 hi hpol hslot => ?_, honly, fun s t hmask hs h ht => ?_⟩
  · refine (sessionCommand_inited hi (.mkchar slot p0 p1 p2 p3 p4 p5 p6 p7) _).trans ?_
    rw [runSeq, checkSlot_rejects hpol hslot]
    rfl
  · cases (step_next h).2 with
    | still heq => exact hs (heq ▸ ht)
    | illegal _ _ _ heq | truncated _ _ _ heq =>
      subst heq
      exact absurd ht (by simp [SeqFault.code])
    | command _ i _ h =>
      have hreject := (honly i s t hs h ht).1
      rw [hmask] at hreject
      cases hreject

/-- A delay below its floor is recorded and raises (43_timing_validator.md R153). -/
theorem delay_short {site : Site} {s : State} (h : delayOf s.cfg.dly site < floorOf site) : delay site s =
    .raised (.timingViolation site) ((s.record (delayEvent s.cfg site)).recordViolation site) :=
  if_pos h

/-- Settles O36: the power-up wait is the first statement of `INIT` after its start. -/
theorem shortPowerUpWaitHaltsInit : Obligations.ShortPowerUpWaitHaltsInit := by
  intro s addr cols rows font hshort
  have hwait := delay_short (site := .sPwr) (s := s.initStart addr cols rows font) hshort
  show finish 5 (initSteps (s.initStart addr cols rows font)) = _
  rw [initSteps, runSeq, initRecovery, runSeq, hwait]
  rfl

/-! ### The two ends of a command (60_exceptions.md R170, R176) -/

/-- Settles O33: both ends of a command, and the codes read off. -/
theorem everyCommandCompletesOrTakesOneFault : Obligations.EveryCommandCompletesOrTakesOneFault :=
  ⟨fun _ _ _ => exec_ended, fun _ _ => ⟨rfl, rfl, rfl, rfl, rfl, rfl, rfl⟩⟩

/-! ### The last event before a fault (60_exceptions.md R177, R178) -/

section
variable {i : Instr} {s t u : State} {st : List (State → State)} {plan : List Event} {put g : State → State}

/-- Wherever a command other than `INIT` stops, it has done nothing but its events. -/
theorem Effect.stage_plain (he : Effect s i u st plan put) (hg : g ∈ st)
    (hinit : ∀ addr cols rows font, i ≠ .init addr cols rows font) (es : List Event) :
    g (u.emitted es) = s.emitted es := by
  obtain ⟨rfl, rfl⟩ := he.plain hinit
  rw [List.mem_singleton.mp hg]
  rfl

/-- How the events of a command end: the run goes on after each of them, or the last one is a failed write or a
delay below its floor and the command took the fault of it. -/
inductive EventsEnd (i : Instr) (s t : State) : Prop where
  | accepted (es : List Event) (htrace : t.trace = s.trace ++ es) (hok : ∀ e ∈ es, e.accepted)
  | failedWrite (es : List Event) (a : BusAddr) (b : Byte) (htrace : t.trace = s.trace ++ (es ++ [.wf a b]))
      (hok : ∀ e ∈ es, e.accepted) (hf : TookFault (.busTransportFailure b) s t) (hport : t.port = none)
      (hregs : (∀ addr cols rows font, i ≠ .init addr cols rows font) →
        KeepsGeometry s t ∧ KeepsCursor s t ∧ t.bl = s.bl ∧ t.ctrl = s.ctrl ∧ t.mode = s.mode)
  | shortDelay (es : List Event) (site : Site) (htrace : t.trace = s.trace ++ (es ++ [delayEvent s.cfg site]))
      (hok : ∀ e ∈ es, e.accepted) (hf : TookFault (.timingViolation site) s t)

theorem exec_eventsEnd (h : exec i s = .next t) : EventsEnd i s t := by
  cases exec_next h with
  | notInitialized _ _ ht | operandFirst _ _ _ ht => exact .accepted [] (by simp [ht]) (by simp)
  | ran he _ hok ht => exact .accepted _ (by simp [ht, he.put.trace, he.start.trace]) hok
  | operand he g es _ _ hg _ _ hok ht => exact .accepted es (by simp [ht, (he.stage hg).trace, he.start.trace]) hok
  | busFailed he g es _ a b hg _ hok _ ht =>
    subst ht
    refine .failedWrite es a b ?_ hok (he.stoppedAt hg _ (by simp)).tookFault ?_ fun hinit => ?_
    · simp [(he.stage hg).trace, he.start.trace]
    · simp [(he.stage hg).port, portAfter]
    · rw [he.stage_plain hg hinit]
      exact ⟨⟨rfl, rfl, rfl, rfl⟩, ⟨rfl, rfl⟩, rfl, rfl, rfl⟩
  | tooShort he g es _ site hg _ hok _ ht =>
    subst ht
    refine .shortDelay es site ?_ hok ((he.within hg _).violation site).tookFault
    simp [(he.stage hg).trace, he.start.trace, he.start.cfg]

/-- Of events that a run goes on after, followed by one more, only the last can stop it. -/
theorem eq_last_of_not_accepted {es : List Event} {e last : Event} (hok : ∀ e ∈ es, e.accepted)
    (hmem : e ∈ es ++ [last]) (he : ¬ e.accepted) : e = last :=
  (List.mem_append.mp hmem).elim (fun hin => absurd (hok e hin) he) List.mem_singleton.mp

/-- An event that stops the run stands once, at the end of the events up to it. -/
theorem count_last_of_not_accepted {es : List Event} {last : Event} (hok : ∀ e ∈ es, e.accepted)
    (hlast : ¬ last.accepted) : (es ++ [last]).count last = 1 := by
  have hnot : last ∉ es := fun hin => hlast (hok last hin)
  simp [List.count_eq_zero_of_not_mem hnot]

/-- A timing violation sets the validator's registers (60_exceptions.md R178). -/
theorem TookFault.violation {site : Site} (h : TookFault (.timingViolation site) s t) :
    t.tvViol = true ∧ t.tvSite = some (siteNumber site) := by
  obtain ⟨site', heq, hviol, hsite⟩ | ⟨hno, -⟩ := h.validator
  · cases heq
    exact ⟨hviol, hsite⟩
  · exact absurd rfl (hno site)

/-- After a fault no run makes another event (60_exceptions.md R176). -/
theorem TookFault.no_more_events {f : SeqFault} (h : TookFault f s t) (n : Nat) (v : State)
    (hrun : Host.Core.run core n t = .next v) : v.trace = t.trace :=
  congrArg State.trace (run_halted h.halt n hrun)

end

/-- Settles O34: a failed write is no event a run goes on after, so it is the one the command stopped at. -/
theorem failedWriteIsTheLastEvent : Obligations.FailedWriteIsTheLastEvent := by
  intro i s t h
  cases exec_eventsEnd h with
  | accepted es htrace hok => exact ⟨es, htrace, fun a b hmem => absurd (hok _ hmem) id⟩
  | failedWrite es a b htrace hok hf hport hregs =>
    refine ⟨_, htrace, fun a' b' hmem => ?_⟩
    cases eq_last_of_not_accepted hok hmem id
    exact ⟨List.getLast?_concat, count_last_of_not_accepted hok id, hf.halt, hf.faultCode, hf.fcp, hf.cp, hport, hregs,
      hf.no_more_events⟩
  | shortDelay es site htrace hok hf =>
    exact ⟨_, htrace, fun a b hmem => absurd (eq_last_of_not_accepted hok hmem id) nofun⟩

/-- Settles O35: a delay below its floor is no event a run goes on after, so it is the one the command stopped at. -/
theorem shortDelayIsTheLastEvent : Obligations.ShortDelayIsTheLastEvent := by
  intro i s t h
  cases exec_eventsEnd h with
  | accepted es htrace hok =>
    exact ⟨es, htrace, fun site us hmem hshort => absurd (hok _ hmem) (Nat.not_le.mpr hshort)⟩
  | failedWrite es a b htrace hok =>
    exact ⟨_, htrace, fun site us hmem hshort =>
      absurd (eq_last_of_not_accepted hok hmem (Nat.not_le.mpr hshort)) nofun⟩
  | shortDelay es site htrace hok hf =>
    refine ⟨_, htrace, fun site' us hmem hshort => ?_⟩
    cases eq_last_of_not_accepted hok hmem (Nat.not_le.mpr hshort)
    obtain ⟨hviol, hsite⟩ := hf.violation
    exact ⟨List.getLast?_concat, rfl, hf.halt, hf.faultCode, hf.fcp, hf.cp, hviol, hsite, hf.no_more_events⟩

end Sys2Proof.Machine

/-! The reset state and the launches (family 70_reset_and_hazards.md). -/

namespace Sys2Proof.Machine

/-- The reset state is the launch of the empty stream with the default parameters and a sink that always answers
`success` (assumption logs 2, 3 and 4). -/
theorem launch_default_eq_reset : State.launch defaultConfig [] { script := [], rest := .success } = State.reset := rfl

/-- The table `K` of the reset state is well-formed (00_scope.md R8). -/
theorem constantsWf_defaultConfig : constantsWf defaultConfig.k = true := by decide

/-- Settles O56: the reset state is itself a launch, and every launch starts with nothing written and no fault. -/
theorem launchMeetsInvariant : Obligations.LaunchMeetsInvariant := by
  refine ⟨?_, fun cfg cmd sink hk => launch_inv hk cmd sink⟩
  rw [← launch_default_eq_reset]
  exact launch_inv constantsWf_defaultConfig [] _

end Sys2Proof.Machine
